-- ==== Sys2Proof/Word.lean ====
section
/-! DEFINITION. The word types of the block: bytes, sample-domain values (`NUM`, 00_scope.md R6) and banks of a fixed number of
like registers. -/

namespace Sys2Proof

/-- One byte of `IN` or `OUT`: bit 7 is the most significant (00_scope.md R7). -/
abbrev Byte := BitVec 8

/-- One sample-domain value `NUM` (00_scope.md R6, R8): a number, held as its sign and its magnitude in units of the least
positive number of the configured format, or what a format answers where no number can be (logs 8 and 9). -/
inductive NumVal where
  /-- A number; both signs of zero are zero (45_synthesis.md R208). -/
  | finite (negative : Bool) (units : Nat)
  /-- Beyond the largest number of the format. -/
  | infinity (negative : Bool)
  /-- No number. -/
  | nan (payload : Nat)
deriving DecidableEq, Repr, Inhabited

/-- The `NUM` zero (10_state.md R37). -/
def NumVal.zero : NumVal := .finite false 0

/-- `n` like registers, numbered `0 .. n-1` (10_state.md R21 to R27). The cells are a list whose length is part of the type,
so two banks are equal exactly when their cells are. -/
structure Bank (α : Type) (n : Nat) where
  cells : List α
  length_eq : cells.length = n
deriving DecidableEq, Repr

/-- The bank whose cell `i` is `f i`. -/
def Bank.tabulate {α : Type} (n : Nat) (f : Nat → α) : Bank α n :=
  ⟨(List.range n).map f, by simp⟩

/-- The bank with `x` in every cell. -/
def Bank.fill {α : Type} (n : Nat) (x : α) : Bank α n :=
  ⟨List.replicate n x, by simp⟩

/-- Cell `i` of a bank. -/
def Bank.get {α : Type} {n : Nat} (b : Bank α n) (i : Fin n) : α :=
  b.cells[i.val]'(b.length_eq.symm ▸ i.isLt)

/-- The bank with cell `i` replaced by `x`. -/
def Bank.set {α : Type} {n : Nat} (b : Bank α n) (i : Fin n) (x : α) : Bank α n :=
  ⟨b.cells.set i.val x, by simp [b.length_eq]⟩

end Sys2Proof
end

