-- ==== Sys2Proof/Syntax.lean ====
section
/-! DEFINITION. The bitstream units: one constructor per row of spec/opcode_table.json (30_encoding.md R80, R90). -/

namespace Sys2Proof

/-- The fields of the 32-bit frame header that the frame kind does not fix (30_encoding.md R82): the letters
`i p b f d v m e t` of the pattern `111111111111illpbbbbffdvmmeetttt`. The layer bits `l` are the constructor of `Instr`. -/
structure HdrFields where
  /-- `i`, version id (1 bit). -/
  id : BitVec 1
  /-- `p`, protection (1 bit). -/
  prot : BitVec 1
  /-- `b`, bitrate index (4 bits). -/
  br : BitVec 4
  /-- `f`, sampling-frequency index (2 bits). -/
  fs : BitVec 2
  /-- `d`, padding (1 bit). -/
  pad : BitVec 1
  /-- `v`, private (1 bit). -/
  priv : BitVec 1
  /-- `m`, mode (2 bits). -/
  mode : BitVec 2
  /-- `e`, mode extension (2 bits). -/
  ext : BitVec 2
  /-- `t`, copyright, original, emphasis (4 bits), discarded. -/
  tail : BitVec 4
deriving DecidableEq, Repr

/-- One bitstream unit. An element whose width the stream decides carries the width `w` it was read with. -/
inductive Instr where
  /-- `SKIP`: one byte that does not begin a sync candidate (41_frame_sync.md R121). -/
  | skip (x : Byte)
  /-- `FRAME.L1`: header with layer code 3. -/
  | frameL1 (h : HdrFields)
  /-- `FRAME.L2`: header with layer code 2. -/
  | frameL2 (h : HdrFields)
  /-- `FRAME.L3`: header with layer code 1. -/
  | frameL3 (h : HdrFields)
  /-- `FRAME.RSV`: header with layer code 0. -/
  | frameRsv (h : HdrFields)
  /-- `CRC16`: the optional error-detection field (42_frame_header.md R137). -/
  | crc16 (c : BitVec 16)
  /-- `L1.ALLOC` (43_layer1.md R151). -/
  | l1Alloc (a : BitVec 4)
  /-- `L1.SCF` (43_layer1.md R152). -/
  | l1Scf (x : BitVec 6)
  /-- `L1.SAMPLE`, `w = ALLOC + 1` bits (43_layer1.md R154). -/
  | l1Sample (w : Nat) (v : BitVec 16)
  /-- `L2.ALLOC`, `w = L2_NBAL[L2SET][sb]` bits (44_layer2.md R175). -/
  | l2Alloc (w : Nat) (a : BitVec 4)
  /-- `L2.SCFSI` (44_layer2.md R176). -/
  | l2Scfsi (c : BitVec 2)
  /-- `L2.SCF` (44_layer2.md R177). -/
  | l2Scf (x : BitVec 6)
  /-- `L2.SAMPLE`, `w = QCLASS[q].bits` bits (44_layer2.md R180). -/
  | l2Sample (w : Nat) (v : BitVec 16)
  /-- `L2.GROUP`, `w = QCLASS[q].bits` bits (44_layer2.md R180). -/
  | l2Group (w : Nat) (c : BitVec 10)
  /-- `PADBITS`, `w = (8 - BP mod 8) mod 8` bits (40_bit_reader.md R114). -/
  | padBits (w : Nat) (z : BitVec 7)
deriving DecidableEq, Repr

/-- What a position of the block selects: the kind of the next unit and its width (30_encoding.md R80, R90, the column
"selected by" of the unit table). Elements have no selecting bits, so the decoder is told this. -/
inductive UnitShape where
  | skip
  | header
  | crc16
  | l1Alloc
  | l1Scf
  | l1Sample (w : Nat)
  | l2Alloc (w : Nat)
  | l2Scfsi
  | l2Scf
  | l2Sample (w : Nat)
  | l2Group (w : Nat)
  | padBits (w : Nat)
deriving DecidableEq, Repr

/-- The shape of a unit. -/
def Instr.shape : Instr → UnitShape
  | .skip _ => .skip
  | .frameL1 _ => .header
  | .frameL2 _ => .header
  | .frameL3 _ => .header
  | .frameRsv _ => .header
  | .crc16 _ => .crc16
  | .l1Alloc _ => .l1Alloc
  | .l1Scf _ => .l1Scf
  | .l1Sample w _ => .l1Sample w
  | .l2Alloc w _ => .l2Alloc w
  | .l2Scfsi _ => .l2Scfsi
  | .l2Scf _ => .l2Scf
  | .l2Sample w _ => .l2Sample w
  | .l2Group w _ => .l2Group w
  | .padBits w _ => .padBits w

/-- The number of bits of a unit of a shape (30_encoding.md R90, column "width"). -/
def UnitShape.width : UnitShape → Nat
  | .skip => 8
  | .header => 32
  | .crc16 => 16
  | .l1Alloc => 4
  | .l1Scf => 6
  | .l1Sample w => w
  | .l2Alloc w => w
  | .l2Scfsi => 2
  | .l2Scf => 6
  | .l2Sample w => w
  | .l2Group w => w
  | .padBits w => w

end Sys2Proof
end

