-- ==== Sys2Proof/WellFormed.lean ====
section
/-! DEFINITION. Which units are well formed: the width is one the unit table allows and the value fits in it
(30_encoding.md R90). A unit of fixed width is always well formed: its operand has exactly that many bits. -/

namespace Sys2Proof

/-- The widths the unit table allows for an element whose width the stream decides (30_encoding.md R90). -/
def UnitShape.widthOk : UnitShape → Bool
  | .skip => true
  | .header => true
  | .crc16 => true
  | .l1Alloc => true
  | .l1Scf => true
  | .l1Sample w => decide (2 ≤ w) && decide (w ≤ 16)
  | .l2Alloc w => decide (2 ≤ w) && decide (w ≤ 4)
  | .l2Scfsi => true
  | .l2Scf => true
  | .l2Sample w => decide (3 ≤ w) && decide (w ≤ 16)
  | .l2Group w => decide (w = 5) || decide (w = 7) || decide (w = 10)
  | .padBits w => decide (w ≤ 7)

/-- The value of a unit of variable width fits in its width. -/
def Instr.fits : Instr → Bool
  | .skip _ => true
  | .frameL1 _ => true
  | .frameL2 _ => true
  | .frameL3 _ => true
  | .frameRsv _ => true
  | .crc16 _ => true
  | .l1Alloc _ => true
  | .l1Scf _ => true
  | .l1Sample w v => decide (v.toNat < 2 ^ w)
  | .l2Alloc w a => decide (a.toNat < 2 ^ w)
  | .l2Scfsi _ => true
  | .l2Scf _ => true
  | .l2Sample w v => decide (v.toNat < 2 ^ w)
  | .l2Group w c => decide (c.toNat < 2 ^ w)
  | .padBits w z => decide (z.toNat < 2 ^ w)

/-- A unit is well formed when its width is allowed and its value fits in its width. -/
def Instr.wf (i : Instr) : Bool :=
  i.shape.widthOk && i.fits

end Sys2Proof
end

