-- ==== Sys2Proof/Decode.lean ====
section
/-! DEFINITION. The bits of a unit and the unit of some bits (30_encoding.md R81 to R90), total on any bits, and the encoder.

A unit is decoded in a position: what the position selects is a `UnitShape` (elements have no selecting bits, R80). While
seeking sync the two bytes at the position select it themselves (R90). -/

namespace Sys2Proof

/-- The unsigned integer that bits spell, the first bit most significant (00_scope.md R7). -/
def bitsToNat (bits : List Bool) : Nat :=
  bits.foldl (fun v b => 2 * v + b.toNat) 0

/-- The `w` bits of an unsigned integer, most significant first (00_scope.md R7). -/
def natToBits (w v : Nat) : List Bool :=
  (List.range w).map (fun i => v.testBit (w - 1 - i))

/-- The bits of a byte, bit 7 first (20_memory.md R50). -/
def byteToBits (b : Byte) : List Bool :=
  natToBits 8 b.toNat

/-- Why bits are not a unit of the selected shape. -/
inductive DecodeError where
  /-- The number of bits is not the width of the shape. -/
  | wrongLength
  /-- The width is none the unit table allows (30_encoding.md R90). -/
  | widthNotAllowed
  /-- A header word whose first twelve bits are not all ones (30_encoding.md R81). -/
  | noSyncPattern
deriving DecidableEq, Repr

/-- A sync candidate: the byte `0xFF` followed by a byte whose upper four bits are ones (41_frame_sync.md R120). -/
def isCandidate (b0 b1 : Byte) : Bool :=
  decide (b0 = 0xFF#8) && decide (0xF0#8 ≤ b1)

/-- What the bytes at a byte boundary select while the block seeks sync (30_encoding.md R90): a frame when they begin a sync
candidate, else one skipped byte. `b1` is absent at the end of the input. -/
def seekShape (b0 : Byte) (b1 : Option Byte) : UnitShape :=
  match b1 with
  | none => .skip
  | some b1 => if isCandidate b0 b1 then .header else .skip

/-- Field `[hi:hi-n+1]` of a header word, `lo = hi-n+1` (30_encoding.md R82). -/
def headerField (n lo w : Nat) : BitVec n :=
  BitVec.ofNat n (w >>> lo)

/-- The fields of a header word (30_encoding.md R82). -/
def headerFields (w : Nat) : HdrFields where
  id := headerField 1 19 w
  prot := headerField 1 16 w
  br := headerField 4 12 w
  fs := headerField 2 10 w
  pad := headerField 1 9 w
  priv := headerField 1 8 w
  mode := headerField 2 6 w
  ext := headerField 2 4 w
  tail := headerField 4 0 w

/-- The frame a header word selects by its layer bits 18..17 (30_encoding.md R90); none without the sync pattern. -/
def decodeHeader (w : Nat) : Except DecodeError Instr :=
  if headerField 12 20 w ≠ 0xFFF#12 then .error .noSyncPattern
  else
    let layer := headerField 2 17 w
    let h := headerFields w
    if layer = 3#2 then .ok (.frameL1 h)
    else if layer = 2#2 then .ok (.frameL2 h)
    else if layer = 1#2 then .ok (.frameL3 h)
    else .ok (.frameRsv h)

/-- The unit of a shape whose bits spell `v` (30_encoding.md R86: no field is sign-extended, scaled or shifted). A width outside
the ranges of R90, which a configuration that is not well formed can give `L2_NBAL` or `QCLASS`, is refused (log 26). -/
def decodeValue (sh : UnitShape) (v : Nat) : Except DecodeError Instr :=
  if sh.widthOk = false then .error .widthNotAllowed
  else
    match sh with
    | .skip => .ok (.skip (BitVec.ofNat 8 v))
    | .header => decodeHeader v
    | .crc16 => .ok (.crc16 (BitVec.ofNat 16 v))
    | .l1Alloc => .ok (.l1Alloc (BitVec.ofNat 4 v))
    | .l1Scf => .ok (.l1Scf (BitVec.ofNat 6 v))
    | .l1Sample w => .ok (.l1Sample w (BitVec.ofNat 16 v))
    | .l2Alloc w => .ok (.l2Alloc w (BitVec.ofNat 4 v))
    | .l2Scfsi => .ok (.l2Scfsi (BitVec.ofNat 2 v))
    | .l2Scf => .ok (.l2Scf (BitVec.ofNat 6 v))
    | .l2Sample w => .ok (.l2Sample w (BitVec.ofNat 16 v))
    | .l2Group w => .ok (.l2Group w (BitVec.ofNat 10 v))
    | .padBits w => .ok (.padBits w (BitVec.ofNat 7 v))

/-- The unit that bits are, in a position that selects a shape. -/
def decode (sh : UnitShape) (bits : List Bool) : Except DecodeError Instr :=
  if bits.length ≠ sh.width then .error .wrongLength
  else decodeValue sh (bitsToNat bits)

/-- The unit at the head of some bytes while the block seeks sync, and the bytes after it (30_encoding.md R90). -/
def decodeSeek (bytes : List Byte) : Except DecodeError (Instr × List Byte) :=
  match bytes with
  | [] => .error .wrongLength
  | b :: rest =>
    match seekShape b rest.head? with
    | .header =>
      match decode .header ((bytes.take 4).flatMap byteToBits) with
      | .ok i => .ok (i, bytes.drop 4)
      | .error e => .error e
    | _ => .ok (.skip b, rest)

/-- The 32-bit header word of a frame with layer code `l`: `111111111111illpbbbbffdvmmeetttt` (30_encoding.md R82). -/
def headerWord (l : BitVec 2) (h : HdrFields) : Nat :=
  (0xFFF#12 ++ h.id ++ l ++ h.prot ++ h.br ++ h.fs ++ h.pad ++ h.priv ++ h.mode ++ h.ext ++ h.tail).toNat

/-- The unsigned integer that the bits of a unit spell (30_encoding.md R86). -/
def Instr.payload : Instr → Nat
  | .skip x => x.toNat
  | .frameL1 h => headerWord 3#2 h
  | .frameL2 h => headerWord 2#2 h
  | .frameL3 h => headerWord 1#2 h
  | .frameRsv h => headerWord 0#2 h
  | .crc16 c => c.toNat
  | .l1Alloc a => a.toNat
  | .l1Scf x => x.toNat
  | .l1Sample _ v => v.toNat
  | .l2Alloc _ a => a.toNat
  | .l2Scfsi c => c.toNat
  | .l2Scf x => x.toNat
  | .l2Sample _ v => v.toNat
  | .l2Group _ c => c.toNat
  | .padBits _ z => z.toNat

/-- The bits of a unit, in stream order (30_encoding.md R82, R90). -/
def encode (i : Instr) : List Bool :=
  natToBits i.shape.width i.payload

/-- The bytes of an `nbits`-bit table word as the stream holds them: the most significant byte first (20_memory.md R50),
followed by zero bytes up to four bytes, the longest unit. -/
def tableWordBytes (nbits w : Nat) : List Byte :=
  let n := (nbits + 7) / 8
  (List.range (max n 4)).map (fun k => if k < n then BitVec.ofNat 8 (w >>> (8 * (n - 1 - k))) else 0#8)

/-- The position an `nbits`-bit table word is read in (log 3): 16 bits are read as the `CRC16` that follows a header; any other
width is read while seeking sync. The other elements are selected by position alone (30_encoding.md R80), which a width does
not say. -/
def tableWordIsCrc (nbits : Nat) : Bool :=
  decide (nbits = 16)

/-- The unit the decoder reads from a row's word (log 3). -/
def decodeTableWord (nbits w : Nat) : Option Instr :=
  if tableWordIsCrc nbits then
    (decode .crc16 (((tableWordBytes nbits w).take 2).flatMap byteToBits)).toOption
  else
    (decodeSeek (tableWordBytes nbits w)).toOption.map Prod.fst

end Sys2Proof
end

