-- ==== Sys2Proof/Config.lean ====
section
/-! DEFINITION. The parameters of the model (00_scope.md R6), as the fields of one structure that the state carries (log 30),
and the free values: opaque constants that no proof can see into.

The defaults the spec proposes are `Config.default` in Sys2Proof/Machine/Rom.lean. -/

namespace Sys2Proof

/-- The rounding function `rnd` of a number format (00_scope.md R6, R8; 92_eei_decisions.md D3). -/
inductive Rounding where
  /-- To the nearest number, an exact half to the one with an even significand. -/
  | nearestEven
  /-- To the nearest number, an exact half away from zero. -/
  | nearestAway
  | towardZero
  | upward
  | downward
deriving DecidableEq, Repr

/-- Parameter `NUM` with `rnd`: a binary number format (00_scope.md R6; log 8). Its numbers are `± m × 2^k × 2^-scale` with
`m < 2^precision` and `k ≤ top`: a floating-point format, or with `top = 0` a fixed-point one. -/
structure NumFormat where
  /-- Bits of a significand. -/
  precision : Nat
  /-- The least positive number is `2^-scale`. -/
  scale : Nat
  /-- The largest exponent of a significand above the least one. -/
  top : Nat
  rounding : Rounding
deriving DecidableEq, Repr

/-- A constant of a table as the table prints it: a fraction, rounded to `NUM` where it is used. -/
structure Ratio where
  num : Int
  den : Nat
deriving DecidableEq, Repr

/-- The three layers (10_state.md R15, `H_KIND`). -/
inductive LayerKind where
  | l1
  | l2
  | l3
deriving DecidableEq, Repr

/-- The four channel modes (42_frame_header.md R135). -/
inductive ChannelMode where
  | stereo
  | jointStereo
  | dualChannel
  | singleChannel
deriving DecidableEq, Repr

/-- Parameter `BITRATE[k][0..14]`, kbps (10_state.md R30). -/
structure BitrateTable where
  l1 : Bank Nat 15
  l2 : Bank Nat 15
  l3 : Bank Nat 15
deriving DecidableEq, Repr

/-- One row of parameter `QCLASS` (44_layer2.md R174). -/
structure QuantClass where
  levels : Nat
  bits : Nat
  grouped : Bool
  T : Nat
  C : Ratio
  D : Ratio
deriving DecidableEq, Repr

/-- One condition of the table-set selection (44_layer2.md R171): for these sampling frequencies and a bitrate per channel from
`least` to `most` (without end where `most` is none), the set. -/
structure SetRule where
  frequencies : List Nat
  least : Nat
  most : Option Nat
  set : BitVec 2
deriving DecidableEq, Repr

/-- Parameter `L2_SET_SELECT`: conditions in order, the first that holds selects, else `otherwise` (44_layer2.md R171). -/
structure SetSelect where
  rules : List SetRule
  otherwise : BitVec 2
deriving DecidableEq, Repr

/-- Parameter `PCM_ROUND`: to the nearest integer, and what an exact half goes to (46_pcm.md R220, 93_implementation_defined.md
U15). -/
inductive PcmRound where
  /-- Toward plus infinity, `floor(x + 1/2)`. -/
  | halfUp
  | halfEven
  | halfAwayFromZero
deriving DecidableEq, Repr

/-- The parameters of the model (00_scope.md R6), one field each. `WINDOW` has no default and is the free value
`Config.window`; `NSAMP_W` and `OUT_CAP` are unbounded (R6, log 20). -/
structure Config where
  /-- `NUM`, `rnd`. -/
  num : NumFormat
  /-- `BITRATE`. -/
  bitrate : BitrateTable
  /-- `LAYER_OF[0..3]`; none is "reserved". -/
  layerOf : Bank (Option LayerKind) 4
  /-- `MODE_OF[0..3]`. -/
  modeOf : Bank ChannelMode 4
  /-- `CRC_PRESENT_WHEN`. -/
  crcPresentWhen : BitVec 1
  /-- `BOUND_OF[0..3]`. -/
  boundOf : Bank Nat 4
  /-- `L2_NBAL[set][sb]`. -/
  l2Nbal : Bank (Bank Nat 32) 4
  /-- `L2_QIDX[set][sb][a]`. -/
  l2Qidx : Bank (Bank (Bank (Fin 17) 15) 32) 4
  /-- `QCLASS[0..16]`. -/
  quantClasses : Bank QuantClass 17
  /-- `L2_SET_SELECT`. -/
  setSelect : SetSelect
  /-- `PCM_ROUND`. -/
  pcmRound : PcmRound
  /-- `READ_MAX`. -/
  readMax : Nat
deriving DecidableEq, Repr

/-- The largest number of a format, in units. -/
def NumFormat.largest (f : NumFormat) : Nat := (2 ^ f.precision - 1) * 2 ^ f.top

/-- The format has a significand and holds 32768, which the PCM conversion multiplies by (46_pcm.md R220). -/
def NumFormat.wf (f : NumFormat) : Bool := decide (1 ≤ f.precision) && decide (2 ^ (15 + f.scale) ≤ f.largest)

/-- A class has levels, a threshold and denominators, and a width the unit table allows (44_layer2.md R174, 30_encoding.md
R90). -/
def QuantClass.wf (q : QuantClass) : Bool :=
  decide (0 < q.levels) && decide (0 < q.T) && decide (0 < q.C.den) && decide (0 < q.D.den) &&
    (if q.grouped then UnitShape.l2Group q.bits else UnitShape.l2Sample q.bits).widthOk

/-- A configuration the rules can run on: the format holds the numbers the rules name, a bound is one of the four
(00_scope.md R5), every width is one the unit table allows (30_encoding.md R90), and every width is one `ReadBits` can read
(40_bit_reader.md R111). -/
def Config.wf (c : Config) : Bool :=
  c.num.wf && c.boundOf.cells.all (fun b => [4, 8, 12, 16].contains b) &&
    c.l2Nbal.cells.all (fun row => row.cells.all fun w => (UnitShape.l2Alloc w).widthOk) &&
    c.quantClasses.cells.all QuantClass.wf && decide (16 ≤ c.readMax)

/-- The two arithmetic operations of the sample domain whose result can fall outside the numbers (log 9). -/
inductive NumOp where
  | add
  | mul
deriving DecidableEq, Repr

/-- The parts of a number of any format: a sign, a significand and an exponent, each taken modulo what the format has. -/
structure NumParts where
  negative : Bool
  significand : Nat
  exponent : Nat
deriving DecidableEq, Repr, Inhabited

/-- `WINDOW[0..511]`, the synthesis window ROM: 512 `NUM` values, parameter with no default (45_synthesis.md R205,
93_implementation_defined.md U17). A free number of the format for each index, the same at every read (log 11). -/
opaque Config.window : NumFormat → Fin 512 → NumParts

/-- What distinguishes the non-number that an arithmetic operation without a real result answers: the spec states no result
there. A free value (log 9). -/
opaque Config.nanBits : NumOp → NumVal → NumVal → Nat

/-- `pcm16` of a value that is no number: the spec states no result there. A free value (log 10). -/
opaque Config.pcmOfNaN : NumVal → BitVec 16

end Sys2Proof
end

