-- ==== Sys2Proof/Machine/Num.lean ====
section
/-! DEFINITION. `NUM` arithmetic in the configured format, one rounding per written operation (00_scope.md R6 and R8,
92_eei_decisions.md D3; log 8).

A number is an integer multiple of the least positive number of the format; a value is computed exactly as an integer or a
fraction of integers in that unit and rounded once. -/

namespace Sys2Proof

/-- Neither an infinity nor a non-number. -/
def NumVal.isFinite : NumVal → Bool
  | .finite _ _ => true
  | .infinity _ => false
  | .nan _ => false

/-- A number as an integer multiple of the unit; 0 for what is no number. -/
def NumVal.units : NumVal → Int
  | .finite true m => -(m : Int)
  | .finite false m => m
  | .infinity _ => 0
  | .nan _ => 0

/-- The exponent that leaves `precision` significant bits of a magnitude of `m` units: 0 where it has no more of them. -/
def NumFormat.exponent (f : NumFormat) (m : Nat) : Nat := m.log2 + 1 - f.precision

/-- The numbers of a format. -/
def NumFormat.isNumber (f : NumFormat) : NumVal → Bool
  | .finite _ m => decide (m ≤ f.largest) && decide (m % 2 ^ f.exponent m = 0)
  | .infinity _ => false
  | .nan _ => false

/-- `n / d` as an integer, rounded as a magnitude of a sign. -/
def Rounding.apply (r : Rounding) (negative : Bool) (n d : Nat) : Nat :=
  let q := n / d
  let rest := n % d
  let up : Bool :=
    match r with
    | .nearestEven => decide (d < 2 * rest) || (decide (2 * rest = d) && decide (q % 2 = 1))
    | .nearestAway => decide (d ≤ 2 * rest)
    | .towardZero => false
    | .upward => !negative && decide (rest ≠ 0)
    | .downward => negative && decide (rest ≠ 0)
  if up then q + 1 else q

/-- A magnitude beyond the largest number goes down to it (IEEE 754, log 9). -/
def Rounding.keepsLargest (r : Rounding) (negative : Bool) : Bool :=
  match r with
  | .nearestEven => false
  | .nearestAway => false
  | .towardZero => true
  | .upward => negative
  | .downward => !negative

/-- `rnd`: the value `± n / d` units, rounded to the format (00_scope.md R6, R8). The exponent leaves `precision` significant
bits; beyond the largest number the answer is an infinity or that number (log 9). -/
def NumFormat.round (f : NumFormat) (negative : Bool) (n d : Nat) : NumVal :=
  let k := f.exponent (n / d)
  let m := f.rounding.apply negative n (d * 2 ^ k) * 2 ^ k
  if m ≤ f.largest then .finite negative m
  else if f.rounding.keepsLargest negative then .finite negative f.largest
  else .infinity negative

/-- `x + y` on `NUM` values (00_scope.md R8). A zero sum is negative only when both terms are. -/
def NumFormat.add (f : NumFormat) (x y : NumVal) : NumVal :=
  match x, y with
  | .nan _, _ => .nan (Config.nanBits .add x y)
  | _, .nan _ => .nan (Config.nanBits .add x y)
  | .infinity a, .infinity b => if a = b then x else .nan (Config.nanBits .add x y)
  | .infinity _, .finite _ _ => x
  | .finite _ _, .infinity _ => y
  | .finite a _, .finite b _ =>
    let z := x.units + y.units
    if z = 0 then .finite (a && b) 0 else f.round (decide (z < 0)) z.natAbs 1

/-- `x × y` on `NUM` values (00_scope.md R8). -/
def NumFormat.mul (f : NumFormat) (x y : NumVal) : NumVal :=
  match x, y with
  | .nan _, _ => .nan (Config.nanBits .mul x y)
  | _, .nan _ => .nan (Config.nanBits .mul x y)
  | .infinity a, .infinity b => .infinity (a != b)
  | .infinity a, .finite b m => if m = 0 then .nan (Config.nanBits .mul x y) else .infinity (a != b)
  | .finite a m, .infinity b => if m = 0 then .nan (Config.nanBits .mul x y) else .infinity (a != b)
  | .finite a m, .finite b n => f.round (a != b) (m * n) (2 ^ f.scale)

/-- `a / b` for integers `a` and `b > 0`, as one rounded `NUM` operation (00_scope.md R8). -/
def NumFormat.ofRatio (f : NumFormat) (a : Int) (b : Nat) : NumVal :=
  f.round (decide (a < 0)) (a.natAbs * 2 ^ f.scale) b

/-- An integer as a `NUM` value, rounded once. -/
def NumFormat.ofInt (f : NumFormat) (a : Int) : NumVal := f.ofRatio a 1

/-- A printed constant as a `NUM` value, rounded once (44_layer2.md R174). -/
def Ratio.toNum (r : Ratio) (f : NumFormat) : NumVal := f.ofRatio r.num r.den

/-- The number of a format that its parts name. -/
def NumParts.toNum (x : NumParts) (f : NumFormat) : NumVal :=
  .finite x.negative (x.significand % 2 ^ f.precision * 2 ^ (x.exponent % (f.top + 1)))

/-- `acc <- 0; for k in 0 .. n-1: acc <- acc + g(k) × h(k)`: product rounded, then sum rounded, `k` ascending from zero, no
fused multiply-add (45_synthesis.md R202, R203, R208). -/
def NumFormat.dot (f : NumFormat) (n : Nat) (g h : Nat → NumVal) : NumVal :=
  (List.range n).foldl (fun acc k => f.add acc (f.mul (g k) (h k))) NumVal.zero

/-- The real number `u / d` rounded to the nearest integer, an exact half as `PCM_ROUND` says (46_pcm.md R220; log 19). -/
def PcmRound.apply (r : PcmRound) (u : Int) (d : Nat) : Int :=
  let q := u / d
  let rest := u % d
  if 2 * rest < d then q
  else if d < 2 * rest then q + 1
  else
    match r with
    | .halfUp => q + 1
    | .halfEven => if q % 2 = 0 then q else q + 1
    | .halfAwayFromZero => if u < 0 then q else q + 1

/-- The integer part of the cube root: the bits of the root from `2^b - 1` down, each kept when the cube stays at most `n`. -/
def cubeRootFrom (n : Nat) : Nat → Nat → Nat
  | 0, root => root
  | b + 1, root => cubeRootFrom n b (if (root + 2 ^ b) ^ 3 ≤ n then root + 2 ^ b else root)

/-- `floor(n^(1/3))`. -/
def cubeRoot (n : Nat) : Nat := cubeRootFrom n (n.log2 / 3 + 1) 0

/-- The real number `2^(1 - i/3)` rounded to the format (10_state.md R31). `h` is its whole number of half units. The numbers of
a format and the middles between them are whole half units, so the value rounds as `h` half units when it is exactly that,
else as `h` and a half of them. -/
def NumFormat.scaleFactor (f : NumFormat) (i : Nat) : NumVal :=
  let h := cubeRoot (2 ^ (6 + 3 * f.scale) / 2 ^ i)
  f.round false (if h ^ 3 * 2 ^ i = 2 ^ (6 + 3 * f.scale) then 2 * h else 2 * h + 1) 4

end Sys2Proof
end

