-- ==== Sys2Proof/Machine/Rom.lean ====
section
/-! DEFINITION. The read-only tables of the block (10_state.md R29 to R34): those the spec fixes, those a configuration gives, and
`Config.default`, the parameters of 00_scope.md R6 at the defaults the spec proposes. A read of an entry a table does not have
never happens (the rules test first); it answers 0 here only to be total. -/

namespace Sys2Proof

/-! ## The defaults of the parameters -/

/-- IEEE 754 binary32, round to nearest even (00_scope.md R6, 92_eei_decisions.md D3; log 8). -/
def NumFormat.binary32 : NumFormat := ⟨24, 149, 253, .nearestEven⟩

/-- The default `BITRATE` (10_state.md R30; log 12). -/
def defaultBitrate : BitrateTable where
  l1 := ⟨[0, 32, 64, 96, 128, 160, 192, 224, 256, 288, 320, 352, 384, 416, 448], rfl⟩
  l2 := ⟨[0, 32, 48, 56, 64, 80, 96, 112, 128, 160, 192, 224, 256, 320, 384], rfl⟩
  l3 := ⟨[0, 32, 40, 48, 56, 64, 80, 96, 112, 128, 160, 192, 224, 256, 320], rfl⟩

/-- The default `L2_NBAL` (44_layer2.md R172; log 17). -/
def defaultNbal : Bank (Bank Nat 32) 4 :=
  let large : Bank Nat 32 := Bank.tabulate 32 fun sb => if sb ≤ 10 then 4 else if sb ≤ 22 then 3 else 2
  let small : Bank Nat 32 := Bank.tabulate 32 fun sb => if sb ≤ 1 then 4 else 3
  ⟨[large, large, small, small], rfl⟩

/-- A constant as 44_layer2.md R174 prints it, with eleven decimals. -/
def printed (e11 : Nat) : Ratio := ⟨e11, 10 ^ 11⟩

/-- The default `QCLASS[0..16]` (44_layer2.md R174; log 17). -/
def defaultClasses : Bank QuantClass 17 :=
  ⟨[⟨3, 5, true, 2, printed 133333333333, printed 50000000000⟩,
    ⟨5, 7, true, 4, printed 160000000000, printed 50000000000⟩,
    ⟨7, 3, false, 4, printed 114285714286, printed 25000000000⟩,
    ⟨9, 10, true, 8, printed 177777777777, printed 50000000000⟩,
    ⟨15, 4, false, 8, printed 106666666666, printed 12500000000⟩,
    ⟨31, 5, false, 16, printed 103225806452, printed 6250000000⟩,
    ⟨63, 6, false, 32, printed 101587301587, printed 3125000000⟩,
    ⟨127, 7, false, 64, printed 100787401575, printed 1562500000⟩,
    ⟨255, 8, false, 128, printed 100392156863, printed 781250000⟩,
    ⟨511, 9, false, 256, printed 100195694716, printed 390625000⟩,
    ⟨1023, 10, false, 512, printed 100097751711, printed 195312500⟩,
    ⟨2047, 11, false, 1024, printed 100048851979, printed 97656250⟩,
    ⟨4095, 12, false, 2048, printed 100024420024, printed 48828125⟩,
    ⟨8191, 13, false, 4096, printed 100012208522, printed 24414063⟩,
    ⟨16383, 14, false, 8192, printed 100006103888, printed 12207031⟩,
    ⟨32767, 15, false, 16384, printed 100003051851, printed 6103516⟩,
    ⟨65535, 16, false, 32768, printed 100001525902, printed 3051758⟩], rfl⟩

/-- A row of the default `L2_QIDX` from its printed level counts: a class is the position of its level count in `QCLASS`
(44_layer2.md R173). Entries the row does not have hold class 0 and are never read. -/
def classRow (levels : List Nat) : Bank (Fin 17) 15 :=
  Bank.tabulate 15 fun a => Fin.ofNat 17 (defaultClasses.cells.findIdx fun q => q.levels == levels.getD a 3)

/-- The default `L2_QIDX` (44_layer2.md R173; log 17). -/
def defaultQidx : Bank (Bank (Bank (Fin 17) 15) 32) 4 :=
  let large : Bank (Bank (Fin 17) 15) 32 := Bank.tabulate 32 fun sb =>
    if sb ≤ 2 then classRow [3, 7, 15, 31, 63, 127, 255, 511, 1023, 2047, 4095, 8191, 16383, 32767, 65535]
    else if sb ≤ 10 then classRow [3, 5, 7, 9, 15, 31, 63, 127, 255, 511, 1023, 2047, 4095, 8191, 65535]
    else if sb ≤ 22 then classRow [3, 5, 7, 9, 15, 31, 65535]
    else classRow [3, 5, 65535]
  let small : Bank (Bank (Fin 17) 15) 32 := Bank.tabulate 32 fun sb =>
    if sb ≤ 1 then classRow [3, 5, 9, 15, 31, 63, 127, 255, 511, 1023, 2047, 4095, 8191, 16383, 32767]
    else classRow [3, 5, 9, 15, 31, 63, 127]
  ⟨[large, large, small, small], rfl⟩

/-- The default `L2_SET_SELECT`, the source's conditions in their order (44_layer2.md R171; log 18). -/
def defaultSetSelect : SetSelect where
  rules :=
    [⟨[48000], 0, none, 1⟩, ⟨[44100, 48000, 32000], 96, none, 1⟩,
     ⟨[44100, 48000], 0, some 48, 2⟩, ⟨[32000], 0, some 48, 3⟩]
  otherwise := 0

/-- The parameters at the defaults the spec proposes (00_scope.md R6; logs 8 and 12 to 20). -/
def Config.default : Config where
  num := .binary32
  bitrate := defaultBitrate
  layerOf := ⟨[none, some .l3, some .l2, some .l1], rfl⟩
  modeOf := ⟨[.stereo, .jointStereo, .dualChannel, .singleChannel], rfl⟩
  crcPresentWhen := 0
  boundOf := ⟨[4, 8, 12, 16], rfl⟩
  l2Nbal := defaultNbal
  l2Qidx := defaultQidx
  quantClasses := defaultClasses
  setSelect := defaultSetSelect
  pcmRound := .halfUp
  readMax := 16

/-! ## Reads of the configured tables -/

/-- `LAYER_OF[code]`; none is "reserved" (42_frame_header.md R132). -/
def Config.layerKind (c : Config) (code : BitVec 2) : Option LayerKind := c.layerOf.get code.toFin

/-- `MODE_OF[code]` (42_frame_header.md R135). -/
def Config.channelMode (c : Config) (code : BitVec 2) : ChannelMode := c.modeOf.get code.toFin

/-- `BITRATE[k][idx]`, kbps (10_state.md R30, 42_frame_header.md R134). -/
def Config.bitrateOf (c : Config) (k : LayerKind) (idx : BitVec 4) : Nat :=
  let row :=
    match k with
    | .l1 => c.bitrate.l1
    | .l2 => c.bitrate.l2
    | .l3 => c.bitrate.l3
  row.cells.getD idx.toNat 0

/-- `H_NCH` of a mode code (42_frame_header.md R135). -/
def Config.channelCount (c : Config) (mode : BitVec 2) : Nat := if c.channelMode mode = .singleChannel then 1 else 2

/-- `H_BOUND` of a mode code and its extension (42_frame_header.md R136). -/
def Config.jointBound (c : Config) (mode ext : BitVec 2) : Nat :=
  if c.channelMode mode = .jointStereo then c.boundOf.get ext.toFin else 32

/-- The condition of a table-set rule. -/
def SetRule.holds (r : SetRule) (fs brch : Nat) : Bool :=
  r.frequencies.contains fs && decide (r.least ≤ brch) && (match r.most with | none => true | some m => decide (brch ≤ m))

/-- `L2_SET_SELECT(fs, brch)` (44_layer2.md R171). -/
def Config.selectSet (c : Config) (fs brch : Nat) : BitVec 2 :=
  match c.setSelect.rules.find? (fun r => r.holds fs brch) with
  | some r => r.set
  | none => c.setSelect.otherwise

/-- `L2_NBAL[set][sb]` (44_layer2.md R172). -/
def Config.nbal (c : Config) (set : BitVec 2) (sb : Fin 32) : Nat := (c.l2Nbal.get set.toFin).get sb

/-- `QCLASS[L2_QIDX[set][sb][n - 1]]` for allocation code `n ≠ 0` (44_layer2.md R178). -/
def Config.classOf (c : Config) (set : BitVec 2) (sb : Fin 32) (n : BitVec 4) : QuantClass :=
  c.quantClasses.get (((c.l2Qidx.get set.toFin).get sb).get (Fin.ofNat 15 (n.toNat - 1)))

end Sys2Proof

namespace Sys2Proof.Machine

/-! ## The tables the spec fixes -/

/-- `FS_TABLE[0..2] = {44100, 48000, 32000}` Hz (10_state.md R29). -/
def fsTable (idx : BitVec 2) : Nat := [44100, 48000, 32000].getD idx.toNat 0

/-- `L2_SBLIMIT[0..3] = {27, 30, 8, 12}` (10_state.md R33). -/
def l2SbLimit (set : BitVec 2) : Nat := [27, 30, 8, 12].getD set.toNat 0

/-- `SCF[i]`, `i` in `0..62`, rounded to the format (10_state.md R31). There is no entry 63. -/
def scf (f : NumFormat) (i : BitVec 6) : NumVal := f.scaleFactor i.toNat

/-- The integers `c[0..32]` (45_synthesis.md R204). -/
def nikCosines : List Int :=
  [1000000000, 998795456, 995184727, 989176510, 980785280, 970031253,
   956940336, 941544065, 923879533, 903989293, 881921264, 857728610,
   831469612, 803207531, 773010453, 740951125, 707106781, 671558955,
   634393284, 595699304, 555570233, 514102744, 471396737, 427555093,
   382683432, 336889853, 290284677, 242980180, 195090322, 146730474,
   98017140, 49067674, 0]

/-- `n(i,k)`, the integer nearest to `10^9 × cos((16 + i) × (2k + 1) × π / 64)` (45_synthesis.md R204). -/
def nikInteger (i k : Nat) : Int :=
  let m0 := ((16 + i) * (2 * k + 1)) % 128
  let m := if 64 < m0 then 128 - m0 else m0
  if m ≤ 32 then nikCosines.getD m 0 else -(nikCosines.getD (64 - m) 0)

/-- `NIK[i][k] = rnd(n(i,k) / 10^9)` (45_synthesis.md R204). -/
def nik (f : NumFormat) (i k : Nat) : NumVal := f.ofRatio (nikInteger i k) (10 ^ 9)

/-- `WINDOW[k]`, `k` in `0..511` (45_synthesis.md R205; log 11). -/
def window (f : NumFormat) (k : Nat) : NumVal := (Config.window f (Fin.ofNat 512 k)).toNum f

end Sys2Proof.Machine
end

