-- ==== Sys2Proof/Machine/State.lean ====
section
/-! DEFINITION. Everything the spec gives the machine, as plain data (10_state.md), the reasons a step can stop, and the
state after reset (10_state.md R37, 70_reset_and_hazards.md R280). -/

namespace Sys2Proof.Machine

/-- A byte space of `size` bytes at the addresses `0 .. size-1` (`IN` and `OUT`, 10_state.md R10, R28, R35). An address at or
above `size` does not exist. `cells` lists the bytes that are not zero, addresses strictly rising; an unlisted address below
`size` reads as zero (log 6). -/
structure Memory where
  size : Nat
  cells : List Host.Cell
deriving DecidableEq, Repr

/-- The space with no byte. -/
def Memory.empty : Memory := ⟨0, []⟩

/-- The canonical form: addresses strictly rising and below `size`, and no entry that holds what an unlisted address reads
as. -/
def Memory.wf (m : Memory) : Bool :=
  decide (m.cells.Pairwise (fun x y => x.1 < y.1)) && m.cells.all (fun x => decide (x.1 < m.size) && x.2 != 0#8)

/-- The orchestrator state (10_state.md R13, 47_orchestrator.md R230). -/
inductive Fsm where
  | seekSync
  | header
  | layerDecode
  | synth
  | align
  | done
  | error
deriving DecidableEq, Repr

/-- The exception of a run (60_exceptions.md R250). -/
inductive ErrCode where
  /-- `E_NONE`, code 0. -/
  | none
  /-- `E_MIDFRAME_EOF`, code 1. -/
  | midFrameEof
  /-- `E_INVALID_FIELD`, code 2. -/
  | invalidField
deriving DecidableEq, Repr

/-- A subband-channel: the indices `sb` and `ch` by which the bitstream's position selects the working registers
(10_state.md R35). -/
structure SubCh where
  sb : Fin 32
  ch : Fin 2
deriving DecidableEq, Repr

/-- The position inside a frame: the loop indices of the frame-body formats (30_encoding.md R84, R85; 10_state.md R35) and the
slot counter of `SYNTH` (47_orchestrator.md R237). The model's own field (log 27). -/
inductive Pos where
  /-- In no frame body. -/
  | idle
  /-- Allocation part: the element of this subband-channel is next (channel 0 stands for all in a joint subband). -/
  | alloc (c : SubCh)
  /-- SCFSI part (Layer II). -/
  | scfsi (c : SubCh)
  /-- Scale-factor part: the elements of this subband-channel already read are `got`. -/
  | scf (c : SubCh) (got : List (BitVec 6))
  /-- Sample part: time slot (Layer I) or group (Layer II) `t`, this subband-channel, element `k` of an ungrouped triple. -/
  | sample (t : Fin 12) (c : SubCh) (k : Fin 3)
  /-- `SYNTH`: time slot `t` is next. -/
  | slot (t : Fin 36)
deriving DecidableEq, Repr

/-- The header registers (10_state.md R14) and the resolved header registers (R15). -/
structure HeaderRegs where
  /-- `H_ID`. -/
  id : BitVec 1
  /-- `H_LAYER`. -/
  layer : BitVec 2
  /-- `H_PROT`. -/
  prot : BitVec 1
  /-- `H_BRIDX`. -/
  brIdx : BitVec 4
  /-- `H_FSIDX`. -/
  fsIdx : BitVec 2
  /-- `H_PAD`. -/
  pad : BitVec 1
  /-- `H_PRIV`. -/
  priv : BitVec 1
  /-- `H_MODE`. -/
  mode : BitVec 2
  /-- `H_MODEEXT`. -/
  modeExt : BitVec 2
  /-- `H_KIND`. -/
  kind : LayerKind
  /-- `H_BITRATE`, kbps. -/
  bitrate : Nat
  /-- `H_FS`, Hz. -/
  fs : Nat
  /-- `H_NCH`. -/
  nch : Nat
  /-- `H_BOUND`; 32 is "no bound". -/
  bound : Nat
deriving DecidableEq, Repr

/-- The stream latch (10_state.md R16). -/
structure StreamLatch where
  /-- `S_LATCHED`. -/
  latched : Bool
  /-- `S_FS`, Hz. -/
  fs : Nat
  /-- `S_NCH`. -/
  nch : Nat
deriving DecidableEq, Repr

/-- The per-frame working registers (10_state.md R21 to R26). -/
structure WorkRegs where
  /-- `ALLOC[ch][sb]`. -/
  alloc : Bank (Bank (BitVec 4) 32) 2
  /-- `SCFSI[ch][sb]`. An entry no element of the frame writes keeps what it held (log 31). -/
  scfsi : Bank (Bank (BitVec 2) 32) 2
  /-- `SCFIDX[ch][sb][p]`. An entry no element of the frame writes keeps what it held (log 31). -/
  scfIdx : Bank (Bank (Bank (BitVec 6) 3) 32) 2
  /-- `L2SET`. In a Layer I frame it keeps what it held (log 31). -/
  l2Set : BitVec 2
  /-- `SBLIMIT`. In a Layer I frame it keeps what it held (log 31). -/
  sbLimit : Nat
  /-- `SAMPLE[ch][sb][t]`. -/
  sample : Bank (Bank (Bank NumVal 36) 32) 2
  /-- `SOUT[ch][j]`. After its time slot it keeps what it held (log 32). -/
  sout : Bank (Bank NumVal 32) 2
deriving DecidableEq, Repr

/-- The synthesis state of one channel (10_state.md R27): `V[ch][0..1023]` and `VOFF[ch]`. -/
structure SynthChannel where
  v : Bank NumVal 1024
  voff : BitVec 10
deriving DecidableEq, Repr

/-- Everything the spec gives the machine, the input of the run and the parameters it runs with (10_state.md R10 to R28,
00_scope.md R6). -/
structure State where
  /-- The parameters of 00_scope.md R6, bound by the host before the run (log 30). No step changes them. -/
  cfg : Config
  /-- `IN[0..LEN-1]` and `LEN`, bound by the host for the run (10_state.md R10; log 2). No step changes it. -/
  input : Memory
  /-- `BP`. -/
  bp : Nat
  /-- The sync scan has taken the byte behind the cursor: it needed that byte's bits to reject a marker byte, and has consumed none
  of them (40_bit_reader.md R113; log 28). The part of `PULLED` that `BP` does not say (10_state.md R12). -/
  ahead : Bool
  /-- `FSM`. -/
  fsm : Fsm
  /-- The position inside a frame (log 27). -/
  pos : Pos
  /-- `H_*`. -/
  hdr : HeaderRegs
  /-- `S_LATCHED`, `S_FS`, `S_NCH`. -/
  latch : StreamLatch
  /-- `FRAMES`. -/
  frames : Nat
  /-- `NSAMP`. -/
  nsamp : Nat
  /-- `ERR_CODE`. -/
  errCode : ErrCode
  /-- `ALLOC`, `SCFSI`, `SCFIDX`, `L2SET`, `SBLIMIT`, `SAMPLE`, `SOUT`. -/
  work : WorkRegs
  /-- `V[ch]`, `VOFF[ch]`. -/
  synth : Bank SynthChannel 2
  /-- `OUT`. -/
  out : Memory
deriving DecidableEq, Repr

/-- Why the model stops with a fault. The machine's own exceptions are next states, not faults (60_exceptions.md R255). -/
inductive Fault where
  /-- Raised by `step` when the control state selects no unit although `FSM` expects one, or a unit of a width that the unit table
  does not allow, which a configuration that is not well formed can give `L2_NBAL` or `QCLASS`: no run of a well-formed
  configuration reaches either (logs 26 and 30). Safe: the model stops where the spec has no state and no unit. -/
  | noUnitSelected
deriving DecidableEq, Repr

/-- Why the model gives an instruction no meaning. -/
inductive Refusal where
  /-- Raised by an arm of `exec` for an instruction without a meaning. Safe. No arm raises it. -/
  | notModelled (mnemonic : String)
  /-- Raised by every meaning when it is handed a unit that the machine's position does not select (30_encoding.md R80: a unit
  exists only where the position selects it; log 26). Safe: `step` never hands one over. -/
  | unitNotSelected
  /-- Raised by `ReadBits(n)` with `n > READ_MAX` and by every meaning whose unit would request it: the spec gives such a request
  no meaning and says to refuse it (40_bit_reader.md R111, 93_implementation_defined.md U12; log 20). Safe: no unit of a
  well-formed configuration requests it. -/
  | readTooWide
deriving DecidableEq, Repr

/-- Header registers before the first frame: the spec gives them no value (10_state.md R37; log 4). -/
def HeaderRegs.reset : HeaderRegs where
  id := 0
  layer := 0
  prot := 0
  brIdx := 0
  fsIdx := 0
  pad := 0
  priv := 0
  mode := 0
  modeExt := 0
  kind := .l1
  bitrate := 0
  fs := 0
  nch := 0
  bound := 0

/-- Working registers before the first frame: the spec gives them no value (10_state.md R37; log 4). -/
def WorkRegs.reset : WorkRegs where
  alloc := Bank.fill 2 (Bank.fill 32 0)
  scfsi := Bank.fill 2 (Bank.fill 32 0)
  scfIdx := Bank.fill 2 (Bank.fill 32 (Bank.fill 3 0))
  l2Set := 0
  sbLimit := 0
  sample := Bank.fill 2 (Bank.fill 32 (Bank.fill 36 NumVal.zero))
  sout := Bank.fill 2 (Bank.fill 32 NumVal.zero)

/-- A channel's synthesis state after reset: all-zero history, cursor 0 (10_state.md R37). -/
def SynthChannel.reset : SynthChannel where
  v := Bank.fill 1024 NumVal.zero
  voff := 0

/-- The machine right after reset, no input bound yet and the parameters at the spec's defaults (10_state.md R37,
70_reset_and_hazards.md R280; logs 2, 4 and 30). -/
def State.reset : State where
  cfg := Config.default
  input := Memory.empty
  bp := 0
  ahead := false
  fsm := .seekSync
  pos := .idle
  hdr := HeaderRegs.reset
  latch := ⟨false, 0, 0⟩
  frames := 0
  nsamp := 0
  errCode := .none
  work := WorkRegs.reset
  synth := Bank.fill 2 SynthChannel.reset
  out := Memory.empty

end Sys2Proof.Machine
end

