-- ==== Sys2Proof/Machine/Ops.lean ====
section
/-! DEFINITION. The operations every unit is built from: bytes and bits of the input, the append to the output, the bit
cursor, the working registers, the synthesis history, and taking an exception. -/

namespace Sys2Proof.Machine

/-- `MemRead(IN, p)`: the byte at an address, none where the space has none (00_scope.md R8). -/
def Memory.read (m : Memory) (p : Nat) : Option Byte :=
  if p < m.size then some ((m.cells.lookup p).getD 0#8) else none

/-- `Append(OUT, byte)`: the byte is written at the index `size`, growing the space by one (00_scope.md R8). -/
def Memory.append (m : Memory) (b : Byte) : Memory where
  size := m.size + 1
  cells := if b = 0#8 then m.cells else m.cells ++ [(m.size, b)]

/-- Several appends in order. -/
def Memory.appendAll (m : Memory) (bytes : List Byte) : Memory :=
  bytes.foldl Memory.append m

/-- The space that holds a byte string from address 0. -/
def Memory.ofBytes (bytes : List Byte) : Memory :=
  Memory.empty.appendAll bytes

/-- Stream bit `b` of the input: bit `7 - (b mod 8)` of byte `b div 8` (00_scope.md R7). Past the end of the input it answers
0; the bit is then never used, because the read it belongs to raises (log 7). -/
def Memory.bit (m : Memory) (b : Nat) : Bool :=
  ((m.read (b / 8)).getD 0#8).getLsbD (7 - b % 8)

/-- The `n` bits from stream bit `b`, in stream order. -/
def Memory.bits (m : Memory) (b n : Nat) : List Bool :=
  (List.range n).map (fun i => m.bit (b + i))

/-- `8 × LEN`, the number of input bits. -/
def State.endBit (s : State) : Nat := 8 * s.input.size

/-- `p = BP div 8`, the byte the cursor is in (41_frame_sync.md R120). -/
def State.byteIndex (s : State) : Nat := s.bp / 8

/-- `PULLED`, the number of bytes taken from the source so far: every byte of which a bit was consumed, `ceil(BP / 8)`, and inside
the sync scan the byte behind the cursor once the scan has needed it (10_state.md R12, 40_bit_reader.md R113; log 28). -/
def State.pulled (s : State) : Nat := (s.bp + 7) / 8 + s.ahead.toNat

/-- `CUR`, the byte at index `(BP - 1) div 8` once a bit of it has been consumed (10_state.md R12; log 28). -/
def State.cur (s : State) : Option Byte := if s.bp = 0 then none else s.input.read ((s.bp - 1) / 8)

/-- `BP <- BP + n`. -/
def State.advance (s : State) (n : Nat) : State := { s with bp := s.bp + n }

/-- `FSM <- f`, with the position inside a frame that goes with it. -/
def State.goto (s : State) (f : Fsm) (p : Pos) : State := { s with fsm := f, pos := p }

/-- `raise E`: trap entry. `ERR_CODE` gets the code of the exception and `FSM` becomes `ERROR`, and nothing else changes: there
is no handler, nothing is saved, and no rule is applied afterwards (60_exceptions.md R255, R257; log 21). -/
def State.raise (s : State) (e : ErrCode) : State := { s with errCode := e, fsm := .error }

/-- The number an exception code is read as (60_exceptions.md R250). -/
def ErrCode.code : ErrCode → Nat
  | .none => 0
  | .midFrameEof => 1
  | .invalidField => 2

/-- `ReadBits(n)` would overrun the input (40_bit_reader.md R112). -/
def State.overruns (s : State) (n : Nat) : Bool := decide (s.endBit < s.bp + n)

/-- `ReadBits(n)`: the value and the state behind it, or the exception it raises, or the refusal of a width above `READ_MAX`
(40_bit_reader.md R110, R111, R112; 93_implementation_defined.md U12; log 20). -/
def State.readBits (s : State) (n : Nat) : Host.Outcome (Nat × State) ErrCode Refusal :=
  if s.cfg.readMax < n then .refused .readTooWide
  else if s.overruns n then .fault .midFrameEof
  else .next (bitsToNat (s.input.bits s.bp n), s.advance n)

/-- The part of its `ReadBits` requests that a meaning does for its own unit of `n` bits, whose fields it already has: raise
`MidFrameEOF` when the unit overruns the input, else advance `BP` and go on (40_bit_reader.md R110, R112). The ten requests of a
header, and one request, are equivalent (42_frame_header.md R130). The width of a request is tested in `whenSelected`. -/
def State.consume (s : State) (n : Nat) (k : State → State) : State :=
  if s.overruns n then s.raise .midFrameEof else k (s.advance n)

/-- The channels `0 .. S_NCH-1` (10_state.md section 5; log 29). -/
def State.channels (s : State) : List (Fin 2) :=
  if s.latch.nch = 2 then [0, 1] else [0]

/-- `ALLOC[ch][sb]`. -/
def WorkRegs.allocAt (w : WorkRegs) (ch : Fin 2) (sb : Fin 32) : BitVec 4 := (w.alloc.get ch).get sb

/-- `ALLOC[ch][sb] <- a`. -/
def WorkRegs.setAlloc (w : WorkRegs) (ch : Fin 2) (sb : Fin 32) (a : BitVec 4) : WorkRegs :=
  { w with alloc := w.alloc.set ch ((w.alloc.get ch).set sb a) }

/-- `SCFSI[ch][sb]`. -/
def WorkRegs.scfsiAt (w : WorkRegs) (ch : Fin 2) (sb : Fin 32) : BitVec 2 := (w.scfsi.get ch).get sb

/-- `SCFSI[ch][sb] <- c`. -/
def WorkRegs.setScfsi (w : WorkRegs) (ch : Fin 2) (sb : Fin 32) (c : BitVec 2) : WorkRegs :=
  { w with scfsi := w.scfsi.set ch ((w.scfsi.get ch).set sb c) }

/-- `SCFIDX[ch][sb][p]`. -/
def WorkRegs.scfIdxAt (w : WorkRegs) (ch : Fin 2) (sb : Fin 32) (p : Fin 3) : BitVec 6 := ((w.scfIdx.get ch).get sb).get p

/-- `SCFIDX[ch][sb][p] <- x`. -/
def WorkRegs.setScfIdx (w : WorkRegs) (ch : Fin 2) (sb : Fin 32) (p : Fin 3) (x : BitVec 6) : WorkRegs :=
  { w with scfIdx := w.scfIdx.set ch ((w.scfIdx.get ch).set sb (((w.scfIdx.get ch).get sb).set p x)) }

/-- `SAMPLE[ch][sb][t]`. -/
def WorkRegs.sampleAt (w : WorkRegs) (ch : Fin 2) (sb : Fin 32) (t : Fin 36) : NumVal := ((w.sample.get ch).get sb).get t

/-- `SAMPLE[ch][sb][t] <- x`. -/
def WorkRegs.setSample (w : WorkRegs) (ch : Fin 2) (sb : Fin 32) (t : Fin 36) (x : NumVal) : WorkRegs :=
  { w with sample := w.sample.set ch ((w.sample.get ch).set sb (((w.sample.get ch).get sb).set t x)) }

/-- `MemRead(V, ch, a)`, `a` modulo 1024 (10_state.md R35). -/
def SynthChannel.read (c : SynthChannel) (a : Nat) : NumVal := c.v.get (Fin.ofNat 1024 a)

/-- `MemWrite(V, ch, a, x)`, `a` modulo 1024 (10_state.md R35). -/
def SynthChannel.write (c : SynthChannel) (a : Nat) (x : NumVal) : SynthChannel :=
  { c with v := c.v.set (Fin.ofNat 1024 a) x }

/-- A change of the working registers. -/
def State.withWork (s : State) (w : WorkRegs) : State := { s with work := w }

/-- The widest `ReadBits` request of a unit: none for a skipped byte, which the synchronizer takes whole, and the four bits of
the widest field for a header (20_memory.md R56, 42_frame_header.md R130). -/
def readWidth (sh : UnitShape) : Nat :=
  match sh with
  | .skip => 0
  | .header => 4
  | _ => sh.width

/-- The run of a unit's meaning: its effect `t` when the position selects that unit; a refusal when it does not (30_encoding.md
R80; log 26), or when the unit requests more than `READ_MAX` bits at once (40_bit_reader.md R111; log 20). -/
def whenSelected (selected : Option UnitShape) (readMax : Nat) (sh : UnitShape) (t : State) :
    Host.Outcome State Fault Refusal :=
  if selected = some sh then
    if readMax < readWidth sh then .refused .readTooWide else .next t
  else .refused .unitNotSelected

end Sys2Proof.Machine
end

