-- ==== Sys2Proof/Machine/Operands.lean ====
section
/-! DEFINITION. The operand forms: which subband-channel, time slot and width a position gives an element, and which unit the
block's position selects (30_encoding.md R80, R84, R85, R90). -/

namespace Sys2Proof.Machine

/-- The place of a subband-channel in the order of every part: subbands outside, channels inside (30_encoding.md R84, R85). -/
def SubCh.index (c : SubCh) : Nat := 2 * c.sb.val + c.ch.val

/-- The subband-channel at a place of the order. -/
def SubCh.ofIndex (n : Nat) : SubCh := ⟨Fin.ofNat 32 (n / 2), Fin.ofNat 2 n⟩

/-- All 64 subband-channels in the order of every part. -/
def SubCh.order : List SubCh := (List.range 64).map SubCh.ofIndex

/-- The first subband-channel from place `n` on that satisfies `p`. -/
def seekFrom (p : SubCh → Bool) (n : Nat) : Option SubCh := (SubCh.order.drop n).find? p

/-- `sb ≥ bound`: a joint subband, coded once for all channels (42_frame_header.md R136). -/
def State.joint (s : State) (sb : Fin 32) : Bool := decide (s.hdr.bound ≤ sb.val)

/-- The number of subbands the parts of this frame's body run over: 32 in Layer I (43_layer1.md R151), `SBLIMIT` in Layer II
(44_layer2.md R175). -/
def State.subbandLimit (s : State) : Nat :=
  match s.hdr.kind with
  | .l1 => 32
  | .l2 => s.work.sbLimit
  | .l3 => 0

/-- A subband-channel the loops of the body reach: `sb` below the limit and `ch` in `0..nch-1`. -/
def State.inBody (s : State) (c : SubCh) : Bool :=
  decide (c.sb.val < s.subbandLimit) && s.channels.contains c.ch

/-- In a joint subband one element stands for all channels; channel 0 has it (30_encoding.md R84, R85). -/
def State.hasOwnElement (s : State) (c : SubCh) : Bool := !s.joint c.sb || decide (c.ch = 0)

/-- A subband-channel with an element in the allocation part (43_layer1.md R151, 44_layer2.md R175). -/
def State.hasAlloc (s : State) (c : SubCh) : Bool := s.inBody c && s.hasOwnElement c

/-- A coded subband-channel, `ALLOC[ch][sb] ≠ 0`: it has elements in the SCFSI and scale-factor parts, in a joint subband for
each channel (43_layer1.md R152, 44_layer2.md R176, R177). -/
def State.coded (s : State) (c : SubCh) : Bool := s.inBody c && decide (s.work.allocAt c.ch c.sb ≠ 0)

/-- A subband-channel with elements in the sample part (43_layer1.md R154, 44_layer2.md R180). -/
def State.hasSample (s : State) (c : SubCh) : Bool := s.coded c && s.hasOwnElement c

/-- The channels an element of a subband-channel speaks for: its own, or all of them in a joint subband. -/
def State.targets (s : State) (c : SubCh) : List (Fin 2) := if s.joint c.sb then s.channels else [c.ch]

/-- The quantization class of a coded subband-channel: `QCLASS[L2_QIDX[L2SET][sb][ALLOC - 1]]` (44_layer2.md R178). -/
def State.classOf (s : State) (c : SubCh) : QuantClass :=
  s.cfg.classOf s.work.l2Set c.sb (s.work.allocAt c.ch c.sb)

/-- The number of `L2.SCF` elements for a SCFSI code (30_encoding.md R89, 44_layer2.md R177). -/
def scfsiCount (code : BitVec 2) : Nat :=
  if code = 0#2 then 3 else if code = 2#2 then 1 else 2

/-- `(p0, p1, p2)` from the `L2.SCF` elements read (30_encoding.md R89, 44_layer2.md R177). -/
def scfsiPattern (code : BitVec 2) (got : List (BitVec 6)) : BitVec 6 × BitVec 6 × BitVec 6 :=
  let a := got.getD 0 0
  let b := got.getD 1 0
  let c := got.getD 2 0
  if code = 0#2 then (a, b, c) else if code = 1#2 then (a, a, b) else if code = 2#2 then (a, a, a) else (a, b, b)

/-- The three sample codes of a grouped element (30_encoding.md R88, 44_layer2.md R180). -/
def demux (levels c : Nat) : Nat × Nat × Nat :=
  (c % levels, c / levels % levels, c / levels / levels % levels)

/-- The width of `PADBITS` (40_bit_reader.md R114). -/
def State.padWidth (s : State) : Nat := (8 - s.bp % 8) % 8

/-- The unit at the cursor while the block seeks sync; none at the end of the input (41_frame_sync.md R120, log 5). -/
def State.seekSelected (s : State) : Option UnitShape :=
  match s.input.read s.byteIndex with
  | none => none
  | some b => some (seekShape b (s.input.read (s.byteIndex + 1)))

/-- The element a position of a frame body selects (30_encoding.md R84, R85). -/
def State.bodySelected (s : State) : Option UnitShape :=
  match s.hdr.kind, s.pos with
  | .l1, .alloc _ => some .l1Alloc
  | .l1, .scf _ _ => some .l1Scf
  | .l1, .sample _ c _ => some (.l1Sample ((s.work.allocAt c.ch c.sb).toNat + 1))
  | .l2, .alloc c => some (.l2Alloc (s.cfg.nbal s.work.l2Set c.sb))
  | .l2, .scfsi _ => some .l2Scfsi
  | .l2, .scf _ _ => some .l2Scf
  | .l2, .sample _ c _ =>
    if (s.classOf c).grouped then some (.l2Group (s.classOf c).bits) else some (.l2Sample (s.classOf c).bits)
  | _, _ => none

/-- The unit the block's position selects (30_encoding.md R80: a decoder tells the levels apart by `FSM`). In `HEADER` the
header itself is behind the cursor, so the unit is the `CRC16` (log 1). -/
def State.selected (s : State) : Option UnitShape :=
  match s.fsm with
  | .seekSync => s.seekSelected
  | .header => some .crc16
  | .layerDecode => s.bodySelected
  | .align => some (.padBits s.padWidth)
  | .synth => none
  | .done => none
  | .error => none

end Sys2Proof.Machine
end

