-- ==== Sys2Proof/Machine/Align.lean ====
section
/-! DEFINITION. `PADBITS` and the completion of a frame (40_bit_reader.md R114, 47_orchestrator.md R238). -/

namespace Sys2Proof.Machine

/-- `FRAMES <- FRAMES + 1; FSM <- SEEK_SYNC` (47_orchestrator.md R238). -/
def State.completeFrame (s : State) : State :=
  { s with frames := s.frames + 1, fsm := .seekSync, pos := .idle }

/-- `PADBITS`: the rest of a partial byte is dropped, then the frame is counted (40_bit_reader.md R114, 47_orchestrator.md
R238). -/
def execPadBits (w : Nat) (_z : BitVec 7) (s : State) : Host.Outcome State Fault Refusal :=
  whenSelected s.selected s.cfg.readMax (.padBits w) (s.consume w State.completeFrame)

end Sys2Proof.Machine
end

