-- ==== Sys2Proof/Machine/Position.lean ====
section
/-! DEFINITION. The order of the elements of a frame body: where the position goes after an element, past every element the
body does not have (30_encoding.md R84, R85; 43_layer1.md R150; 44_layer2.md R170; log 27). -/

namespace Sys2Proof.Machine

/-- The body has been read: `FSM <- SYNTH`, time slot 0 next (43_layer1.md R150, 44_layer2.md R170, 47_orchestrator.md R237). -/
def State.enterSynth (s : State) : State := s.goto .synth (.slot 0)

/-- The first element of time slot or group `t`, from its first subband-channel on. -/
def State.startSamples (s : State) (t : Fin 12) : State :=
  match seekFrom s.hasSample 0 with
  | some c => s.goto .layerDecode (.sample t c 0)
  | none => s.enterSynth

/-- The sample part from place `n` of time slot or group `t` on: then the next `t`, and after the last one the end of the
body. -/
def State.seekSample (s : State) (t : Fin 12) (n : Nat) : State :=
  match seekFrom s.hasSample n with
  | some c => s.goto .layerDecode (.sample t c 0)
  | none => if h : t.val + 1 < 12 then s.startSamples ⟨t.val + 1, h⟩ else s.enterSynth

/-- The scale-factor part from place `n` on, then the sample part. -/
def State.seekScf (s : State) (n : Nat) : State :=
  match seekFrom s.coded n with
  | some c => s.goto .layerDecode (.scf c [])
  | none => s.startSamples 0

/-- The SCFSI part from place `n` on, then the scale-factor part (Layer II). -/
def State.seekScfsi (s : State) (n : Nat) : State :=
  match seekFrom s.coded n with
  | some c => s.goto .layerDecode (.scfsi c)
  | none => s.seekScf 0

/-- The allocation part from place `n` on, then the scale factors in Layer I, the SCFSI in Layer II. -/
def State.seekAlloc (s : State) (n : Nat) : State :=
  match seekFrom s.hasAlloc n with
  | some c => s.goto .layerDecode (.alloc c)
  | none => if s.hdr.kind = .l2 then s.seekScfsi 0 else s.seekScf 0

/-- `L2SET` and `SBLIMIT` from the latched stream parameters and this frame's bitrate (44_layer2.md R171). -/
def State.selectL2Set (s : State) : State :=
  let set := s.cfg.selectSet s.latch.fs (s.hdr.bitrate / s.latch.nch)
  s.withWork { s.work with l2Set := set, sbLimit := l2SbLimit set }

/-- Every `SAMPLE` and every `ALLOC` starts the frame at 0 (10_state.md R25, 43_layer1.md R150, 44_layer2.md R170; log 24).
`SCFSI` and `SCFIDX` keep what they hold: for a subband-channel that is not coded R22 and R23 of 10_state.md give them no value
and no rule reads them (log 31). -/
def State.clearBody (s : State) : State :=
  s.withWork { s.work with
    alloc := Bank.fill 2 (Bank.fill 32 0)
    sample := Bank.fill 2 (Bank.fill 32 (Bank.fill 36 NumVal.zero)) }

/-- `FSM <- LAYER_DECODE`: the start of a frame body (42_frame_header.md R140, 43_layer1.md R150, 44_layer2.md R170). In a Layer I
body `L2SET` and `SBLIMIT` keep what they hold: 10_state.md R24 makes them Layer II only, R150 gives them no value, and no rule of
such a body reads them (log 31). -/
def State.startBody (s : State) : State :=
  if s.hdr.kind = .l2 then s.clearBody.selectL2Set.seekAlloc 0 else s.clearBody.seekAlloc 0

/-- The effect of an element of the allocation part. -/
def State.atAlloc (s : State) (k : SubCh → State) : State :=
  match s.pos with
  | .alloc c => k c
  | _ => s

/-- The effect of an element of the SCFSI part. -/
def State.atScfsi (s : State) (k : SubCh → State) : State :=
  match s.pos with
  | .scfsi c => k c
  | _ => s

/-- The effect of an element of the scale-factor part. -/
def State.atScf (s : State) (k : SubCh → List (BitVec 6) → State) : State :=
  match s.pos with
  | .scf c got => k c got
  | _ => s

/-- The effect of an element of the sample part. -/
def State.atSample (s : State) (k : Fin 12 → SubCh → Fin 3 → State) : State :=
  match s.pos with
  | .sample t c j => k t c j
  | _ => s

/-- `for ch: ALLOC[ch][sb] <- a`, over the channels the element speaks for (43_layer1.md R151, 44_layer2.md R175). -/
def State.storeAlloc (s : State) (c : SubCh) (a : BitVec 4) : State :=
  s.withWork ((s.targets c).foldl (fun w ch => w.setAlloc ch c.sb a) s.work)

/-- `for ch: SAMPLE[ch][sb][t] <- f × SCF[SCFIDX[ch][sb][p]]`, over the channels the element speaks for, each with its own
scale factor (43_layer1.md R154, 44_layer2.md R180). -/
def State.storeSample (s : State) (c : SubCh) (t : Fin 36) (p : Fin 3) (f : NumVal) : State :=
  s.withWork ((s.targets c).foldl (fun w ch => w.setSample ch c.sb t (s.cfg.num.mul f (scf s.cfg.num (w.scfIdxAt ch c.sb p)))) s.work)

end Sys2Proof.Machine
end

