-- ==== Sys2Proof/Machine/Sync.lean ====
section
/-! DEFINITION. The frame synchronizer (41_frame_sync.md): `SKIP` and the acceptance of a sync candidate. -/

namespace Sys2Proof.Machine

/-- The scan step at a byte needs the byte behind it: the byte is a marker byte and the input has one behind it
(41_frame_sync.md R120, 40_bit_reader.md R113). -/
def State.testsSuccessor (s : State) : Bool :=
  decide (s.input.read s.byteIndex = some 0xFF#8) && decide (s.byteIndex + 1 < s.input.size)

/-- `p <- p + 1`: one byte consumed with no effect on any state but the bit reader's: `BP`, and whether the byte behind it has
been taken (41_frame_sync.md R120, R121; 40_bit_reader.md R113; log 28). -/
def State.skipByte (s : State) : State := { s with bp := 8 * (s.byteIndex + 1), ahead := s.testsSuccessor }

/-- A candidate is accepted: `BP <- 8 × (p + 1) + 4`, `FSM <- HEADER` (41_frame_sync.md R120). A bit of the byte behind the marker
byte is consumed, so `BP` counts it (40_bit_reader.md R113). -/
def State.acceptCandidate (s : State) : State :=
  { s with bp := 8 * (s.byteIndex + 1) + 4, ahead := false, fsm := .header }

/-- `SKIP` (41_frame_sync.md R121). -/
def execSkip (_x : Byte) (s : State) : Host.Outcome State Fault Refusal :=
  whenSelected s.selected s.cfg.readMax .skip s.skipByte

end Sys2Proof.Machine
end

