-- ==== Sys2Proof/Machine/Header.lean ====
section
/-! DEFINITION. The frame header decoder (42_frame_header.md): the four frame units and `CRC16`. -/

namespace Sys2Proof.Machine

/-- The nine field registers, written in field order; the four trailing bits are dropped (42_frame_header.md R130). -/
def State.loadHeader (s : State) (layer : BitVec 2) (h : HdrFields) : State :=
  { s with hdr := { s.hdr with
      id := h.id, layer := layer, prot := h.prot, brIdx := h.br, fsIdx := h.fs, pad := h.pad, priv := h.priv,
      mode := h.mode, modeExt := h.ext } }

/-- The resolutions of rules R132 to R136 (42_frame_header.md). -/
def State.resolveHeader (s : State) (kind : LayerKind) : State :=
  { s with hdr := { s.hdr with
      kind := kind
      bitrate := s.cfg.bitrateOf kind s.hdr.brIdx
      fs := fsTable s.hdr.fsIdx
      nch := s.cfg.channelCount s.hdr.mode
      bound := s.cfg.jointBound s.hdr.mode s.hdr.modeExt } }

/-- The stream latch: taken once, at the first frame of a supported layer (42_frame_header.md R138). -/
def State.latchStream (s : State) : State :=
  if s.hdr.kind ≠ .l3 ∧ s.latch.latched = false then
    { s with latch := ⟨true, s.hdr.fs, s.hdr.nch⟩ }
  else s

/-- The end of the header stage: the latch, then the dispatch: the Layer III stub goes back to seeking sync, a supported layer
to its body (42_frame_header.md R138, R140; 47_orchestrator.md R236). -/
def State.finishHeader (s : State) : State :=
  if s.hdr.kind = .l3 then s.latchStream.goto .seekSync .idle else s.latchStream.startBody

/-- After the twenty header bits: the three validity tests in order, the resolutions, then either the wait for the `CRC16`
element or the end of the stage (42_frame_header.md R131, R137, R139). -/
def State.headerStage (s : State) (layer : BitVec 2) (h : HdrFields) : State :=
  let s := s.loadHeader layer h
  match s.cfg.layerKind layer with
  | none => s.raise .invalidField
  | some kind =>
    if h.br = 15#4 then s.raise .invalidField
    else if h.fs = 3#2 then s.raise .invalidField
    else
      let s := s.resolveHeader kind
      if h.prot = s.cfg.crcPresentWhen then s else s.finishHeader

/-- A frame unit: the candidate's twelve bits, then the twenty header bits, which the input must hold (42_frame_header.md
R130). -/
def State.frame (s : State) (layer : BitVec 2) (h : HdrFields) : State :=
  s.acceptCandidate.consume 20 (fun s => s.headerStage layer h)

/-- `FRAME.L1`, layer code 3: Layer I by the default `LAYER_OF` (42_frame_header.md R130 to R140, 43_layer1.md R150). -/
def execFrameL1 (h : HdrFields) (s : State) : Host.Outcome State Fault Refusal :=
  whenSelected s.selected s.cfg.readMax .header (s.frame 3#2 h)

/-- `FRAME.L2`, layer code 2: Layer II by the default `LAYER_OF` (42_frame_header.md R130 to R140, 44_layer2.md R170). -/
def execFrameL2 (h : HdrFields) (s : State) : Host.Outcome State Fault Refusal :=
  whenSelected s.selected s.cfg.readMax .header (s.frame 2#2 h)

/-- `FRAME.L3`, layer code 1: by the default `LAYER_OF` Layer III, the unsupported-layer stub (47_orchestrator.md R236). -/
def execFrameL3 (h : HdrFields) (s : State) : Host.Outcome State Fault Refusal :=
  whenSelected s.selected s.cfg.readMax .header (s.frame 1#2 h)

/-- `FRAME.RSV`, layer code 0: by the default `LAYER_OF` reserved, raises `InvalidField(LAYER)` (42_frame_header.md R139). -/
def execFrameRsv (h : HdrFields) (s : State) : Host.Outcome State Fault Refusal :=
  whenSelected s.selected s.cfg.readMax .header (s.frame 0#2 h)

/-- `CRC16`: sixteen bits consumed and discarded without verification, then the rest of the header stage (42_frame_header.md
R137, R131). -/
def execCrc16 (_c : BitVec 16) (s : State) : Host.Outcome State Fault Refusal :=
  whenSelected s.selected s.cfg.readMax .crc16 (s.consume 16 State.finishHeader)

end Sys2Proof.Machine
end

