-- ==== Sys2Proof/Machine/Layer1.lean ====
section
/-! DEFINITION. The Layer I subband decoder (43_layer1.md): `L1.ALLOC`, `L1.SCF`, `L1.SAMPLE`. -/

namespace Sys2Proof.Machine

/-- `deq1(v, n)`, each written operation rounded once (43_layer1.md R153). -/
def deq1 (f : NumFormat) (v n : Nat) : NumVal :=
  let sign := if v.testBit n then NumVal.zero else f.ofInt (-1)
  let x := f.add sign (f.ofRatio (v % 2 ^ n : Nat) (2 ^ n))
  let x := f.add x (f.ofRatio 1 (2 ^ n))
  f.mul x (f.ofRatio (2 ^ (n + 1) : Nat) (2 ^ (n + 1) - 1))

/-- `L1.ALLOC` (43_layer1.md R151). -/
def execL1Alloc (a : BitVec 4) (s : State) : Host.Outcome State Fault Refusal :=
  whenSelected s.selected s.cfg.readMax .l1Alloc
    (s.consume 4 fun s => s.atAlloc fun c => (s.storeAlloc c a).seekAlloc (c.index + 1))

/-- `L1.SCF`: index 63 has no table entry (43_layer1.md R152). -/
def execL1Scf (x : BitVec 6) (s : State) : Host.Outcome State Fault Refusal :=
  whenSelected s.selected s.cfg.readMax .l1Scf
    (s.consume 6 fun s => s.atScf fun c _ =>
      if x = 63#6 then s.raise .invalidField
      else (s.withWork (s.work.setScfIdx c.ch c.sb 0 x)).seekScf (c.index + 1))

/-- `L1.SAMPLE` (43_layer1.md R154). -/
def execL1Sample (w : Nat) (v : BitVec 16) (s : State) : Host.Outcome State Fault Refusal :=
  whenSelected s.selected s.cfg.readMax (.l1Sample w)
    (s.consume w fun s => s.atSample fun t c _ =>
      (s.storeSample c (t.castLE (by decide)) 0 (deq1 s.cfg.num v.toNat (s.work.allocAt c.ch c.sb).toNat)).seekSample t (c.index + 1))

end Sys2Proof.Machine
end

