-- ==== Sys2Proof/Machine/Layer2.lean ====
section
/-! DEFINITION. The Layer II subband decoder (44_layer2.md): `L2.ALLOC`, `L2.SCFSI`, `L2.SCF`, `L2.SAMPLE`, `L2.GROUP`. -/

namespace Sys2Proof.Machine

/-- `deq2(v, q)`, each written operation rounded once (44_layer2.md R179). -/
def deq2 (f : NumFormat) (v : Nat) (q : QuantClass) : NumVal :=
  let sign := if q.T ≤ v then NumVal.zero else f.ofInt (-1)
  let x := f.add sign (f.ofRatio (v % q.T : Nat) q.T)
  let x := f.add x (q.D.toNum f)
  f.mul x (q.C.toNum f)

/-- Time slot `3 × gr + k` (44_layer2.md R180). -/
def groupSlot (gr : Fin 12) (k : Fin 3) : Fin 36 := ⟨3 * gr.val + k.val, by omega⟩

/-- Scale-factor slot `gr div 4` (44_layer2.md R180). -/
def scaleSlot (gr : Fin 12) : Fin 3 := ⟨gr.val / 4, by omega⟩

/-- `L2.ALLOC` (44_layer2.md R175). -/
def execL2Alloc (w : Nat) (a : BitVec 4) (s : State) : Host.Outcome State Fault Refusal :=
  whenSelected s.selected s.cfg.readMax (.l2Alloc w)
    (s.consume w fun s => s.atAlloc fun c => (s.storeAlloc c a).seekAlloc (c.index + 1))

/-- `L2.SCFSI` (44_layer2.md R176). -/
def execL2Scfsi (x : BitVec 2) (s : State) : Host.Outcome State Fault Refusal :=
  whenSelected s.selected s.cfg.readMax .l2Scfsi
    (s.consume 2 fun s => s.atScfsi fun c =>
      (s.withWork (s.work.setScfsi c.ch c.sb x)).seekScfsi (c.index + 1))

/-- `SCFIDX[ch][sb][0..2] <- (p0, p1, p2)` (44_layer2.md R177). -/
def State.storeScfIdx (s : State) (c : SubCh) (p : BitVec 6 × BitVec 6 × BitVec 6) : State :=
  s.withWork (((s.work.setScfIdx c.ch c.sb 0 p.1).setScfIdx c.ch c.sb 1 p.2.1).setScfIdx c.ch c.sb 2 p.2.2)

/-- `L2.SCF`: after the last element of a subband-channel, the test against 63 and then the three indices (44_layer2.md R177;
log 22). -/
def execL2Scf (x : BitVec 6) (s : State) : Host.Outcome State Fault Refusal :=
  whenSelected s.selected s.cfg.readMax .l2Scf
    (s.consume 6 fun s => s.atScf fun c got =>
      let code := s.work.scfsiAt c.ch c.sb
      let got := got ++ [x]
      if got.length < scfsiCount code then s.goto .layerDecode (.scf c got)
      else if got.contains 63#6 then s.raise .invalidField
      else (s.storeScfIdx c (scfsiPattern code got)).seekScf (c.index + 1))

/-- `L2.SAMPLE`: one code of an ungrouped triple (44_layer2.md R180; log 23). -/
def execL2Sample (w : Nat) (v : BitVec 16) (s : State) : Host.Outcome State Fault Refusal :=
  whenSelected s.selected s.cfg.readMax (.l2Sample w)
    (s.consume w fun s => s.atSample fun gr c k =>
      let s' := s.storeSample c (groupSlot gr k) (scaleSlot gr) (deq2 s.cfg.num v.toNat (s.classOf c))
      if h : k.val + 1 < 3 then s'.goto .layerDecode (.sample gr c ⟨k.val + 1, h⟩)
      else s'.seekSample gr (c.index + 1))

/-- `L2.GROUP`: one code for three samples (44_layer2.md R180). -/
def execL2Group (w : Nat) (x : BitVec 10) (s : State) : Host.Outcome State Fault Refusal :=
  whenSelected s.selected s.cfg.readMax (.l2Group w)
    (s.consume w fun s => s.atSample fun gr c _ =>
      let q := s.classOf c
      let v := demux q.levels x.toNat
      let p := scaleSlot gr
      (((s.storeSample c (groupSlot gr 0) p (deq2 s.cfg.num v.1 q)).storeSample c (groupSlot gr 1) p (deq2 s.cfg.num v.2.1 q)).storeSample c
        (groupSlot gr 2) p (deq2 s.cfg.num v.2.2 q)).seekSample gr (c.index + 1))

end Sys2Proof.Machine
end

