-- ==== Sys2Proof/Machine/Dispatch.lean ====
section
/-! DEFINITION. The meaning of every unit, one arm a constructor. -/

namespace Sys2Proof.Machine

def exec (i : Instr) (s : State) : Host.Outcome State Fault Refusal :=
  match i with
  | .skip x => Sys2Proof.Machine.execSkip x s
  | .frameL1 h => Sys2Proof.Machine.execFrameL1 h s
  | .frameL2 h => Sys2Proof.Machine.execFrameL2 h s
  | .frameL3 h => Sys2Proof.Machine.execFrameL3 h s
  | .frameRsv h => Sys2Proof.Machine.execFrameRsv h s
  | .crc16 c => Sys2Proof.Machine.execCrc16 c s
  | .l1Alloc a => Sys2Proof.Machine.execL1Alloc a s
  | .l1Scf x => Sys2Proof.Machine.execL1Scf x s
  | .l1Sample w v => Sys2Proof.Machine.execL1Sample w v s
  | .l2Alloc w a => Sys2Proof.Machine.execL2Alloc w a s
  | .l2Scfsi c => Sys2Proof.Machine.execL2Scfsi c s
  | .l2Scf x => Sys2Proof.Machine.execL2Scf x s
  | .l2Sample w v => Sys2Proof.Machine.execL2Sample w v s
  | .l2Group w c => Sys2Proof.Machine.execL2Group w c s
  | .padBits w z => Sys2Proof.Machine.execPadBits w z s

end Sys2Proof.Machine
end

