-- ==== Sys2Proof/Machine/Fetch.lean ====
section
/-! DEFINITION. Fetching the unit the position selects, and placing a table word where the next step fetches. -/

namespace Sys2Proof.Machine

/-- Where the bits of a unit begin: while seeking sync, at the byte of the cursor (41_frame_sync.md R120); inside a frame, at
the cursor. -/
def State.fetchBit (s : State) : Nat := if s.fsm = .seekSync then 8 * s.byteIndex else s.bp

/-- The unit at the cursor: what the position selects, decoded from the bits there; none where the position selects nothing, or a
configured width that the unit table does not have (log 26). Bits past the end of the input are 0 here
and never used: the unit's own meaning raises (log 7). -/
def State.fetch (s : State) : Option Instr :=
  match s.selected with
  | none => none
  | some sh => (decode sh (s.input.bits s.fetchBit sh.width)).toOption

/-- The state in which the next step fetches an `nbits`-bit table word: the word's bytes are the input, and the position is the
one the width is read in (log 3). -/
def State.loadTableWord (s : State) (nbits w : Nat) : State :=
  { s with
    input := Memory.ofBytes (tableWordBytes nbits w)
    bp := 0
    fsm := if tableWordIsCrc nbits then .header else .seekSync
    pos := .idle }

end Sys2Proof.Machine
end

