-- ==== Sys2Proof/Machine/Flags.lean ====
section
/-! DEFINITION. The one-bit conditions of the block (10_state.md R20: there are no condition codes) and the status port
(47_orchestrator.md R242). -/

namespace Sys2Proof.Machine

/-- Flag `S_LATCHED`: stream parameters taken (10_state.md R20). -/
def State.flagLatched (s : State) : Bool := s.latch.latched

/-- Flag `FRAMES ≠ 0`: a result exists (10_state.md R20). -/
def State.flagHasFrames (s : State) : Bool := decide (s.frames ≠ 0)

/-- Flag `FSM = DONE`, status `done` (10_state.md R20, 47_orchestrator.md R242). -/
def State.flagDone (s : State) : Bool := decide (s.fsm = .done)

/-- Flag `FSM = ERROR`, status `error` (10_state.md R20, 47_orchestrator.md R242). -/
def State.flagError (s : State) : Bool := decide (s.fsm = .error)

/-- Status `busy`: `FSM` is not terminal (47_orchestrator.md R242). -/
def State.flagBusy (s : State) : Bool := !s.flagDone && !s.flagError

/-- Status `ERR_CODE` (47_orchestrator.md R242, 60_exceptions.md R250). -/
def State.statusErrCode (s : State) : Nat := s.errCode.code

end Sys2Proof.Machine
end

