-- ==== Sys2Proof/Machine/Pcm.lean ====
section
/-! DEFINITION. The PCM formatter (46_pcm.md R220 to R222). -/

namespace Sys2Proof.Machine

/-- `clamp(q, -32768, 32767)` (00_scope.md R8). -/
def clamp16 (q : Int) : Int := if q < -32768 then -32768 else if 32767 < q then 32767 else q

/-- `pcm16(x)`: `PCM_ROUND(x × 32768)` clamped (46_pcm.md R220). An infinity saturates; what is no number gives a free value
(log 10). -/
def pcm16 (c : Config) (x : NumVal) : Int :=
  match c.num.mul x (c.num.ofInt 32768) with
  | .finite negative m => clamp16 (c.pcmRound.apply (NumVal.finite negative m).units (2 ^ c.num.scale))
  | .infinity negative => if negative then -32768 else 32767
  | .nan _ => (Config.pcmOfNaN x).toInt

/-- `tc16(q)` as two bytes, low byte first (46_pcm.md R221, 20_memory.md R51). -/
def pcmBytes (q : Int) : List Byte :=
  let w := BitVec.ofInt 16 q
  [w.extractLsb' 0 8, w.extractLsb' 8 8]

/-- The bytes of one time slot: positions in order, channels interleaved (46_pcm.md R221). -/
def State.slotBytes (s : State) : List Byte :=
  (List.range 32).flatMap fun j => s.channels.flatMap fun ch => pcmBytes (pcm16 s.cfg ((s.work.sout.get ch).get (Fin.ofNat 32 j)))

/-- Emission of one time slot and its sample count: `NSAMP <- NSAMP + 32` (46_pcm.md R221, R222). -/
def State.emitSlot (s : State) : State :=
  { s with out := s.out.appendAll s.slotBytes, nsamp := s.nsamp + 32 }

end Sys2Proof.Machine
end

