-- ==== Sys2Proof/Machine/Synthesis.lean ====
section
/-! DEFINITION. The polyphase synthesis filter bank (45_synthesis.md R200 to R209). The number format and the window are
arguments of the operations; the machine runs them on the configured format and the ROM `window`. -/

namespace Sys2Proof.Machine

/-- Cursor step: `VOFF <- (VOFF - 64) mod 1024` (45_synthesis.md R201). -/
def SynthChannel.cursorStep (c : SynthChannel) : SynthChannel := { c with voff := c.voff - 64#10 }

/-- Matrixing: `V[(VOFF + i) mod 1024] <- sum over k of NIK[i][k] × x[k]` for `i = 0 .. 63` (45_synthesis.md R202). -/
def SynthChannel.matrixing (c : SynthChannel) (f : NumFormat) (x : Nat → NumVal) : SynthChannel :=
  (List.range 64).foldl (fun c i => c.write (c.voff.toNat + i) (f.dot 32 (nik f i) x)) c

/-- The history address of term `i` of output `j` (45_synthesis.md R203). -/
def windowAddress (voff j i : Nat) : Nat := voff + j + 32 * i + (i + 1) / 2 * 64

/-- Windowing: `SOUT[j] <- sum over i of WINDOW[j + 32 i] × V[...]` for `j = 0 .. 31` (45_synthesis.md R203). -/
def SynthChannel.windowing (c : SynthChannel) (f : NumFormat) (win : Nat → NumVal) : Bank NumVal 32 :=
  Bank.tabulate 32 fun j =>
    f.dot 16 (fun i => win (j + 32 * i)) (fun i => c.read (windowAddress c.voff.toNat j i))

/-- The synthesis of time slot `t` on one channel (45_synthesis.md R200). `SOUT` is read in the slot that writes it and keeps its
value after, that of a channel the stream does not have too (log 32). -/
def State.synthChannel (win : Nat → NumVal) (t : Fin 36) (s : State) (ch : Fin 2) : State :=
  let c := (s.synth.get ch).cursorStep.matrixing s.cfg.num (fun k => s.work.sampleAt ch (Fin.ofNat 32 k) t)
  { s with
    synth := s.synth.set ch c
    work := { s.work with sout := s.work.sout.set ch (c.windowing s.cfg.num win) } }

/-- The synthesis of time slot `t` on channels `0 .. S_NCH-1` (45_synthesis.md R200). -/
def State.synthChannels (win : Nat → NumVal) (s : State) (t : Fin 36) : State :=
  s.channels.foldl (State.synthChannel win t) s

end Sys2Proof.Machine
end

