-- ==== Sys2Proof/Machine/Orchestrator.lean ====
section
/-! DEFINITION. The decode orchestrator (47_orchestrator.md): the stages that no bits encode, the start of a run and the
result record. -/

namespace Sys2Proof.Machine

/-- Clean end of the run: `BP <- 8 × LEN`, `FSM <- DONE` (41_frame_sync.md R120, 47_orchestrator.md R231). -/
def State.endRun (s : State) : State := { s with bp := s.endBit, ahead := false, fsm := .done }

/-- `NSLOT`, the time slots of the frame (47_orchestrator.md R237). -/
def State.slotCount (s : State) : Nat := if s.hdr.kind = .l2 then 36 else 12

/-- `SYNTH_SLOT(t)` (45_synthesis.md R200). -/
def State.synthSlot (win : Nat → NumVal) (s : State) (t : Fin 36) : State := (s.synthChannels win t).emitSlot

/-- After time slot `t`: the next slot, or `FSM <- ALIGN` after the last (47_orchestrator.md R237). -/
def State.nextSlot (s : State) (t : Fin 36) : State :=
  if h : t.val + 1 < 36 then
    if t.val + 1 < s.slotCount then s.goto .synth (.slot ⟨t.val + 1, h⟩) else s.goto .align .idle
  else s.goto .align .idle

/-- One step of `SYNTH` (47_orchestrator.md R237). -/
def State.synthStage (s : State) : Host.Outcome State Fault Refusal :=
  match s.pos with
  | .slot t => .next ((s.synthSlot (window s.cfg.num) t).nextSlot t)
  | _ => .fault .noUnitSelected

/-- The stages without a unit: none where the block consumes a unit. `DONE` and `ERROR` are terminal: all state is held
(47_orchestrator.md R230, 60_exceptions.md R264; log 25). -/
def State.stage (s : State) : Option (Host.Outcome State Fault Refusal) :=
  match s.fsm with
  | .seekSync => if s.byteIndex < s.input.size then none else some (.next s.endRun)
  | .header => none
  | .layerDecode => none
  | .synth => some s.synthStage
  | .align => none
  | .done => some (.next s)
  | .error => some (.next s)

/-- Reset, applied in any state: nothing survives but the ROMs and the parameters, the input of the abandoned run no more than its
result and its exception code (70_reset_and_hazards.md R280, R281; log 25). -/
def State.applyReset (s : State) : State := { State.reset with cfg := s.cfg }

/-- `START` on an instance in any state: reset, then a new input is bound (47_orchestrator.md R232, 70_reset_and_hazards.md
R282). -/
def State.restart (s : State) (input : List Byte) : State := { s.applyReset with input := Memory.ofBytes input }

/-- `START`: a run begins from the reset state with the host's parameters and input bound (47_orchestrator.md R232; logs 2 and
30). -/
def State.startWith (c : Config) (input : List Byte) : State :=
  { State.reset with cfg := c, input := Memory.ofBytes input }

/-- `START` with the parameters at the spec's defaults. -/
def State.start (input : List Byte) : State := State.startWith Config.default input

/-- The result record (47_orchestrator.md R240). -/
structure ResultRecord where
  pcm : Memory
  frequency : Nat
  stereo : Bool
  samples : Nat
deriving DecidableEq, Repr

/-- What the host may read of a run (20_memory.md R62, 47_orchestrator.md R241). -/
inductive RunOutcome where
  | busy
  | absent
  | present (r : ResultRecord)
  | error (code : Nat)
deriving DecidableEq, Repr

/-- `RESULT`: nothing while the run is in progress, the record or its absence in `DONE`, the code alone in `ERROR`
(47_orchestrator.md R240, R241). -/
def State.result (s : State) : RunOutcome :=
  if s.flagError then .error s.statusErrCode
  else if s.flagDone then
    if s.frames = 0 then .absent
    else .present ⟨s.out, s.latch.fs, decide (s.latch.nch = 2), s.nsamp⟩
  else .busy

end Sys2Proof.Machine
end

