-- ==== Sys2Proof/Machine/Step.lean ====
section
/-! DEFINITION. One step: a stage that no bits encode, or the unit at the cursor (92_eei_decisions.md D1; log 1). -/

namespace Sys2Proof.Machine

/-- One step of the block. Where a unit is due and there is none it faults: a control state that no run has, or a configured width
that the unit table does not have (log 26). -/
def step (s : State) : Host.Outcome State Fault Refusal :=
  match s.stage with
  | some o => o
  | none =>
    match s.fetch with
    | some i => exec i s
    | none => .fault .noUnitSelected

/-- The state whose very next step runs the unit of a table word (log 3). -/
def State.withFetchWord (s : State) (nbits w : Nat) : State := s.loadTableWord nbits w

end Sys2Proof.Machine
end

