-- ==== Sys2Proof/Safety.lean ====
section
/-! DEFINITION. What counts as a consistent state and a safe run, and the relations between states that claims use. -/

namespace Sys2Proof.Machine

/-- Two byte spaces have the same size and every address of one reads as in the other. -/
def SameBytes (m m' : Memory) : Prop :=
  m'.size = m.size ∧ ∀ a, m'.read a = m.read a

/-- A channel count of the block: one or two (10_state.md R15, R16). -/
def IsChannelCount (n : Nat) : Prop := n = 1 ∨ n = 2

/-- A sampling frequency of the block (10_state.md R15, R29). -/
def IsSamplingFrequency (hz : Nat) : Prop := hz = 44100 ∨ hz = 48000 ∨ hz = 32000

/-- A bound of the block; 32 is "no bound" (10_state.md R15). -/
def IsBound (b : Nat) : Prop := b = 4 ∨ b = 8 ∨ b = 12 ∨ b = 16 ∨ b = 32

/-- The resolved header registers hold values of their sets (10_state.md R15). -/
def HeaderRegs.Resolved (h : HeaderRegs) : Prop :=
  IsSamplingFrequency h.fs ∧ IsChannelCount h.nch ∧ IsBound h.bound

/-- A position of `LAYER_DECODE` is at an element the frame body has (30_encoding.md R84, R85). -/
def State.PositionInBody (s : State) : Prop :=
  match s.pos with
  | .alloc c => s.hasAlloc c = true
  | .scfsi c => s.hdr.kind = .l2 ∧ s.coded c = true
  | .scf c got =>
    s.coded c = true ∧
      (if s.hdr.kind = .l2 then got.length < scfsiCount (s.work.scfsiAt c.ch c.sb) else got = [])
  | .sample _ c k =>
    s.hasSample c = true ∧ (s.hdr.kind = .l2 ∧ (s.classOf c).grouped = false ∨ k = 0)
  | .idle => False
  | .slot _ => False

/-- The parts of a frame body in their order: allocation, SCFSI, scale factors, then the time slots or groups of the sample part
(30_encoding.md R84, R85). -/
def Pos.part : Pos → Nat
  | .alloc _ => 0
  | .scfsi _ => 1
  | .scf _ _ => 2
  | .sample t _ _ => 3 + t.val
  | .slot _ => 15
  | .idle => 15

/-- The place of a position inside its part: subbands outside, channels inside (30_encoding.md R84, R85). -/
def Pos.place : Pos → Nat
  | .alloc c => 2 * c.sb.val + c.ch.val
  | .scfsi c => 2 * c.sb.val + c.ch.val
  | .scf c _ => 2 * c.sb.val + c.ch.val
  | .sample _ c _ => 2 * c.sb.val + c.ch.val
  | .slot _ => 0
  | .idle => 0

/-- Which element of its subband-channel a position is at. -/
def Pos.element : Pos → Nat
  | .scf _ got => got.length
  | .sample _ _ k => k.val
  | .alloc _ => 0
  | .scfsi _ => 0
  | .slot _ => 0
  | .idle => 0

/-- The order of the elements of a frame body in the bitstream (30_encoding.md R84, R85). -/
def Pos.Before (p q : Pos) : Prop :=
  p.part < q.part ∨
    p.part = q.part ∧ (p.place < q.place ∨ p.place = q.place ∧ p.element < q.element)

/-- A frame of a supported layer is being decoded. -/
def State.InFrame (s : State) : Prop :=
  s.latch.latched = true ∧ s.hdr.kind ≠ .l3 ∧ IsBound s.hdr.bound ∧
    (s.hdr.kind = .l2 → s.work.sbLimit = l2SbLimit s.work.l2Set)

/-- What every state of a run satisfies. -/
structure Consistent (s : State) : Prop where
  /-- The parameters are ones the rules can run on (log 30). -/
  configWf : s.cfg.wf = true
  /-- The byte spaces are in canonical form. -/
  inputWf : s.input.wf = true
  outWf : s.out.wf = true
  /-- `BP` never passes the end of the input (10_state.md R11). -/
  cursorInside : s.bp ≤ s.endBit
  /-- The cursor is at a byte boundary while seeking sync and after the header (10_state.md R11, 42_frame_header.md R130). -/
  aligned : s.fsm = .seekSync ∨ s.fsm = .header → s.bp % 8 = 0
  /-- The scan is a byte ahead only while seeking sync, of a byte the input has (40_bit_reader.md R113; log 28). -/
  aheadInScan : s.ahead = true → s.fsm = .seekSync ∧ s.byteIndex < s.input.size
  /-- `VOFF` is a multiple of 64 (10_state.md R27). -/
  voffMultiple : ∀ ch, (s.synth.get ch).voff.toNat % 64 = 0
  /-- `len(OUT) = 2 × S_NCH × NSAMP` (10_state.md R28). -/
  outLength : s.out.size = 2 * s.latch.nch * s.nsamp
  /-- The latched values are of their sets (10_state.md R16). -/
  latchedValues : s.latch.latched = true → IsSamplingFrequency s.latch.fs ∧ IsChannelCount s.latch.nch
  /-- Nothing is decoded before the latch is set (42_frame_header.md R138). -/
  unlatched : s.latch.latched = false → s.nsamp = 0 ∧ s.frames = 0
  /-- `ERR_CODE` is `E_NONE` exactly until an exception is raised (10_state.md R19). -/
  errCodeIff : s.errCode = .none ↔ s.fsm ≠ .error
  /-- The header stage has resolved the header before it waits for the `CRC16`. -/
  headerResolved : s.fsm = .header → s.hdr.Resolved
  /-- The position of `LAYER_DECODE` is at an element of the body. -/
  inBody : s.fsm = .layerDecode → s.InFrame ∧ s.PositionInBody
  /-- `SYNTH` counts the slots of a frame (47_orchestrator.md R237), each of 32 samples (46_pcm.md R222). -/
  inSynth : s.fsm = .synth →
    s.InFrame ∧ ∃ t : Fin 36, s.pos = .slot t ∧ t.val < s.slotCount ∧ 384 * s.frames + 32 * t.val ≤ s.nsamp
  /-- `ALIGN` ends a frame of a supported layer, whose samples are counted. -/
  inAlign : s.fsm = .align → s.InFrame ∧ 384 * (s.frames + 1) ≤ s.nsamp
  /-- Every completed frame contributed at least 384 samples per channel (46_pcm.md R222). -/
  framesCounted : 384 * s.frames ≤ s.nsamp

/-- The run has ended (47_orchestrator.md R230: `DONE` and `ERROR` are terminal). -/
def State.Terminal (s : State) : Prop := s.fsm = .done ∨ s.fsm = .error

/-- How far a state is from the end of the run inside the bits already consumed. -/
def State.stageRank (s : State) : Nat :=
  match s.fsm with
  | .done => 0
  | .error => 0
  | .seekSync => 1
  | .align => 2
  | .synth =>
    match s.pos with
    | .slot t => 3 + (s.slotCount - t.val)
    | _ => 3
  | .layerDecode => 40
  | .header => 41

/-- A measure that every step of a run that has not ended decreases (47_orchestrator.md R233: every run ends). -/
def State.remaining (s : State) : Nat := 48 * (s.endBit - s.bp) + s.stageRank

/-- The transitions of `FSM` that one step makes: those of the table of 47_orchestrator.md R230, where the step of a frame unit
makes the transition into `HEADER` and the one out of it together unless a `CRC16` follows (log 1), and the end of a frame
body may follow its last element. -/
def fsmMayGo : Fsm → Fsm → Bool
  | .seekSync, t => t != .synth && t != .align
  | .header, t => t == .error || t == .seekSync || t == .layerDecode
  | .layerDecode, t => t == .layerDecode || t == .synth || t == .error
  | .synth, t => t == .synth || t == .align
  | .align, t => t == .seekSync
  | .done, t => t == .done
  | .error, t => t == .error

/-- `s'` is `s` with `g` more bytes in front of the input: the same bytes `g` places later, the cursor `8 × g` bits later, and
nothing else different but whether the scan has taken the byte behind the cursor, which no rule reads (41_frame_sync.md R123;
log 28). -/
def ShiftedBy (g : Nat) (s s' : State) : Prop :=
  s'.input.size = g + s.input.size ∧ (∀ p, s'.input.read (g + p) = s.input.read p) ∧
    s'.bp = 8 * g + s.bp ∧ { s' with input := s.input, bp := s.bp, ahead := s.ahead } = s

/-- Everything that outlives a frame but the cursor and the control state: the parameters, the input, the stream latch, the counters, the
exception code, the synthesis state and the output (10_state.md R36). -/
def SameRunState (s t : State) : Prop :=
  t.cfg = s.cfg ∧ SameBytes s.input t.input ∧ SameBytes s.out t.out ∧ t.latch = s.latch ∧ t.frames = s.frames ∧ t.nsamp = s.nsamp ∧
    t.errCode = s.errCode ∧ t.synth = s.synth

/-- The cursor is at a sync candidate: the marker byte, then a byte whose upper four bits are ones (41_frame_sync.md R120). -/
def State.AtCandidate (s : State) : Prop :=
  s.fsm = .seekSync ∧ s.input.read s.byteIndex = some 0xFF#8 ∧
    ∃ b, s.input.read (s.byteIndex + 1) = some b ∧ 0xF0#8 ≤ b

/-- The header registers that rules R130 and R132 to R136 of 42_frame_header.md give a header of layer code `layer`, whose layer is
`kind`. -/
def resolvedRegs (c : Config) (layer : BitVec 2) (kind : LayerKind) (h : HdrFields) : HeaderRegs where
  id := h.id
  layer := layer
  prot := h.prot
  brIdx := h.br
  fsIdx := h.fs
  pad := h.pad
  priv := h.priv
  mode := h.mode
  modeExt := h.ext
  kind := kind
  bitrate := c.bitrateOf kind h.br
  fs := fsTable h.fs
  nch := if c.channelMode h.mode = .singleChannel then 1 else 2
  bound := if c.channelMode h.mode = .jointStereo then c.boundOf.get h.ext.toFin else 32

/-- What the header stage leaves of the run's state: all of it, the stream latch aside. -/
def SameButLatch (s t : State) : Prop :=
  t.cfg = s.cfg ∧ SameBytes s.input t.input ∧ SameBytes s.out t.out ∧ t.frames = s.frames ∧ t.nsamp = s.nsamp ∧
    t.errCode = s.errCode ∧ t.synth = s.synth

/-- The dispatch of a supported frame from `s` to `t`: the latch of 42_frame_header.md R138 and the start of the body of
43_layer1.md R150 or 44_layer2.md R170 and R171. That `ALLOC` and `SAMPLE` are cleared beyond the layer's time slots and the
latched channels is log 24; that `SCFSI`, `SCFIDX` and `SOUT`, and in a Layer I body `L2SET` and `SBLIMIT`, keep what they held is
logs 31 and 32. -/
def EntersBody (s t : State) : Prop :=
  t.fsm = .layerDecode ∧ t.pos = .alloc ⟨0, 0⟩ ∧
    t.latch = (if s.latch.latched then s.latch else ⟨true, t.hdr.fs, t.hdr.nch⟩) ∧
    (∀ ch sb, t.work.allocAt ch sb = 0) ∧ (∀ ch sb k, t.work.sampleAt ch sb k = NumVal.zero) ∧
    t.work.scfsi = s.work.scfsi ∧ t.work.scfIdx = s.work.scfIdx ∧ t.work.sout = s.work.sout ∧
    (t.hdr.kind = .l1 → t.work.l2Set = s.work.l2Set ∧ t.work.sbLimit = s.work.sbLimit) ∧
    (t.hdr.kind = .l2 →
      t.work.l2Set = s.cfg.selectSet t.latch.fs (t.hdr.bitrate / t.latch.nch) ∧ t.work.sbLimit = l2SbLimit t.work.l2Set)

/-- The header stage of a supported frame with valid fields went from `s` to `t`: the header registers, the cursor behind the 32
bits, and either the wait for the `CRC16` or the latch and the start of the body (42_frame_header.md R130 to R140). -/
def EntersFrame (layer : BitVec 2) (kind : LayerKind) (h : HdrFields) (s t : State) : Prop :=
  t.bp = 8 * s.byteIndex + 32 ∧ t.ahead = false ∧ t.hdr = resolvedRegs s.cfg layer kind h ∧ SameButLatch s t ∧
    (h.prot = s.cfg.crcPresentWhen → t.fsm = .header ∧ t.latch = s.latch ∧ t.work = s.work) ∧
    (h.prot ≠ s.cfg.crcPresentWhen → EntersBody s t)

/-- The header stage of a Layer III frame with valid fields went from `s` to `t`: the stub of 47_orchestrator.md R236. -/
def EntersStub (layer : BitVec 2) (h : HdrFields) (s t : State) : Prop :=
  t.bp = 8 * s.byteIndex + 32 ∧ t.ahead = false ∧ t.hdr = resolvedRegs s.cfg layer .l3 h ∧ SameRunState s t ∧ t.work = s.work ∧
    (h.prot = s.cfg.crcPresentWhen → t.fsm = .header) ∧ (h.prot ≠ s.cfg.crcPresentWhen → t.fsm = .seekSync)

/-- The header stage raised `InvalidField` on the way from `s` to `t`: the field registers are written, nothing is resolved,
latched, counted, decoded or produced (42_frame_header.md R130, R139; log 21). -/
def FaultsInHeader (layer : BitVec 2) (h : HdrFields) (s t : State) : Prop :=
  t.fsm = .error ∧ t.errCode = .invalidField ∧ t.bp = 8 * s.byteIndex + 32 ∧ t.ahead = false ∧
    t.hdr = { s.hdr with
      id := h.id, layer := layer, prot := h.prot, brIdx := h.br, fsIdx := h.fs, pad := h.pad, priv := h.priv,
      mode := h.mode, modeExt := h.ext } ∧ t.latch = s.latch ∧ t.frames = s.frames ∧ t.nsamp = s.nsamp ∧
    t.synth = s.synth ∧ t.work = s.work ∧ t.cfg = s.cfg ∧ SameBytes s.input t.input ∧ SameBytes s.out t.out

/-- What a frame unit with a valid bitrate and frequency does, for every `LAYER_OF` (42_frame_header.md R132; log 13). -/
def FrameOutcome (layer : BitVec 2) (h : HdrFields) (s t : State) : Prop :=
  match s.cfg.layerKind layer with
  | none => FaultsInHeader layer h s t
  | some .l3 => EntersStub layer h s t
  | some .l1 => EntersFrame layer .l1 h s t
  | some .l2 => EntersFrame layer .l2 h s t

/-- The channels an element at `c` writes: its own in an independent subband, all `0 .. S_NCH-1` in a joint one (43_layer1.md
R151, R154; 44_layer2.md R175, R180). -/
def State.Writes (s : State) (c : SubCh) (ch : Fin 2) : Prop :=
  if s.hdr.bound ≤ c.sb.val then ch.val < s.latch.nch else ch = c.ch

/-- An element of `n` bits went from `s` to `t` inside a frame body: the cursor moved past it, the run's state and the header
registers are as before, and the body goes on or is at its end. -/
def ElementRead (n : Nat) (s t : State) : Prop :=
  t.bp = s.bp + n ∧ t.ahead = s.ahead ∧ t.hdr = s.hdr ∧ SameRunState s t ∧ (t.fsm = .layerDecode ∨ t.fsm = .synth)

/-- The working registers but `ALLOC` are as before. -/
def SameButAlloc (w w' : WorkRegs) : Prop :=
  w'.scfsi = w.scfsi ∧ w'.scfIdx = w.scfIdx ∧ w'.l2Set = w.l2Set ∧ w'.sbLimit = w.sbLimit ∧ w'.sample = w.sample ∧
    w'.sout = w.sout

/-- The working registers but `SCFSI` are as before. -/
def SameButScfsi (w w' : WorkRegs) : Prop :=
  w'.alloc = w.alloc ∧ w'.scfIdx = w.scfIdx ∧ w'.l2Set = w.l2Set ∧ w'.sbLimit = w.sbLimit ∧ w'.sample = w.sample ∧
    w'.sout = w.sout

/-- The working registers but `SCFIDX` are as before. -/
def SameButScfIdx (w w' : WorkRegs) : Prop :=
  w'.alloc = w.alloc ∧ w'.scfsi = w.scfsi ∧ w'.l2Set = w.l2Set ∧ w'.sbLimit = w.sbLimit ∧ w'.sample = w.sample ∧
    w'.sout = w.sout

/-- The working registers but `SAMPLE` are as before. -/
def SameButSample (w w' : WorkRegs) : Prop :=
  w'.alloc = w.alloc ∧ w'.scfsi = w.scfsi ∧ w'.scfIdx = w.scfIdx ∧ w'.l2Set = w.l2Set ∧ w'.sbLimit = w.sbLimit ∧
    w'.sout = w.sout

/-- The vector of age `a` in a channel's history: entry `m` of the 64 entries that matrixing wrote `a` steps ago
(45_synthesis.md R206). -/
def SynthChannel.aged (c : SynthChannel) (a m : Nat) : NumVal := c.read (c.voff.toNat + 64 * a + m)

/-- One synthesis step of a channel on a column of subband samples: cursor step, then matrixing (45_synthesis.md R201, R202). -/
def SynthChannel.push (c : SynthChannel) (f : NumFormat) (x : Nat → NumVal) : SynthChannel := c.cursorStep.matrixing f x

end Sys2Proof.Machine
end

