-- ==== Sys2Proof/Certificates/Slice0/Obligations.lean ====
section
/-! DEFINITION. The statements for the provers, from the numbered rules of spec/. A statement that rests on a choice of the model
names the log entry in its docstring. -/

open Sys2Proof Sys2Proof.Machine

/-! ## Encoding -/

/-- Decoding the encoding of any well-formed unit gives it back (30_encoding.md R82, R86, R90): no bit of an encoding is
dropped. -/
def Obligations.DecodeOfEncodeIsTheUnit : Prop :=
  ∀ i : Instr, i.wf = true → decode i.shape (encode i) = .ok i

/-- Bits that decode in a position are the encoding of the unit they decode to, a well-formed unit of the selected shape: no two
bit strings of one position are the same unit (30_encoding.md R82, R86, R90). -/
def Obligations.EncodeOfDecodeIsTheBits : Prop :=
  ∀ (sh : UnitShape) (bits : List Bool) (i : Instr),
    decode sh bits = .ok i → i.wf = true ∧ i.shape = sh ∧ encode i = bits

/-- While seeking sync, the masks and matches of the unit table select the unit: a frame by the layer bits of the 32-bit word,
else one skipped byte (30_encoding.md R90; the layer codes are log 13). -/
def Obligations.MaskAndMatchSelectTheUnit : Prop :=
  ∀ (b0 b1 b2 b3 : Byte) (rest : List Byte),
    let w := b0.toNat * 2 ^ 24 + b1.toNat * 2 ^ 16 + b2.toNat * 2 ^ 8 + b3.toNat
    let got := decodeSeek (b0 :: b1 :: b2 :: b3 :: rest)
    (w &&& 0xFFF60000 = 0xFFF60000 → ∃ h, got = .ok (.frameL1 h, rest) ∧ headerWord 3#2 h = w) ∧
    (w &&& 0xFFF60000 = 0xFFF40000 → ∃ h, got = .ok (.frameL2 h, rest) ∧ headerWord 2#2 h = w) ∧
    (w &&& 0xFFF60000 = 0xFFF20000 → ∃ h, got = .ok (.frameL3 h, rest) ∧ headerWord 1#2 h = w) ∧
    (w &&& 0xFFF60000 = 0xFFF00000 → ∃ h, got = .ok (.frameRsv h, rest) ∧ headerWord 0#2 h = w) ∧
    (w &&& 0xFFF00000 ≠ 0xFFF00000 → got = .ok (.skip b0, b1 :: b2 :: b3 :: rest))

/-- Words written out from the spec's encodings decode to the units they stand for (30_encoding.md R82, R90; the header words
are rows of 95_test_vectors.md section 2.3). -/
def Obligations.WrittenWordsDecode : Prop :=
  decodeTableWord 32 0xFFFF40C0 = some (.frameL1 ⟨1, 1, 4, 0, 0, 0, 3, 0, 0⟩) ∧
  decodeTableWord 32 0xFFF743CF = some (.frameL1 ⟨0, 1, 4, 0, 1, 1, 3, 0, 15⟩) ∧
  decodeTableWord 32 0xFFFD18C0 = some (.frameL2 ⟨1, 1, 1, 2, 0, 0, 3, 0, 0⟩) ∧
  decodeTableWord 32 0xFFFB9000 = some (.frameL3 ⟨1, 1, 9, 0, 0, 0, 0, 0, 0⟩) ∧
  decodeTableWord 32 0xFFF940C0 = some (.frameRsv ⟨1, 1, 4, 0, 0, 0, 3, 0, 0⟩) ∧
  decodeTableWord 16 0xABCD = some (.crc16 0xABCD) ∧
  decodeTableWord 8 0x49 = some (.skip 0x49) ∧
  decode .l1Alloc [false, false, false, true] = .ok (.l1Alloc 1) ∧
  decode (.l2Group 5) [false, false, true, false, true] = .ok (.l2Group 5 5)

/-! ## The bit reader -/

/-- Input bits are consumed most significant first: bit 7 of a byte first, bytes in increasing index; a field is the unsigned
integer whose most significant bit is the first bit consumed; so a 16-bit field on a byte boundary is big-endian. No mode and no
header bit changes the order: it holds in every state (20_memory.md R50; the last clause for a `READ_MAX` of 16 or more, R56). -/
def Obligations.InputBitsAreMostSignificantFirst : Prop :=
  ∀ s : State,
    (∀ p byte k, s.input.read p = some byte → k < 8 → s.input.bit (8 * p + k) = byte.getLsbD (7 - k)) ∧
    (∀ n v t, s.readBits n = .next (v, t) → ∀ i, i < n → v.testBit (n - 1 - i) = s.input.bit (s.bp + i)) ∧
    (∀ n v t, s.readBits n = .next (v, t) → v < 2 ^ n) ∧
    (∀ p b0 b1, 16 ≤ s.cfg.readMax → s.input.read p = some b0 → s.input.read (p + 1) = some b1 → s.bp = 8 * p →
      s.readBits 16 = .next (256 * b0.toNat + b1.toNat, { s with bp := 8 * p + 16 }))

/-- `ReadBits(n)` for `n ≤ READ_MAX` (40_bit_reader.md R110): it raises exactly when the request overruns the input, else answers
the `n`-bit value and moves `BP` alone; and the example of the rule. A width above `READ_MAX`, to which R111 gives no meaning, is
refused (log 20), and a unit whose bits overrun leaves every register but `ERR_CODE` and `FSM` as it was, `BP` included, which
R112 leaves open (log 21). -/
def Obligations.ReadBitsAnswersTheFieldOrRaises : Prop :=
  (∀ (s : State) (n : Nat), n ≤ s.cfg.readMax →
    (s.readBits n = .fault .midFrameEof ↔ 8 * s.input.size < s.bp + n) ∧
    (∀ k, 8 * s.input.size < s.bp + n → s.consume n k = { s with errCode := .midFrameEof, fsm := .error }) ∧
    (s.bp + n ≤ 8 * s.input.size → ∃ v, s.readBits n = .next (v, { s with bp := s.bp + n }) ∧ v < 2 ^ n ∧
      v = ∑ i ∈ Finset.range n, (s.input.bit (s.bp + i)).toNat * 2 ^ (n - 1 - i))) ∧
  (∀ (s : State) (n : Nat), s.cfg.readMax < n → s.readBits n = .refused .readTooWide) ∧
  (let s := State.start [0xA5, 0xC3]
   ∃ s1 s2 s3, s.readBits 3 = .next (5, s1) ∧ s1.readBits 7 = .next (23, s2) ∧ s2.readBits 6 = .next (3, s3) ∧ s3.bp = 16)

/-! ## Where a unit runs, and the exceptions -/

/-- A meaning runs exactly where the machine's position selects its unit, and is refused by name everywhere else (30_encoding.md
R80; the refusal is log 26, the parameters are log 30). -/
def Obligations.UnitRunsExactlyWhereSelected : Prop :=
  ∀ (i : Instr) (s : State),
    (s.cfg.wf = true → s.selected = some i.shape → ∃ t, exec i s = .next t) ∧
    (s.selected ≠ some i.shape → exec i s = .refused .unitNotSelected)

/-- A step at a state whose position selects a unit runs the unit that the bits at the cursor decode to; that unit is well
formed and of the selected shape, and its bits are those at the cursor or, past the end of the input, zeros (30_encoding.md R80,
R90; log 7). -/
def Obligations.StepRunsTheDecodedUnit : Prop :=
  ∀ (s : State) (i : Instr), s.stage = none → s.fetch = some i →
    step s = exec i s ∧ i.wf = true ∧ s.selected = some i.shape ∧
      encode i = s.input.bits (if s.fsm = .seekSync then 8 * (s.bp / 8) else s.bp) i.shape.width

/-- `raise E`: `ERR_CODE` gets the code and `FSM` becomes `ERROR`, and nothing else changes; the run is over: a step holds the
state and the host reads the code alone (60_exceptions.md R255; 47_orchestrator.md R241; that nothing else changes is log 21). -/
def Obligations.RaiseWritesCodeAndStops : Prop :=
  ∀ (s : State) (e : ErrCode),
    s.raise e = { s with errCode := e, fsm := .error } ∧ step (s.raise e) = .next (s.raise e) ∧
      (s.raise e).result = .error e.code

/-- Every element whose bits the input does not hold takes `MidFrameEOF`, whatever it is (60_exceptions.md R252; that nothing but
`ERR_CODE` and `FSM` changes is log 21, the parameters are log 30). -/
def Obligations.OverrunningElementTakesMidFrameEof : Prop :=
  ∀ (i : Instr) (s : State), s.cfg.wf = true → s.selected = some i.shape → i.shape ≠ .skip → i.shape ≠ .header →
    s.endBit < s.bp + i.shape.width → exec i s = .next (s.raise .midFrameEof)

/-- A frame unit whose twenty header bits the input does not hold takes `MidFrameEOF` before any validity test (60_exceptions.md
R252, R256; the parameters are log 30). -/
def Obligations.OverrunningHeaderTakesMidFrameEof : Prop :=
  ∀ (i : Instr) (s : State), s.cfg.wf = true → s.AtCandidate → i.shape = .header → s.endBit < 8 * s.byteIndex + 32 →
    ∃ t, exec i s = .next t ∧ t.fsm = .error ∧ t.errCode = .midFrameEof

/-- Bitrate index 15 and sampling-frequency index 3 take `InvalidField` in a frame of any layer code and any `LAYER_OF`
(42_frame_header.md R139). What the registers hold in `ERROR` the spec leaves open: that they are as before is the model's
reading, log 21; the parameters are log 30. -/
def Obligations.InvalidHeaderFieldTakesInvalidField : Prop :=
  ∀ (h : HdrFields) (s : State), s.cfg.wf = true → s.AtCandidate → 8 * s.byteIndex + 32 ≤ s.endBit →
    (h.br = 15#4 ∨ h.fs = 3#2 → ∀ i, i = .frameL1 h ∨ i = .frameL2 h ∨ i = .frameL3 h ∨ i = .frameRsv h →
      ∃ t, exec i s = .next t ∧ t.fsm = .error ∧ t.errCode = .invalidField ∧ t.ahead = false ∧ t.cfg = s.cfg ∧ t.latch = s.latch ∧
        t.frames = s.frames ∧ t.nsamp = s.nsamp ∧ t.synth = s.synth ∧ t.work = s.work ∧ SameBytes s.input t.input ∧
        SameBytes s.out t.out)

/-! ## The units of the byte and frame levels -/

/-- `SKIP`: a byte that does not begin a sync candidate is consumed with no effect on any state but the bit reader's: `BP` goes to
the next byte, and that byte has been taken from the source exactly when the scan needed it to reject a marker byte
(41_frame_sync.md R120, R121; 40_bit_reader.md R113; a lone marker byte at the end of the input is log 5, the reading of R113
log 28). -/
def Obligations.SkipMovesTheCursorAlone : Prop :=
  ∀ (s : State) (b : Byte), s.fsm = .seekSync → s.input.read s.byteIndex = some b →
    (∀ b1, s.input.read (s.byteIndex + 1) = some b1 → ¬ (b = 0xFF#8 ∧ 0xF0#8 ≤ b1)) →
    let t := { s with bp := 8 * (s.byteIndex + 1), ahead := decide (b = 0xFF#8 ∧ s.byteIndex + 1 < s.input.size) }
    (∀ x, exec (.skip x) s = .next t) ∧ step s = .next t ∧
      t.pulled = if b = 0xFF#8 ∧ s.byteIndex + 1 < s.input.size then s.byteIndex + 2 else s.byteIndex + 1

/-- `FRAME.L1` with a valid header: with the default `LAYER_OF`, the header registers, the cursor behind the 32 bits, and either the
wait for the `CRC16` or the latch and the start of a Layer I body; with any `LAYER_OF`, what the layer of code 3 does
(42_frame_header.md R130 to R140, 43_layer1.md R150; logs 12 to 16, 24, 30 to 32, in `ERROR` log 21). -/
def Obligations.FrameL1EntersTheLayer1Body : Prop :=
  ∀ (h : HdrFields) (s : State), s.cfg.wf = true → s.AtCandidate → 8 * s.byteIndex + 32 ≤ s.endBit → h.br ≠ 15#4 →
    h.fs ≠ 3#2 →
    ∃ t, exec (.frameL1 h) s = .next t ∧ (s.cfg.layerKind 3#2 = some .l1 → EntersFrame 3#2 .l1 h s t) ∧ FrameOutcome 3#2 h s t

/-- `FRAME.L2` with a valid header: as for Layer I, with the table set and the subband limit of a Layer II body
(42_frame_header.md R130 to R140, 44_layer2.md R170, R171; logs 12 to 18, 24, 30 to 32, in `ERROR` log 21). -/
def Obligations.FrameL2EntersTheLayer2Body : Prop :=
  ∀ (h : HdrFields) (s : State), s.cfg.wf = true → s.AtCandidate → 8 * s.byteIndex + 32 ≤ s.endBit → h.br ≠ 15#4 →
    h.fs ≠ 3#2 →
    ∃ t, exec (.frameL2 h) s = .next t ∧ (s.cfg.layerKind 2#2 = some .l2 → EntersFrame 2#2 .l2 h s t) ∧ FrameOutcome 2#2 h s t

/-- `FRAME.L3` with a valid header is, with the default `LAYER_OF`, the stub: the header registers and `BP` alone change, nothing is
latched, counted, decoded or produced, and the block seeks sync again right behind the header, or behind the `CRC16` it waits
for; with any `LAYER_OF`, what the layer of code 1 does (47_orchestrator.md R236; logs 12 to 16, 24, 30 to 32, in `ERROR` log
21). -/
def Obligations.FrameL3IsTheStub : Prop :=
  ∀ (h : HdrFields) (s : State), s.cfg.wf = true → s.AtCandidate → 8 * s.byteIndex + 32 ≤ s.endBit → h.br ≠ 15#4 →
    h.fs ≠ 3#2 →
    ∃ t, exec (.frameL3 h) s = .next t ∧ (s.cfg.layerKind 1#2 = some .l3 → EntersStub 1#2 h s t) ∧ FrameOutcome 1#2 h s t

/-- `FRAME.RSV` raises, with the default `LAYER_OF`, `InvalidField(LAYER)` whatever the other fields are: the field registers are
written, nothing is resolved, the latch, the counters, the output and the synthesis state are as before; with any `LAYER_OF`,
what the layer of code 0 does (42_frame_header.md R130, R139; logs 12 to 16, 24, 30 to 32, in `ERROR` log 21). -/
def Obligations.FrameRsvTakesInvalidField : Prop :=
  ∀ (h : HdrFields) (s : State), s.cfg.wf = true → s.AtCandidate → 8 * s.byteIndex + 32 ≤ s.endBit →
    ∃ t, exec (.frameRsv h) s = .next t ∧ (s.cfg.layerKind 0#2 = none → FaultsInHeader 0#2 h s t) ∧
      (h.br ≠ 15#4 → h.fs ≠ 3#2 → FrameOutcome 0#2 h s t)

/-- `CRC16`: the sixteen bits are dropped whatever they are, then the stub or the body of the frame follows (42_frame_header.md
R137, R138, R140; 43_layer1.md R150; 44_layer2.md R170, R171; 47_orchestrator.md R236; the start of the body is logs 18, 24, 31
and 32, the rest logs 15 and 30). -/
def Obligations.Crc16IsDroppedAndTheFrameGoesOn : Prop :=
  ∀ (c : BitVec 16) (s : State), s.cfg.wf = true → s.fsm = .header → s.bp + 16 ≤ s.endBit →
    ∃ t, exec (.crc16 c) s = .next t ∧ t.bp = s.bp + 16 ∧ t.ahead = s.ahead ∧ t.hdr = s.hdr ∧ SameButLatch s t ∧
      (∀ c', exec (.crc16 c') s = exec (.crc16 c) s) ∧
      (s.hdr.kind = .l3 → t.fsm = .seekSync ∧ t.latch = s.latch ∧ t.work = s.work) ∧
      (s.hdr.kind ≠ .l3 → EntersBody s t)

/-! ## The elements of a Layer I body -/

/-- `L1.ALLOC`: the code goes to its own subband-channel in an independent subband and to every channel in a joint one
(43_layer1.md R151; the parameters are log 30). -/
def Obligations.L1AllocWritesTheCode : Prop :=
  ∀ (a : BitVec 4) (s : State) (c : SubCh), s.cfg.wf = true → s.fsm = .layerDecode → s.hdr.kind = .l1 → s.pos = .alloc c →
    IsChannelCount s.latch.nch → s.bp + 4 ≤ s.endBit →
    ∃ t, exec (.l1Alloc a) s = .next t ∧ ElementRead 4 s t ∧ SameButAlloc s.work t.work ∧
      ∀ ch sb, (sb = c.sb ∧ s.Writes c ch → t.work.allocAt ch sb = a) ∧
        (¬ (sb = c.sb ∧ s.Writes c ch) → t.work.allocAt ch sb = s.work.allocAt ch sb)

/-- `L1.SCF`: an index below 63 goes to the first scale factor of its subband-channel; index 63 takes `InvalidField`
(43_layer1.md R152). What `BP` and the other registers hold in `ERROR` the spec leaves open: that `BP` is behind the element and the
rest as before is the model's reading, log 21; the parameters are log 30. -/
def Obligations.L1ScfWritesTheIndexOrFaults : Prop :=
  ∀ (x : BitVec 6) (s : State) (c : SubCh) (got : List (BitVec 6)), s.cfg.wf = true → s.fsm = .layerDecode → s.hdr.kind = .l1 →
    s.pos = .scf c got → s.bp + 6 ≤ s.endBit →
    (x ≠ 63#6 → ∃ t, exec (.l1Scf x) s = .next t ∧ ElementRead 6 s t ∧ SameButScfIdx s.work t.work ∧
      ∀ ch sb p, (ch = c.ch ∧ sb = c.sb ∧ p = 0 → t.work.scfIdxAt ch sb p = x) ∧
        (¬ (ch = c.ch ∧ sb = c.sb ∧ p = 0) → t.work.scfIdxAt ch sb p = s.work.scfIdxAt ch sb p)) ∧
    (x = 63#6 → exec (.l1Scf x) s = .next ({ s with bp := s.bp + 6 }.raise .invalidField))

/-- `L1.SAMPLE`: the requantized code times the scale factor of each channel it speaks for goes to time slot `t`
(43_layer1.md R154). A scale factor `SCF[i]` is `2^(1 - i/3)` rounded to the format: no number lies between it and the real
number; in the default format entry 0 is 2, entry `i + 3` is half of entry `i`, and the entries fall strictly (10_state.md R31;
the format and the parameters are logs 8 and 30). -/
def Obligations.L1SampleWritesTheScaledFraction : Prop :=
  (∀ (v : BitVec 16) (s : State) (t : Fin 12) (c : SubCh) (k : Fin 3), s.cfg.wf = true → s.fsm = .layerDecode →
    s.hdr.kind = .l1 → s.pos = .sample t c k → IsChannelCount s.latch.nch →
    let n := (s.work.allocAt c.ch c.sb).toNat
    s.bp + (n + 1) ≤ s.endBit →
    ∃ u, exec (.l1Sample (n + 1) v) s = .next u ∧ ElementRead (n + 1) s u ∧ SameButSample s.work u.work ∧
      ∀ ch sb (j : Fin 36),
        (sb = c.sb ∧ s.Writes c ch ∧ j.val = t.val →
          u.work.sampleAt ch sb j = s.cfg.num.mul (deq1 s.cfg.num v.toNat n) (scf s.cfg.num (s.work.scfIdxAt ch sb 0))) ∧
        (¬ (sb = c.sb ∧ s.Writes c ch ∧ j.val = t.val) → u.work.sampleAt ch sb j = s.work.sampleAt ch sb j)) ∧
  (∀ (f : NumFormat) (i : BitVec 6), f.wf = true → i ≠ 63#6 →
    ∃ m, scf f i = .finite false m ∧ f.isNumber (.finite false m) = true ∧
    ∀ y, f.isNumber (.finite false y) = true →
      (y ^ 3 * 2 ^ i.toNat ≤ 2 ^ (3 + 3 * f.scale) → y ≤ m) ∧ (2 ^ (3 + 3 * f.scale) ≤ y ^ 3 * 2 ^ i.toNat → m ≤ y)) ∧
  (let value := fun i : Nat => (scf .binary32 (BitVec.ofNat 6 i)).units
   value 0 = 2 * 2 ^ 149 ∧ (∀ i < 60, 2 * value (i + 3) = value i) ∧ ∀ i < 62, value (i + 1) < value i)

/-- The elements of a frame body are read in the order of its format, and none that the body has is passed over: after an element
the position is later, at an element the body has, and no position strictly between is at one; when the body is read no later
position is (30_encoding.md R84, R85; 43_layer1.md R150; 44_layer2.md R170; the position is log 27). -/
def Obligations.ElementsAreReadInTheOrderOfTheFormat : Prop :=
  ∀ s t : State, Consistent s → s.fsm = .layerDecode → step s = .next t → t.fsm ≠ .error →
    (t.fsm = .layerDecode → s.pos.Before t.pos ∧ t.PositionInBody ∧
      ∀ p, s.pos.Before p → p.Before t.pos → ¬ { t with pos := p }.PositionInBody) ∧
    (t.fsm ≠ .layerDecode → t.fsm = .synth ∧ t.pos = .slot 0 ∧
      ∀ p, s.pos.Before p → ¬ { t with pos := p }.PositionInBody)

/-- The allocation part of a Layer I body has `nch × min(bound, 32) + (32 - min(bound, 32))` elements of four bits
(43_layer1.md R151). -/
def Obligations.Layer1AllocationPartLength : Prop :=
  ∀ s : State, s.hdr.kind = .l1 → IsChannelCount s.latch.nch →
    (SubCh.order.filter s.hasAlloc).length = s.latch.nch * min s.hdr.bound 32 + (32 - min s.hdr.bound 32)

/-- `deq1` rounds only the factor and the product: in a format with `n` bits and units that make up `2^-n` and 1, binary32 among
them for every `n ≤ 15`, for every code of `n + 1` bits the fraction before them is the number `(2 v - 2^(n+1) + 2) / 2^(n+1)`,
exactly (43_layer1.md R153; number format log 8). -/
def Obligations.Deq1RoundsOnlyFactorAndProduct : Prop :=
  ∀ (f : NumFormat) (n v : Nat), n ≤ f.precision → n ≤ f.scale → 2 ^ f.scale ≤ f.largest → v < 2 ^ (n + 1) →
    let x := f.ofRatio (2 * (v : Int) - 2 ^ (n + 1) + 2) (2 ^ (n + 1))
    deq1 f v n = f.mul x (f.ofRatio (2 ^ (n + 1)) (2 ^ (n + 1) - 1)) ∧ f.isNumber x = true ∧
      x.units * 2 ^ (n + 1) = (2 * (v : Int) - 2 ^ (n + 1) + 2) * 2 ^ f.scale

/-! ## The elements of a Layer II body -/

/-- `L2.ALLOC`: as `L1.ALLOC`, in the width of the table set (44_layer2.md R175; logs 17 and 30). -/
def Obligations.L2AllocWritesTheCode : Prop :=
  ∀ (a : BitVec 4) (s : State) (c : SubCh), s.cfg.wf = true → s.fsm = .layerDecode → s.hdr.kind = .l2 → s.pos = .alloc c →
    IsChannelCount s.latch.nch →
    let w := s.cfg.nbal s.work.l2Set c.sb
    s.bp + w ≤ s.endBit →
    ∃ t, exec (.l2Alloc w a) s = .next t ∧ ElementRead w s t ∧ SameButAlloc s.work t.work ∧
      ∀ ch sb, (sb = c.sb ∧ s.Writes c ch → t.work.allocAt ch sb = a) ∧
        (¬ (sb = c.sb ∧ s.Writes c ch) → t.work.allocAt ch sb = s.work.allocAt ch sb)

/-- `L2.SCFSI`: the code goes to its subband-channel (44_layer2.md R176; the parameters are log 30). -/
def Obligations.L2ScfsiWritesTheCode : Prop :=
  ∀ (x : BitVec 2) (s : State) (c : SubCh), s.cfg.wf = true → s.fsm = .layerDecode → s.hdr.kind = .l2 → s.pos = .scfsi c →
    s.bp + 2 ≤ s.endBit →
    ∃ t, exec (.l2Scfsi x) s = .next t ∧ ElementRead 2 s t ∧ SameButScfsi s.work t.work ∧
      ∀ ch sb, (ch = c.ch ∧ sb = c.sb → t.work.scfsiAt ch sb = x) ∧
        (¬ (ch = c.ch ∧ sb = c.sb) → t.work.scfsiAt ch sb = s.work.scfsiAt ch sb)

/-- The select code shares the elements read: all distinct, first two shared, all three shared, last two shared (30_encoding.md
R89). -/
def Obligations.ScfsiPatternSharesTheElements : Prop :=
  ∀ a b c : BitVec 6,
    (scfsiCount 0 = 3 ∧ scfsiPattern 0 [a, b, c] = (a, b, c)) ∧ (scfsiCount 1 = 2 ∧ scfsiPattern 1 [a, b] = (a, a, b)) ∧
    (scfsiCount 2 = 1 ∧ scfsiPattern 2 [a] = (a, a, a)) ∧ (scfsiCount 3 = 2 ∧ scfsiPattern 3 [a, b] = (a, b, b))

/-- `L2.SCF`: an element that is not the last of its subband-channel is kept; the last one writes the three indices of the
pattern, or takes `InvalidField` when any of the elements is 63 (44_layer2.md R177; the order of test and reads is log 22).
What `BP` and the other registers hold in `ERROR` the spec leaves open: that `BP` is behind the element and the rest as before is the
model's reading, log 21; the parameters are log 30. -/
def Obligations.L2ScfWritesThePatternOrFaults : Prop :=
  ∀ (x : BitVec 6) (s : State) (c : SubCh) (got : List (BitVec 6)), s.cfg.wf = true → s.fsm = .layerDecode → s.hdr.kind = .l2 →
    s.pos = .scf c got → s.bp + 6 ≤ s.endBit →
    let code := s.work.scfsiAt c.ch c.sb
    let all := got ++ [x]
    (all.length < scfsiCount code →
      exec (.l2Scf x) s = .next { s with bp := s.bp + 6, pos := .scf c all }) ∧
    (scfsiCount code ≤ all.length → 63#6 ∈ all →
      exec (.l2Scf x) s = .next ({ s with bp := s.bp + 6 }.raise .invalidField)) ∧
    (scfsiCount code ≤ all.length → 63#6 ∉ all →
      ∃ t, exec (.l2Scf x) s = .next t ∧ ElementRead 6 s t ∧ SameButScfIdx s.work t.work ∧
        (t.work.scfIdxAt c.ch c.sb 0, t.work.scfIdxAt c.ch c.sb 1, t.work.scfIdxAt c.ch c.sb 2) = scfsiPattern code all ∧
        ∀ ch sb p, ¬ (ch = c.ch ∧ sb = c.sb) → t.work.scfIdxAt ch sb p = s.work.scfIdxAt ch sb p)

/-- `L2.SAMPLE`: one code of a triple, requantized and scaled, goes to time slot `3 gr + k` with the scale factor of slot
`gr div 4` (44_layer2.md R178, R180; logs 17, 23 and 30). -/
def Obligations.L2SampleWritesTheScaledFraction : Prop :=
  ∀ (v : BitVec 16) (s : State) (gr : Fin 12) (c : SubCh) (k : Fin 3), s.cfg.wf = true → s.fsm = .layerDecode →
    s.hdr.kind = .l2 → s.pos = .sample gr c k → IsChannelCount s.latch.nch →
    let q := s.cfg.classOf s.work.l2Set c.sb (s.work.allocAt c.ch c.sb)
    q.grouped = false → s.bp + q.bits ≤ s.endBit →
    ∃ t, exec (.l2Sample q.bits v) s = .next t ∧ ElementRead q.bits s t ∧ SameButSample s.work t.work ∧
      (k.val < 2 → t.fsm = .layerDecode ∧ t.pos = .sample gr c (k + 1)) ∧
      ∀ ch sb (j : Fin 36) (p : Fin 3), p.val = gr.val / 4 →
        (sb = c.sb ∧ s.Writes c ch ∧ j.val = 3 * gr.val + k.val →
          t.work.sampleAt ch sb j = s.cfg.num.mul (deq2 s.cfg.num v.toNat q) (scf s.cfg.num (s.work.scfIdxAt ch sb p))) ∧
        (¬ (sb = c.sb ∧ s.Writes c ch ∧ j.val = 3 * gr.val + k.val) → t.work.sampleAt ch sb j = s.work.sampleAt ch sb j)

/-- `L2.GROUP`: one code is demultiplexed by the level count into three, which go to the three time slots of the group
(30_encoding.md R88; 44_layer2.md R178, R180; logs 17 and 30). The requantization takes the sign by the threshold `T` and the
rest over `T`, exactly `(v - T) / T` where `T` is a power of two that the format has, then adds `D`, then multiplies by `C`
(44_layer2.md R179). In the default tables `T` is the power of two with `T < levels + 1 ≤ 2T`, `C` and `D` are printed with eleven
decimals and agree with the closed forms to the last of them, and with the closed forms the middle code of every class gives 0 in
the default format (44_layer2.md R174, R179; logs 8 and 17). -/
def Obligations.L2GroupWritesThreeScaledFractions : Prop :=
  (∀ (x : BitVec 10) (s : State) (gr : Fin 12) (c : SubCh) (k : Fin 3), s.cfg.wf = true → s.fsm = .layerDecode →
    s.hdr.kind = .l2 → s.pos = .sample gr c k → IsChannelCount s.latch.nch →
    let q := s.cfg.classOf s.work.l2Set c.sb (s.work.allocAt c.ch c.sb)
    q.grouped = true → s.bp + q.bits ≤ s.endBit →
    ∃ t, exec (.l2Group q.bits x) s = .next t ∧ ElementRead q.bits s t ∧ SameButSample s.work t.work ∧
      ∀ ch sb (j : Fin 36) (p : Fin 3), p.val = gr.val / 4 →
        (∀ e : Nat, e < 3 → sb = c.sb ∧ s.Writes c ch ∧ j.val = 3 * gr.val + e →
          t.work.sampleAt ch sb j =
            s.cfg.num.mul (deq2 s.cfg.num (x.toNat / q.levels ^ e % q.levels) q) (scf s.cfg.num (s.work.scfIdxAt ch sb p))) ∧
        (¬ (sb = c.sb ∧ s.Writes c ch ∧ j.val / 3 = gr.val) → t.work.sampleAt ch sb j = s.work.sampleAt ch sb j)) ∧
  (∀ (f : NumFormat) (q : QuantClass) (j v : Nat), q.T = 2 ^ j → j ≤ f.precision → j ≤ f.scale → 2 ^ f.scale ≤ f.largest →
    v < 2 * q.T →
    let x := f.ofRatio ((v : Int) - q.T) q.T
    deq2 f v q = f.mul (f.add x (q.D.toNum f)) (q.C.toNum f) ∧ f.isNumber x = true ∧
      x.units * q.T = ((v : Int) - q.T) * 2 ^ f.scale) ∧
  ∀ i : Fin 17,
    let q := Config.default.quantClasses.get i
    let C : Ratio := ⟨2 * q.T, q.levels⟩
    let D : Ratio := if q.grouped then ⟨1, 2⟩ else ⟨1, q.T⟩
    (∃ j ≤ 15, q.T = 2 ^ j) ∧ q.T < q.levels + 1 ∧ q.levels + 1 ≤ 2 * q.T ∧
      |q.C.num * C.den - C.num * q.C.den| ≤ C.den ∧ |q.D.num * D.den - D.num * q.D.den| ≤ D.den ∧
      q.C.den = 10 ^ 11 ∧ q.D.den = 10 ^ 11 ∧
      deq2 .binary32 ((q.levels - 1) / 2) { q with C := C, D := D } = NumVal.zero

/-! ## The end of a frame -/

/-- `PADBITS`: 0 to 7 bits are dropped whatever they are, the cursor is at a byte boundary, the frame is counted, and the block
seeks sync; it cannot raise (40_bit_reader.md R114, 47_orchestrator.md R238), for a `READ_MAX` that lets its read be
made (40_bit_reader.md R111). -/
def Obligations.PadBitsAlignAndCountTheFrame : Prop :=
  ∀ (z : BitVec 7) (s : State), 7 ≤ s.cfg.readMax → s.fsm = .align → s.bp ≤ s.endBit →
    let k := (8 - s.bp % 8) % 8
    ∃ t, exec (.padBits k z) s = .next t ∧ step s = .next t ∧ t.bp = s.bp + k ∧ t.bp % 8 = 0 ∧ t.bp ≤ t.endBit ∧
      t.fsm = .seekSync ∧ t.ahead = s.ahead ∧ t.frames = s.frames + 1 ∧ t.cfg = s.cfg ∧ t.hdr = s.hdr ∧ t.latch = s.latch ∧ t.nsamp = s.nsamp ∧
      t.errCode = s.errCode ∧ t.work = s.work ∧ t.synth = s.synth ∧ SameBytes s.input t.input ∧ SameBytes s.out t.out

/-- The end of the input while seeking sync is the clean end of the run, whether or not frames were decoded; then nothing
changes any more (47_orchestrator.md R231, 60_exceptions.md R251, R264). -/
def Obligations.EndOfInputWhileSeekingEndsCleanly : Prop :=
  ∀ s : State, s.fsm = .seekSync → s.input.size ≤ s.byteIndex →
    step s = .next { s with bp := 8 * s.input.size, ahead := false, fsm := .done } ∧
      ∀ t, t.fsm = .done ∨ t.fsm = .error → step t = .next t

/-! ## The synthesis filter bank and the PCM formatter -/

/-- Cursor step: the cursor decreases by 64 modulo 1024, so after `n` steps from `VOFF = 0` it is `(-64 n) mod 1024`, a multiple
of 64: 256 after one Layer I frame, 768 after one Layer II frame, 512 after two Layer I frames (45_synthesis.md R201). -/
def Obligations.CursorDecreasesBySixtyFour : Prop :=
  (∀ c : SynthChannel, c.cursorStep.voff.toNat = (c.voff.toNat + 1024 - 64) % 1024 ∧ c.cursorStep.v = c.v) ∧
  (∀ (c : SynthChannel) (n : Nat), c.voff = 0 →
    (Nat.iterate SynthChannel.cursorStep n c).voff.toNat = 64 * ((1024 - n % 1024) % 16)) ∧
  (∀ c : SynthChannel, c.voff = 0 → (Nat.iterate SynthChannel.cursorStep 12 c).voff = 256 ∧
    (Nat.iterate SynthChannel.cursorStep 36 c).voff = 768 ∧ (Nat.iterate SynthChannel.cursorStep 24 c).voff = 512)

/-- Matrixing writes the 64 dot products at the cursor and leaves every other entry and the cursor (45_synthesis.md R202). -/
def Obligations.MatrixingWritesSixtyFourDotProducts : Prop :=
  ∀ (c : SynthChannel) (f : NumFormat) (x : Nat → NumVal),
    (c.matrixing f x).voff = c.voff ∧
    (∀ i, i < 64 → (c.matrixing f x).read (c.voff.toNat + i) = f.dot 32 (nik f i) x) ∧
    (∀ a, (∀ i, i < 64 → a % 1024 ≠ (c.voff.toNat + i) % 1024) → (c.matrixing f x).read a = c.read a)

/-- The history is exactly the last sixteen vectors: after any number of synthesis steps, the vector of age `a < 16` is the one
matrixing wrote from the column of `a` steps ago; `xs` lists the columns, newest first (45_synthesis.md R206, R207). -/
def Obligations.HistoryHoldsTheLastSixteenVectors : Prop :=
  ∀ (c : SynthChannel) (f : NumFormat) (xs : List (Nat → NumVal)) (a m : Nat) (x : Nat → NumVal), a < 16 → m < 64 →
    xs[a]? = some x → (xs.foldr (fun x c => c.push f x) c).aged a m = f.dot 32 (nik f m) x

/-- Windowing: term `i` reads the low half of the vector of age `i` when `i` is even and its high half when `i` is odd, for every
window (45_synthesis.md R203, R206; log 11). -/
def Obligations.WindowingReadsOneHalfOfEachVector : Prop :=
  ∀ (c : SynthChannel) (f : NumFormat) (win : Nat → NumVal) (j : Fin 32),
    (c.windowing f win).get j =
      f.dot 16 (fun i => win (j.val + 32 * i)) (fun i => c.aged i (j.val + if i % 2 = 1 then 32 else 0))

/-- Silence: with all subband samples of the slot zero and an all-zero history, the slot leaves the history all zero and appends
zero bytes, whatever numbers the window holds (45_synthesis.md R209, R205; number format logs 8 and 30, window log 11). -/
def Obligations.SilentSlotIsSilentForEveryWindow : Prop :=
  ∀ (s : State) (t : Fin 36), s.cfg.num.wf = true → s.out.wf = true →
    (∀ ch sb, s.work.sampleAt ch sb t = NumVal.zero) → (∀ ch a, (s.synth.get ch).v.get a = NumVal.zero) →
    let u := s.synthSlot (window s.cfg.num) t
    (∀ ch a, (u.synth.get ch).v.get a = NumVal.zero) ∧ (∀ ch, ch ∈ s.channels → ∀ j, (u.work.sout.get ch).get j = NumVal.zero) ∧
      ∀ a, s.out.size ≤ a → a < u.out.size → u.out.read a = some 0#8

/-- The two channels of a slot touch disjoint state: each leaves the other's history, cursor and output samples, and their order
is not observable (45_synthesis.md R200, 10_state.md R27). -/
def Obligations.ChannelsOfASlotDoNotInteract : Prop :=
  ∀ (win : Nat → NumVal) (t : Fin 36) (s : State),
    (s.synthChannel win t 0).synthChannel win t 1 = (s.synthChannel win t 1).synthChannel win t 0 ∧
    ∀ ch ch' : Fin 2, ch' ≠ ch →
      (s.synthChannel win t ch).synth.get ch' = s.synth.get ch' ∧
      (s.synthChannel win t ch).work.sout.get ch' = s.work.sout.get ch'

/-- Emission: sample number `n` of channel `ch` is little-endian at `2 (S_NCH n + ch)`, earlier bytes stay, `NSAMP` grows by 32
(46_pcm.md R221, R222; 20_memory.md R51). -/
def Obligations.EmissionInterleavesLittleEndianPairs : Prop :=
  ∀ s : State, s.out.wf = true → IsChannelCount s.latch.nch → s.out.size = 2 * s.latch.nch * s.nsamp →
    s.emitSlot.nsamp = s.nsamp + 32 ∧ s.emitSlot.out.size = 2 * s.latch.nch * (s.nsamp + 32) ∧
    (∀ a, a < s.out.size → s.emitSlot.out.read a = s.out.read a) ∧
    ∀ (j : Fin 32) (ch : Fin 2), ch.val < s.latch.nch →
      let w := BitVec.ofInt 16 (pcm16 s.cfg ((s.work.sout.get ch).get j))
      let a := 2 * (s.latch.nch * (s.nsamp + j.val) + ch.val)
      s.emitSlot.out.read a = some (w.extractLsb' 0 8) ∧ s.emitSlot.out.read (a + 1) = some (w.extractLsb' 8 8)

/-- `pcm16` of a number is `x × 32768` rounded by `PCM_ROUND` and clamped to 16 bits, never wrapped; of any value, what is no number
too, it is in the 16-bit range. `PCM_ROUND` answers a nearest integer, the default one `floor(y + 1/2)` (46_pcm.md R220; logs 8, 19
and 30). -/
def Obligations.PcmIsTheClampedRoundedSample : Prop :=
  ∀ c : Config, c.wf = true →
    (∀ x, c.num.isNumber x = true → pcm16 c x = clamp16 (c.pcmRound.apply (x.units * 32768) (2 ^ c.num.scale))) ∧
    (∀ x, -32768 ≤ pcm16 c x ∧ pcm16 c x ≤ 32767) ∧
    ∀ (u : Int) (d : Nat), 0 < d →
      2 * |u - d * c.pcmRound.apply u d| ≤ d ∧ (c.pcmRound = .halfUp → c.pcmRound.apply u d = (2 * u + d) / (2 * d)) ∧
        (c.pcmRound = .halfEven → 2 * |u - d * c.pcmRound.apply u d| = d → c.pcmRound.apply u d % 2 = 0)

/-- One step in `SYNTH` runs one time slot: history and cursor of the decoded channels, the 32 output samples of each, and the
output, with nothing consumed; after the last slot of the frame `FSM` is `ALIGN` (45_synthesis.md R200 to R203,
47_orchestrator.md R237). One step a slot is log 1; that `SOUT` keeps the values of a channel the stream does not have is log 32. -/
def Obligations.SynthStepRunsOneSlot : Prop :=
  ∀ (s : State) (t : Fin 36), s.fsm = .synth → s.pos = .slot t → IsChannelCount s.latch.nch →
    ∃ u, step s = .next u ∧ u.cfg = s.cfg ∧ u.bp = s.bp ∧ u.ahead = s.ahead ∧ SameBytes s.input u.input ∧ u.hdr = s.hdr ∧
      u.latch = s.latch ∧
      u.frames = s.frames ∧ u.errCode = s.errCode ∧ u.nsamp = s.nsamp + 32 ∧
      u.work = { s.work with sout := u.work.sout } ∧
      (∀ ch : Fin 2, ch.val < s.latch.nch →
        u.synth.get ch = (s.synth.get ch).push s.cfg.num (fun k => s.work.sampleAt ch (Fin.ofNat 32 k) t) ∧
        u.work.sout.get ch = (u.synth.get ch).windowing s.cfg.num (window s.cfg.num)) ∧
      (∀ ch : Fin 2, s.latch.nch ≤ ch.val → u.synth.get ch = s.synth.get ch ∧ u.work.sout.get ch = s.work.sout.get ch) ∧
      u.out = ({ s with work := u.work }.emitSlot).out ∧
      (t.val + 1 < s.slotCount ∧ t.val + 1 < 36 → u.fsm = .synth ∧ ∃ t', u.pos = .slot t' ∧ t'.val = t.val + 1) ∧
      (¬ (t.val + 1 < s.slotCount ∧ t.val + 1 < 36) → u.fsm = .align)

/-- A frame contributes 384 samples per channel in Layer I and 1152 in Layer II: from its first time slot, after as many steps as
it has slots, `FSM` is `ALIGN` and `NSAMP` has grown by that (47_orchestrator.md R237; that a slot is one step of the model is log 1). -/
def Obligations.FrameContributesItsSamples : Prop :=
  ∀ s : State, s.fsm = .synth → s.pos = .slot 0 →
    let n := if s.hdr.kind = .l2 then 36 else 12
    ∃ t, Sys2Proof.core.run n s = .next t ∧ t.fsm = .align ∧ t.nsamp = s.nsamp + 32 * n ∧
      (n = 36 → 32 * n = 1152) ∧ (n = 12 → 32 * n = 384)

/-! ## Numbers and tables -/

/-- `rnd` answers a number of the format next to the exact value: no number lies between; to nearest none is closer; a directed
rounding stays on its side (00_scope.md R6, R8; number format log 8, beyond the largest number log 9). -/
def Obligations.RoundingAnswersANearestNumber : Prop :=
  ∀ (f : NumFormat) (neg : Bool) (n d : Nat), 1 ≤ f.precision → 0 < d →
    (∀ m, f.round neg n d = .finite neg m → f.isNumber (.finite neg m) = true ∧
      (∀ y, f.isNumber (.finite neg y) = true → (d * y ≤ n → y ≤ m) ∧ (n ≤ d * y → m ≤ y)) ∧
      (f.rounding = .nearestEven ∨ f.rounding = .nearestAway → ∀ y, f.isNumber (.finite neg y) = true →
        |(n : Int) - d * m| ≤ |(n : Int) - d * y|) ∧
      (f.rounding.keepsLargest neg = true → d * m ≤ n) ∧
      (f.rounding = .upward ∧ neg = false ∨ f.rounding = .downward ∧ neg = true → n ≤ d * m)) ∧
    (n ≤ d * f.largest → ∃ m, f.round neg n d = .finite neg m)

/-- `rnd` of a number is that number, and `rnd` is monotone: of two exact values of one sign, the one of greater magnitude has no
smaller answer, in every format and rounding (00_scope.md R6, R8; number format log 8). -/
def Obligations.RoundingKeepsEveryNumber : Prop :=
  ∀ (f : NumFormat) (neg : Bool),
    (∀ m, f.isNumber (.finite neg m) = true → f.round neg m 1 = .finite neg m) ∧
    ∀ n d n' d' m m' : Nat, 1 ≤ f.precision → 0 < d → 0 < d' → n * d' ≤ n' * d →
      f.round neg n d = .finite neg m → f.round neg n' d' = .finite neg m' → m ≤ m'

/-! ## The whole machine -/

/-- Reset applied in any state: the values of the table, and of what the state held nothing but the parameters, so that a run
started after it is the run of a fresh instance with those parameters (70_reset_and_hazards.md R280 to R282; the registers the
spec gives no value are log 4, that no input is bound is log 2). At `State.reset` the parameters are the defaults (log 30). -/
def Obligations.ResetValuesAreTheSpecs : Prop :=
  (∀ s : State, let r := s.applyReset
    r.bp = 0 ∧ r.pulled = 0 ∧ r.fsm = .seekSync ∧ r.latch.latched = false ∧ r.frames = 0 ∧ r.nsamp = 0 ∧ r.errCode = .none ∧
      r.out.size = 0 ∧ (∀ ch : Fin 2, (r.synth.get ch).voff = 0 ∧ ∀ a, (r.synth.get ch).v.get a = NumVal.zero) ∧
      r.cfg = s.cfg ∧ (∀ s' : State, s'.cfg = s.cfg → s'.applyReset = r) ∧
      ∀ input, s.restart input = State.startWith s.cfg input) ∧
  State.reset.applyReset = State.reset ∧ State.reset.cfg = Config.default

/-- A run starts in a consistent state, whatever the input and the parameters, and reset reaches one from any state with
well-formed parameters (47_orchestrator.md R232, 70_reset_and_hazards.md R281, R282; logs 2 and 30). -/
def Obligations.EveryRunStartsConsistent : Prop :=
  Consistent State.reset ∧ (∀ input : List Byte, Consistent (State.start input)) ∧
    (∀ (c : Config) (input : List Byte), c.wf = true → Consistent (State.startWith c input)) ∧
    ∀ (s : State) (input : List Byte), s.cfg.wf = true → Consistent s.applyReset ∧ Consistent (s.restart input)

/-- Every step keeps a consistent state consistent: the cursor inside the input and aligned where the spec says, `VOFF` a multiple
of 64, `len(OUT) = 2 × S_NCH × NSAMP`, the latch and the header registers in their sets, the exception code in step with `FSM`,
the position at an element the body has, the byte spaces canonical (10_state.md R11, R15, R16, R19, R27, R28); and no step changes
the parameters (00_scope.md R6; log 30). -/
def Obligations.EveryStepKeepsConsistency : Prop :=
  ∀ s t : State, step s = .next t → t.cfg = s.cfg ∧ (Consistent s → Consistent t)

/-- No outcome of a run is undefined: from a consistent state a step always answers a next state, never a fault and never a
refusal (60_exceptions.md R259, R254). -/
def Obligations.ConsistentStepAlwaysGoesOn : Prop :=
  ∀ s : State, Consistent s → ∃ t, step s = .next t

/-- Every step of a run that has not ended brings its end nearer (47_orchestrator.md R233; the step and the rank of a stage are the
model's, log 1). -/
def Obligations.EveryStepBringsTheEndNearer : Prop :=
  ∀ s t : State, Consistent s → ¬ s.Terminal → step s = .next t → t.remaining < s.remaining

/-- Every run ends in `DONE` or `ERROR`, whatever the input and the parameters (47_orchestrator.md R233; the step bound counts the
model's steps, log 1; the parameters are log 30). -/
def Obligations.EveryRunEnds : Prop :=
  ∀ (c : Config) (input : List Byte), c.wf = true → ∃ k t, k ≤ 384 * input.length + 1 ∧
    Sys2Proof.core.run k (State.startWith c input) = .next t ∧ t.Terminal

/-- `FSM` moves only as the table of transitions says (47_orchestrator.md R230; the granularity is log 1). -/
def Obligations.FsmMovesOnlyAsTheTableSays : Prop :=
  ∀ s t : State, Consistent s → step s = .next t → fsmMayGo s.fsm t.fsm = true

/-- `BP` never decreases and never passes the end of the input, and the input never changes; bytes are taken from the source in
order, none twice and none the input has not, and `PULLED` is `ceil(BP / 8)` but for the byte behind a marker byte that the scan
just rejected, which it has taken (10_state.md R10, R11, R12; 40_bit_reader.md R113; log 28). -/
def Obligations.CursorNeverGoesBack : Prop :=
  ∀ s t : State, Consistent s → step s = .next t →
    s.bp ≤ t.bp ∧ t.bp ≤ 8 * t.input.size ∧ t.input = s.input ∧ s.pulled ≤ t.pulled ∧ t.pulled ≤ t.input.size ∧
      t.pulled = (t.bp + 7) / 8 +
        if s.fsm = .seekSync ∧ s.input.read s.byteIndex = some 0xFF#8 ∧ s.byteIndex + 1 < s.input.size ∧
          t.bp = 8 * (s.byteIndex + 1) then 1 else 0

/-- The stream latch is written once: by a step that reads the header of a supported frame, and never after (10_state.md R16,
42_frame_header.md R138). -/
def Obligations.LatchIsWrittenOnce : Prop :=
  ∀ s t : State, step s = .next t →
    (s.latch.latched = true → t.latch = s.latch) ∧
    (t.latch ≠ s.latch → (s.fsm = .seekSync ∨ s.fsm = .header) ∧ t.fsm = .layerDecode ∧
      t.latch = ⟨true, t.hdr.fs, t.hdr.nch⟩)

/-- Output only grows: every byte stays where and what it is, and only a synthesis step appends or counts samples (10_state.md R28,
20_memory.md R59). -/
def Obligations.OutputOnlyGrows : Prop :=
  ∀ s t : State, s.out.wf = true → step s = .next t →
    (∀ a, a < s.out.size → t.out.read a = s.out.read a) ∧ s.out.size ≤ t.out.size ∧
      (s.fsm ≠ .synth → t.out = s.out ∧ t.nsamp = s.nsamp)

/-- The synthesis state is carried across frames: nothing but a synthesis step changes a history or a cursor, and that of an
undecoded channel never (10_state.md R27, 45_synthesis.md R207). -/
def Obligations.HistoryChangesOnlyInSynthesis : Prop :=
  ∀ s t : State, step s = .next t →
    (s.fsm ≠ .synth → t.synth = s.synth) ∧ (s.latch.nch ≠ 2 → t.synth.get 1 = s.synth.get 1)

/-- `FRAMES` grows by one exactly at the end of a frame of a supported layer (10_state.md R17, 47_orchestrator.md R238). -/
def Obligations.FramesCountsCompletedFrames : Prop :=
  ∀ s t : State, step s = .next t → t.frames = if s.fsm = .align ∧ t.fsm = .seekSync then s.frames + 1 else s.frames

/-- `ERR_CODE` is written at most once in a run, with the entry into `ERROR` (10_state.md R19). -/
def Obligations.ErrorCodeIsWrittenOnce : Prop :=
  ∀ s t : State, Consistent s → step s = .next t →
    (t.errCode ≠ s.errCode → s.errCode = .none ∧ s.fsm ≠ .error ∧ t.fsm = .error) ∧
      (s.fsm = .error → t.errCode = s.errCode)

/-- The result record: nothing while the run is in progress, absent exactly when no supported frame was decoded, only the code on
an error; and of a present record the length of the bytes, the least count and the frequency (47_orchestrator.md R240, R241). -/
def Obligations.ResultRecordIsConsistent : Prop :=
  ∀ s : State, Consistent s →
    (s.result = .busy ↔ ¬ s.Terminal) ∧ (s.result = .absent ↔ s.fsm = .done ∧ s.frames = 0) ∧
    (∀ c, s.result = .error c ↔ s.fsm = .error ∧ c = s.errCode.code) ∧
    ∀ r, s.result = .present r →
      r.pcm.size = 2 * (if r.stereo then 2 else 1) * r.samples ∧ 384 ≤ r.samples ∧ IsSamplingFrequency r.frequency ∧
        r.pcm = s.out ∧ r.samples = s.nsamp ∧ r.frequency = s.latch.fs ∧ (r.stereo = true ↔ s.latch.nch = 2)

/-- Bytes in front of the input change nothing but the cursor: a step on the longer input answers the same outcome, with the cursor
behind by those bytes and all other state equal, but for whether the scan has taken the byte behind the cursor (41_frame_sync.md
R123; log 28). -/
def Obligations.StepDoesNotSeeThePrefix : Prop :=
  ∀ (g : Nat) (s s' t : State), ShiftedBy g s s' → step s = .next t → ∃ t', step s' = .next t' ∧ ShiftedBy g t t'

/-- Garbage in front of a stream does not change its decoding: when no sync candidate begins in the prefix (its last byte and the
stream's first byte included), the run first skips the prefix byte by byte and then goes as the run without it, the cursor behind
(41_frame_sync.md R123, 70_reset_and_hazards.md R291; the parameters are log 30, the byte the scan takes ahead is log 28). -/
def Obligations.GarbagePrefixDoesNotChangeTheDecoding : Prop :=
  ∀ (c : Config) (g stream : List Byte) (n : Nat) (t : State),
    (∀ p b0 b1, p < g.length → (g ++ stream)[p]? = some b0 → (g ++ stream)[p + 1]? = some b1 → isCandidate b0 b1 = false) →
    Sys2Proof.core.run n (State.startWith c stream) = .next t →
    ∃ t', Sys2Proof.core.run (g.length + n) (State.startWith c (g ++ stream)) = .next t' ∧ ShiftedBy g.length t t' ∧
      t'.result = t.result
end

