-- ==== Sys2Proof/Laws/Bank.lean ====
section
/-! SUPPORT. Read-after-write laws of banks. -/

namespace Sys2Proof

theorem Bank.ext_cells {α : Type} {n : Nat} {a b : Bank α n} (h : a.cells = b.cells) : a = b := by
  cases a; cases b; simp_all

@[simp] theorem Bank.get_set_self {α : Type} {n : Nat} (b : Bank α n) (i : Fin n) (x : α) :
    (b.set i x).get i = x := by
  simp [Bank.get, Bank.set]

theorem Bank.get_set_of_ne {α : Type} {n : Nat} (b : Bank α n) {i j : Fin n} (x : α) (h : j ≠ i) :
    (b.set i x).get j = b.get j := by
  have : i.val ≠ j.val := fun e => h (Fin.ext e.symm)
  simp [Bank.get, Bank.set, this]

theorem Bank.get_set {α : Type} {n : Nat} (b : Bank α n) (i j : Fin n) (x : α) :
    (b.set i x).get j = if j = i then x else b.get j := by
  split
  · next h => subst h; exact Bank.get_set_self ..
  · next h => exact Bank.get_set_of_ne _ _ h

@[simp] theorem Bank.get_fill {α : Type} {n : Nat} (x : α) (i : Fin n) : (Bank.fill n x).get i = x := by
  simp [Bank.get, Bank.fill]

@[simp] theorem Bank.get_tabulate {α : Type} {n : Nat} (f : Nat → α) (i : Fin n) :
    (Bank.tabulate n f).get i = f i.val := by
  simp [Bank.get, Bank.tabulate]

theorem Bank.ext_get {α : Type} {n : Nat} {a b : Bank α n} (h : ∀ i, a.get i = b.get i) : a = b := by
  apply Bank.ext_cells
  apply List.ext_getElem
  · rw [a.length_eq, b.length_eq]
  · intro i h1 _
    have := h ⟨i, by rw [← a.length_eq]; exact h1⟩
    simpa [Bank.get] using this

@[simp] theorem Bank.set_get_self {α : Type} {n : Nat} (b : Bank α n) (i : Fin n) : b.set i (b.get i) = b :=
  Bank.ext_get fun j => by rw [Bank.get_set]; split <;> simp_all

end Sys2Proof
end

