-- ==== Sys2Proof/Laws/Memory.lean ====
section
/-! SUPPORT. The laws of byte spaces: what an append does to every address, and that the canonical form is kept. -/

namespace Sys2Proof.Machine

theorem Memory.wf_iff (m : Memory) :
    m.wf = true ↔ m.cells.Pairwise (fun x y => x.1 < y.1) ∧ ∀ x ∈ m.cells, x.1 < m.size ∧ x.2 ≠ 0#8 := by
  simp [Memory.wf]

theorem Memory.empty_wf : Memory.empty.wf = true := by decide

@[simp] theorem Memory.size_empty : Memory.empty.size = 0 := rfl

@[simp] theorem Memory.size_append (m : Memory) (b : Byte) : (m.append b).size = m.size + 1 := rfl

/-- The append keeps the canonical form. -/
theorem Memory.append_wf {m : Memory} (h : m.wf = true) (b : Byte) : (m.append b).wf = true := by
  rw [Memory.wf_iff] at h ⊢
  obtain ⟨hp, hm⟩ := h
  by_cases hb : b = 0#8
  · have : (m.append b).cells = m.cells := by simp [Memory.append, hb]
    rw [this]
    exact ⟨hp, fun x hx => ⟨Nat.lt_succ_of_lt (hm x hx).1, (hm x hx).2⟩⟩
  · have : (m.append b).cells = m.cells ++ [(m.size, b)] := by simp [Memory.append, hb]
    rw [this, List.pairwise_append]
    refine ⟨⟨hp, by simp, fun x hx y hy => ?_⟩, fun x hx => ?_⟩
    · have : y = (m.size, b) := by simpa using hy
      subst this; exact (hm x hx).1
    · rcases List.mem_append.mp hx with hx | hx
      · exact ⟨Nat.lt_succ_of_lt (hm x hx).1, (hm x hx).2⟩
      · have : x = (m.size, b) := by simpa using hx
        subst this; exact ⟨Nat.lt_succ_self _, hb⟩

theorem lookup_eq_none_of_lt {cells : List Host.Cell} {a : Nat} (h : ∀ x ∈ cells, x.1 < a) :
    cells.lookup a = none := by
  induction cells with
  | nil => rfl
  | cons x xs ih =>
    have hx : x.1 < a := h x (by simp)
    have hne : (a == x.1) = false := by simp; omega
    rw [List.lookup_cons, hne]
    exact ih fun y hy => h y (by simp [hy])

/-- What every address of an appended space reads as. -/
theorem Memory.read_append {m : Memory} (h : m.wf = true) (b : Byte) (a : Nat) :
    (m.append b).read a = if a = m.size then some b else m.read a := by
  rw [Memory.wf_iff] at h
  have hlt : ∀ x ∈ m.cells, x.1 < m.size := fun x hx => (h.2 x hx).1
  have hnone := lookup_eq_none_of_lt hlt
  unfold Memory.read
  rw [Memory.size_append]
  by_cases hb : b = 0#8
  · have hc : (m.append b).cells = m.cells := by simp [Memory.append, hb]
    rw [hc]
    by_cases ha : a = m.size
    · subst ha; simp [hnone, hb]
    · have : (a < m.size + 1) = (a < m.size) := by apply propext; omega
      simp [ha, this]
  · have hc : (m.append b).cells = m.cells ++ [(m.size, b)] := by simp [Memory.append, hb]
    rw [hc, List.lookup_append]
    by_cases ha : a = m.size
    · subst ha; simp [hnone]
    · have hn : [(m.size, b)].lookup a = none := by
        have : (a == m.size) = false := by simpa using ha
        rw [List.lookup_cons, this]; rfl
      have hl : (a < m.size + 1) = (a < m.size) := by apply propext; omega
      rw [hn]
      simp [ha, hl]

@[simp] theorem Memory.size_appendAll (m : Memory) (bs : List Byte) :
    (m.appendAll bs).size = m.size + bs.length := by
  induction bs generalizing m with
  | nil => rfl
  | cons b bs ih =>
    have : m.appendAll (b :: bs) = (m.append b).appendAll bs := rfl
    rw [this, ih, Memory.size_append, List.length_cons]; omega

theorem Memory.appendAll_wf {m : Memory} (h : m.wf = true) (bs : List Byte) : (m.appendAll bs).wf = true := by
  induction bs generalizing m with
  | nil => exact h
  | cons b bs ih => exact ih (Memory.append_wf h b)

/-- What every address reads as after several appends. -/
theorem Memory.read_appendAll {m : Memory} (h : m.wf = true) (bs : List Byte) (a : Nat) :
    (m.appendAll bs).read a = if a < m.size then m.read a else bs[a - m.size]? := by
  induction bs generalizing m with
  | nil =>
    have : m.appendAll [] = m := rfl
    rw [this]
    split
    · rfl
    · next hl => simp [Memory.read, hl]
  | cons b bs ih =>
    have : m.appendAll (b :: bs) = (m.append b).appendAll bs := rfl
    rw [this, ih (Memory.append_wf h b), Memory.read_append h, Memory.size_append]
    by_cases ha : a = m.size
    · subst ha; simp
    · by_cases hl : a < m.size
      · have : a < m.size + 1 := by omega
        simp [hl, this, ha]
      · have h1 : ¬ a < m.size + 1 := by omega
        have h2 : a - m.size = (a - (m.size + 1)) + 1 := by omega
        simp [hl, h1, h2]

theorem Memory.ofBytes_wf (bs : List Byte) : (Memory.ofBytes bs).wf = true :=
  Memory.appendAll_wf Memory.empty_wf bs

@[simp] theorem Memory.size_ofBytes (bs : List Byte) : (Memory.ofBytes bs).size = bs.length := by
  simp [Memory.ofBytes]

@[simp] theorem Memory.read_ofBytes (bs : List Byte) (a : Nat) : (Memory.ofBytes bs).read a = bs[a]? := by
  rw [Memory.ofBytes, Memory.read_appendAll Memory.empty_wf]
  simp

theorem Memory.read_eq_none_iff (m : Memory) (a : Nat) : m.read a = none ↔ m.size ≤ a := by
  unfold Memory.read; split <;> simp <;> omega

theorem Memory.read_isSome_iff (m : Memory) (a : Nat) : (m.read a).isSome = true ↔ a < m.size := by
  unfold Memory.read; split <;> simp_all

end Sys2Proof.Machine
end

