-- ==== Sys2Proof/Laws/Bits.lean ====
section
/-! SUPPORT. The laws of bit strings: the number they spell, the bits of a number, and the bits of a byte space. -/

namespace Sys2Proof.Machine

theorem bitsToNat_foldl (bits : List Bool) (v : Nat) :
    bits.foldl (fun v b => 2 * v + b.toNat) v = v * 2 ^ bits.length + bitsToNat bits := by
  induction bits generalizing v with
  | nil => simp [bitsToNat]
  | cons b bs ih =>
    simp only [List.foldl_cons, List.length_cons, bitsToNat]
    rw [ih, ih (2 * 0 + b.toNat)]
    ring

theorem bitsToNat_cons (b : Bool) (bits : List Bool) :
    bitsToNat (b :: bits) = b.toNat * 2 ^ bits.length + bitsToNat bits := by
  have := bitsToNat_foldl bits b.toNat
  simpa [bitsToNat] using this

/-- `n` bits spell a number below `2^n`. -/
theorem bitsToNat_lt (bits : List Bool) : bitsToNat bits < 2 ^ bits.length := by
  induction bits with
  | nil => simp [bitsToNat]
  | cons b bs ih =>
    rw [bitsToNat_cons, List.length_cons, pow_succ]
    cases b <;> simp <;> omega

/-- Bit `i` of the number that bits spell, counted from the last of them. -/
theorem bitsToNat_testBit (bits : List Bool) (i : Nat) :
    (bitsToNat bits).testBit i = if h : i < bits.length then bits[bits.length - 1 - i] else false := by
  induction bits with
  | nil => simp [bitsToNat]
  | cons b bs ih =>
    have hlt := bitsToNat_lt bs
    rw [bitsToNat_cons]
    by_cases h : i < bs.length
    · have h' : i < (b :: bs).length := by simp; omega
      rw [dif_pos h', mul_comm, Nat.testBit_two_pow_mul_add _ hlt, if_pos h, ih, dif_pos h]
      rw [List.getElem_cons, dif_neg (by simp; omega)]
      congr 1
      simp only [List.length_cons]; omega
    · rw [mul_comm, Nat.testBit_two_pow_mul_add _ hlt, if_neg h]
      by_cases h2 : i = bs.length
      · subst h2
        have h' : bs.length < (b :: bs).length := by simp
        rw [dif_pos h']
        cases b <;> simp
      · have h' : ¬ i < (b :: bs).length := by simp; omega
        rw [dif_neg h']
        have : 0 < i - bs.length := by omega
        apply Nat.testBit_lt_two_pow
        have h2 : 2 ^ 1 ≤ 2 ^ (i - bs.length) := Nat.pow_le_pow_right (by omega) this
        cases b
        · simp
        · simp only [Bool.toNat_true]; omega

@[simp] theorem natToBits_length (w v : Nat) : (natToBits w v).length = w := by simp [natToBits]

theorem natToBits_getElem (w v i : Nat) (h : i < (natToBits w v).length) :
    (natToBits w v)[i] = v.testBit (w - 1 - i) := by simp [natToBits]

/-- The bits of a number spell it, taken modulo their count. -/
theorem bitsToNat_natToBits (w v : Nat) : bitsToNat (natToBits w v) = v % 2 ^ w := by
  apply Nat.eq_of_testBit_eq
  intro i
  rw [bitsToNat_testBit, Nat.testBit_mod_two_pow]
  by_cases h : i < w
  · simp only [natToBits_length, h, dite_true, natToBits_getElem, decide_true, Bool.true_and]
    congr 1; omega
  · simp [h]

/-- Bits are the bits of the number they spell. -/
theorem natToBits_bitsToNat (bits : List Bool) : natToBits bits.length (bitsToNat bits) = bits := by
  apply List.ext_getElem
  · simp
  · intro i h1 h2
    rw [natToBits_getElem, bitsToNat_testBit]
    have : bits.length - 1 - i < bits.length := by omega
    rw [dif_pos this]
    congr 1; omega

@[simp] theorem Memory.bits_length (m : Memory) (b n : Nat) : (m.bits b n).length = n := by simp [Memory.bits]

theorem Memory.bits_getElem (m : Memory) (b n i : Nat) (h : i < (m.bits b n).length) :
    (m.bits b n)[i] = m.bit (b + i) := by simp [Memory.bits]

/-- Bit `i` of a field, counted from its last stream bit. -/
theorem Memory.testBit_bits (m : Memory) (b n i : Nat) :
    (bitsToNat (m.bits b n)).testBit i = if i < n then m.bit (b + (n - 1 - i)) else false := by
  rw [bitsToNat_testBit]
  by_cases h : i < n
  · simp [h, Memory.bits_getElem]
  · simp [h]

/-- A field of `n + k` bits is a field of `n` bits followed by one of `k` bits. -/
theorem Memory.bits_add (m : Memory) (b n k : Nat) : m.bits b (n + k) = m.bits b n ++ m.bits (b + n) k := by
  simp [Memory.bits, List.range_add, Function.comp_def, Nat.add_assoc]

theorem bitsToNat_append (a b : List Bool) : bitsToNat (a ++ b) = bitsToNat a * 2 ^ b.length + bitsToNat b := by
  have := bitsToNat_foldl b (bitsToNat a)
  rw [← this]
  simp [bitsToNat]

/-- Stream bit `k` of byte `p`. -/
theorem Memory.bit_eq {m : Memory} {p : Nat} {b : Byte} (h : m.read p = some b) (k : Nat) (hk : k < 8) :
    m.bit (8 * p + k) = b.getLsbD (7 - k) := by
  unfold Memory.bit
  rw [show (8 * p + k) / 8 = p by omega, show (8 * p + k) % 8 = k by omega, h]
  rfl

/-- The eight stream bits of a byte are its bits, bit 7 first. -/
theorem Memory.bits_byte {m : Memory} {p : Nat} {b : Byte} (h : m.read p = some b) : m.bits (8 * p) 8 = byteToBits b := by
  apply List.ext_getElem
  · simp [byteToBits]
  · intro i h1 h2
    have hi : i < 8 := by simpa using h1
    rw [Memory.bits_getElem, Memory.bit_eq h i hi]
    simp only [byteToBits, natToBits_getElem, BitVec.testBit_toNat]

/-- The number a byte's stream bits spell is the byte. -/
theorem Memory.bitsToNat_byte {m : Memory} {p : Nat} {b : Byte} (h : m.read p = some b) :
    bitsToNat (m.bits (8 * p) 8) = b.toNat := by
  rw [Memory.bits_byte h, byteToBits, bitsToNat_natToBits]
  exact Nat.mod_eq_of_lt b.isLt

end Sys2Proof.Machine
end

