-- ==== Sys2Proof/Laws/State.lean ====
section
/-! SUPPORT. One lemma per field per update of the state, each true by rfl. -/

namespace Sys2Proof.Machine

variable (s : State)

@[simp] theorem State.advance_cfg (n : Nat) : (s.advance n).cfg = s.cfg := rfl
@[simp] theorem State.advance_input (n : Nat) : (s.advance n).input = s.input := rfl
@[simp] theorem State.advance_bp (n : Nat) : (s.advance n).bp = s.bp + n := rfl
@[simp] theorem State.advance_ahead (n : Nat) : (s.advance n).ahead = s.ahead := rfl
@[simp] theorem State.advance_fsm (n : Nat) : (s.advance n).fsm = s.fsm := rfl
@[simp] theorem State.advance_pos (n : Nat) : (s.advance n).pos = s.pos := rfl
@[simp] theorem State.advance_hdr (n : Nat) : (s.advance n).hdr = s.hdr := rfl
@[simp] theorem State.advance_latch (n : Nat) : (s.advance n).latch = s.latch := rfl
@[simp] theorem State.advance_frames (n : Nat) : (s.advance n).frames = s.frames := rfl
@[simp] theorem State.advance_nsamp (n : Nat) : (s.advance n).nsamp = s.nsamp := rfl
@[simp] theorem State.advance_errCode (n : Nat) : (s.advance n).errCode = s.errCode := rfl
@[simp] theorem State.advance_work (n : Nat) : (s.advance n).work = s.work := rfl
@[simp] theorem State.advance_synth (n : Nat) : (s.advance n).synth = s.synth := rfl
@[simp] theorem State.advance_out (n : Nat) : (s.advance n).out = s.out := rfl
@[simp] theorem State.advance_endBit (n : Nat) : (s.advance n).endBit = s.endBit := rfl

@[simp] theorem State.goto_cfg (f : Fsm) (p : Pos) : (s.goto f p).cfg = s.cfg := rfl
@[simp] theorem State.goto_input (f : Fsm) (p : Pos) : (s.goto f p).input = s.input := rfl
@[simp] theorem State.goto_bp (f : Fsm) (p : Pos) : (s.goto f p).bp = s.bp := rfl
@[simp] theorem State.goto_ahead (f : Fsm) (p : Pos) : (s.goto f p).ahead = s.ahead := rfl
@[simp] theorem State.goto_fsm (f : Fsm) (p : Pos) : (s.goto f p).fsm = f := rfl
@[simp] theorem State.goto_pos (f : Fsm) (p : Pos) : (s.goto f p).pos = p := rfl
@[simp] theorem State.goto_hdr (f : Fsm) (p : Pos) : (s.goto f p).hdr = s.hdr := rfl
@[simp] theorem State.goto_latch (f : Fsm) (p : Pos) : (s.goto f p).latch = s.latch := rfl
@[simp] theorem State.goto_frames (f : Fsm) (p : Pos) : (s.goto f p).frames = s.frames := rfl
@[simp] theorem State.goto_nsamp (f : Fsm) (p : Pos) : (s.goto f p).nsamp = s.nsamp := rfl
@[simp] theorem State.goto_errCode (f : Fsm) (p : Pos) : (s.goto f p).errCode = s.errCode := rfl
@[simp] theorem State.goto_work (f : Fsm) (p : Pos) : (s.goto f p).work = s.work := rfl
@[simp] theorem State.goto_synth (f : Fsm) (p : Pos) : (s.goto f p).synth = s.synth := rfl
@[simp] theorem State.goto_out (f : Fsm) (p : Pos) : (s.goto f p).out = s.out := rfl
@[simp] theorem State.goto_endBit (f : Fsm) (p : Pos) : (s.goto f p).endBit = s.endBit := rfl

@[simp] theorem State.raise_cfg (e : ErrCode) : (s.raise e).cfg = s.cfg := rfl
@[simp] theorem State.raise_input (e : ErrCode) : (s.raise e).input = s.input := rfl
@[simp] theorem State.raise_bp (e : ErrCode) : (s.raise e).bp = s.bp := rfl
@[simp] theorem State.raise_ahead (e : ErrCode) : (s.raise e).ahead = s.ahead := rfl
@[simp] theorem State.raise_fsm (e : ErrCode) : (s.raise e).fsm = .error := rfl
@[simp] theorem State.raise_pos (e : ErrCode) : (s.raise e).pos = s.pos := rfl
@[simp] theorem State.raise_hdr (e : ErrCode) : (s.raise e).hdr = s.hdr := rfl
@[simp] theorem State.raise_latch (e : ErrCode) : (s.raise e).latch = s.latch := rfl
@[simp] theorem State.raise_frames (e : ErrCode) : (s.raise e).frames = s.frames := rfl
@[simp] theorem State.raise_nsamp (e : ErrCode) : (s.raise e).nsamp = s.nsamp := rfl
@[simp] theorem State.raise_errCode (e : ErrCode) : (s.raise e).errCode = e := rfl
@[simp] theorem State.raise_work (e : ErrCode) : (s.raise e).work = s.work := rfl
@[simp] theorem State.raise_synth (e : ErrCode) : (s.raise e).synth = s.synth := rfl
@[simp] theorem State.raise_out (e : ErrCode) : (s.raise e).out = s.out := rfl
@[simp] theorem State.raise_endBit (e : ErrCode) : (s.raise e).endBit = s.endBit := rfl

@[simp] theorem State.withWork_cfg (w : WorkRegs) : (s.withWork w).cfg = s.cfg := rfl
@[simp] theorem State.withWork_input (w : WorkRegs) : (s.withWork w).input = s.input := rfl
@[simp] theorem State.withWork_bp (w : WorkRegs) : (s.withWork w).bp = s.bp := rfl
@[simp] theorem State.withWork_ahead (w : WorkRegs) : (s.withWork w).ahead = s.ahead := rfl
@[simp] theorem State.withWork_fsm (w : WorkRegs) : (s.withWork w).fsm = s.fsm := rfl
@[simp] theorem State.withWork_pos (w : WorkRegs) : (s.withWork w).pos = s.pos := rfl
@[simp] theorem State.withWork_hdr (w : WorkRegs) : (s.withWork w).hdr = s.hdr := rfl
@[simp] theorem State.withWork_latch (w : WorkRegs) : (s.withWork w).latch = s.latch := rfl
@[simp] theorem State.withWork_frames (w : WorkRegs) : (s.withWork w).frames = s.frames := rfl
@[simp] theorem State.withWork_nsamp (w : WorkRegs) : (s.withWork w).nsamp = s.nsamp := rfl
@[simp] theorem State.withWork_errCode (w : WorkRegs) : (s.withWork w).errCode = s.errCode := rfl
@[simp] theorem State.withWork_work (w : WorkRegs) : (s.withWork w).work = w := rfl
@[simp] theorem State.withWork_synth (w : WorkRegs) : (s.withWork w).synth = s.synth := rfl
@[simp] theorem State.withWork_out (w : WorkRegs) : (s.withWork w).out = s.out := rfl
@[simp] theorem State.withWork_endBit (w : WorkRegs) : (s.withWork w).endBit = s.endBit := rfl

@[simp] theorem State.skipByte_cfg : (s.skipByte).cfg = s.cfg := rfl
@[simp] theorem State.skipByte_input : (s.skipByte).input = s.input := rfl
@[simp] theorem State.skipByte_bp : (s.skipByte).bp = 8 * (s.byteIndex + 1) := rfl
@[simp] theorem State.skipByte_ahead : (s.skipByte).ahead = s.testsSuccessor := rfl
@[simp] theorem State.skipByte_fsm : (s.skipByte).fsm = s.fsm := rfl
@[simp] theorem State.skipByte_pos : (s.skipByte).pos = s.pos := rfl
@[simp] theorem State.skipByte_hdr : (s.skipByte).hdr = s.hdr := rfl
@[simp] theorem State.skipByte_latch : (s.skipByte).latch = s.latch := rfl
@[simp] theorem State.skipByte_frames : (s.skipByte).frames = s.frames := rfl
@[simp] theorem State.skipByte_nsamp : (s.skipByte).nsamp = s.nsamp := rfl
@[simp] theorem State.skipByte_errCode : (s.skipByte).errCode = s.errCode := rfl
@[simp] theorem State.skipByte_work : (s.skipByte).work = s.work := rfl
@[simp] theorem State.skipByte_synth : (s.skipByte).synth = s.synth := rfl
@[simp] theorem State.skipByte_out : (s.skipByte).out = s.out := rfl
@[simp] theorem State.skipByte_endBit : (s.skipByte).endBit = s.endBit := rfl

@[simp] theorem State.acceptCandidate_cfg : (s.acceptCandidate).cfg = s.cfg := rfl
@[simp] theorem State.acceptCandidate_input : (s.acceptCandidate).input = s.input := rfl
@[simp] theorem State.acceptCandidate_bp : (s.acceptCandidate).bp = 8 * (s.byteIndex + 1) + 4 := rfl
@[simp] theorem State.acceptCandidate_ahead : (s.acceptCandidate).ahead = false := rfl
@[simp] theorem State.acceptCandidate_fsm : (s.acceptCandidate).fsm = .header := rfl
@[simp] theorem State.acceptCandidate_pos : (s.acceptCandidate).pos = s.pos := rfl
@[simp] theorem State.acceptCandidate_hdr : (s.acceptCandidate).hdr = s.hdr := rfl
@[simp] theorem State.acceptCandidate_latch : (s.acceptCandidate).latch = s.latch := rfl
@[simp] theorem State.acceptCandidate_frames : (s.acceptCandidate).frames = s.frames := rfl
@[simp] theorem State.acceptCandidate_nsamp : (s.acceptCandidate).nsamp = s.nsamp := rfl
@[simp] theorem State.acceptCandidate_errCode : (s.acceptCandidate).errCode = s.errCode := rfl
@[simp] theorem State.acceptCandidate_work : (s.acceptCandidate).work = s.work := rfl
@[simp] theorem State.acceptCandidate_synth : (s.acceptCandidate).synth = s.synth := rfl
@[simp] theorem State.acceptCandidate_out : (s.acceptCandidate).out = s.out := rfl
@[simp] theorem State.acceptCandidate_endBit : (s.acceptCandidate).endBit = s.endBit := rfl

@[simp] theorem State.loadHeader_cfg (l : BitVec 2) (h : HdrFields) : (s.loadHeader l h).cfg = s.cfg := rfl
@[simp] theorem State.loadHeader_input (l : BitVec 2) (h : HdrFields) : (s.loadHeader l h).input = s.input := rfl
@[simp] theorem State.loadHeader_bp (l : BitVec 2) (h : HdrFields) : (s.loadHeader l h).bp = s.bp := rfl
@[simp] theorem State.loadHeader_ahead (l : BitVec 2) (h : HdrFields) : (s.loadHeader l h).ahead = s.ahead := rfl
@[simp] theorem State.loadHeader_fsm (l : BitVec 2) (h : HdrFields) : (s.loadHeader l h).fsm = s.fsm := rfl
@[simp] theorem State.loadHeader_pos (l : BitVec 2) (h : HdrFields) : (s.loadHeader l h).pos = s.pos := rfl
@[simp] theorem State.loadHeader_latch (l : BitVec 2) (h : HdrFields) : (s.loadHeader l h).latch = s.latch := rfl
@[simp] theorem State.loadHeader_frames (l : BitVec 2) (h : HdrFields) : (s.loadHeader l h).frames = s.frames := rfl
@[simp] theorem State.loadHeader_nsamp (l : BitVec 2) (h : HdrFields) : (s.loadHeader l h).nsamp = s.nsamp := rfl
@[simp] theorem State.loadHeader_errCode (l : BitVec 2) (h : HdrFields) : (s.loadHeader l h).errCode = s.errCode := rfl
@[simp] theorem State.loadHeader_work (l : BitVec 2) (h : HdrFields) : (s.loadHeader l h).work = s.work := rfl
@[simp] theorem State.loadHeader_synth (l : BitVec 2) (h : HdrFields) : (s.loadHeader l h).synth = s.synth := rfl
@[simp] theorem State.loadHeader_out (l : BitVec 2) (h : HdrFields) : (s.loadHeader l h).out = s.out := rfl
@[simp] theorem State.loadHeader_endBit (l : BitVec 2) (h : HdrFields) : (s.loadHeader l h).endBit = s.endBit := rfl

@[simp] theorem State.resolveHeader_cfg (k : LayerKind) : (s.resolveHeader k).cfg = s.cfg := rfl
@[simp] theorem State.resolveHeader_input (k : LayerKind) : (s.resolveHeader k).input = s.input := rfl
@[simp] theorem State.resolveHeader_bp (k : LayerKind) : (s.resolveHeader k).bp = s.bp := rfl
@[simp] theorem State.resolveHeader_ahead (k : LayerKind) : (s.resolveHeader k).ahead = s.ahead := rfl
@[simp] theorem State.resolveHeader_fsm (k : LayerKind) : (s.resolveHeader k).fsm = s.fsm := rfl
@[simp] theorem State.resolveHeader_pos (k : LayerKind) : (s.resolveHeader k).pos = s.pos := rfl
@[simp] theorem State.resolveHeader_latch (k : LayerKind) : (s.resolveHeader k).latch = s.latch := rfl
@[simp] theorem State.resolveHeader_frames (k : LayerKind) : (s.resolveHeader k).frames = s.frames := rfl
@[simp] theorem State.resolveHeader_nsamp (k : LayerKind) : (s.resolveHeader k).nsamp = s.nsamp := rfl
@[simp] theorem State.resolveHeader_errCode (k : LayerKind) : (s.resolveHeader k).errCode = s.errCode := rfl
@[simp] theorem State.resolveHeader_work (k : LayerKind) : (s.resolveHeader k).work = s.work := rfl
@[simp] theorem State.resolveHeader_synth (k : LayerKind) : (s.resolveHeader k).synth = s.synth := rfl
@[simp] theorem State.resolveHeader_out (k : LayerKind) : (s.resolveHeader k).out = s.out := rfl
@[simp] theorem State.resolveHeader_endBit (k : LayerKind) : (s.resolveHeader k).endBit = s.endBit := rfl

@[simp] theorem State.completeFrame_cfg : (s.completeFrame).cfg = s.cfg := rfl
@[simp] theorem State.completeFrame_input : (s.completeFrame).input = s.input := rfl
@[simp] theorem State.completeFrame_bp : (s.completeFrame).bp = s.bp := rfl
@[simp] theorem State.completeFrame_ahead : (s.completeFrame).ahead = s.ahead := rfl
@[simp] theorem State.completeFrame_fsm : (s.completeFrame).fsm = .seekSync := rfl
@[simp] theorem State.completeFrame_pos : (s.completeFrame).pos = .idle := rfl
@[simp] theorem State.completeFrame_hdr : (s.completeFrame).hdr = s.hdr := rfl
@[simp] theorem State.completeFrame_latch : (s.completeFrame).latch = s.latch := rfl
@[simp] theorem State.completeFrame_frames : (s.completeFrame).frames = s.frames + 1 := rfl
@[simp] theorem State.completeFrame_nsamp : (s.completeFrame).nsamp = s.nsamp := rfl
@[simp] theorem State.completeFrame_errCode : (s.completeFrame).errCode = s.errCode := rfl
@[simp] theorem State.completeFrame_work : (s.completeFrame).work = s.work := rfl
@[simp] theorem State.completeFrame_synth : (s.completeFrame).synth = s.synth := rfl
@[simp] theorem State.completeFrame_out : (s.completeFrame).out = s.out := rfl
@[simp] theorem State.completeFrame_endBit : (s.completeFrame).endBit = s.endBit := rfl

@[simp] theorem State.endRun_cfg : (s.endRun).cfg = s.cfg := rfl
@[simp] theorem State.endRun_input : (s.endRun).input = s.input := rfl
@[simp] theorem State.endRun_bp : (s.endRun).bp = s.endBit := rfl
@[simp] theorem State.endRun_ahead : (s.endRun).ahead = false := rfl
@[simp] theorem State.endRun_fsm : (s.endRun).fsm = .done := rfl
@[simp] theorem State.endRun_pos : (s.endRun).pos = s.pos := rfl
@[simp] theorem State.endRun_hdr : (s.endRun).hdr = s.hdr := rfl
@[simp] theorem State.endRun_latch : (s.endRun).latch = s.latch := rfl
@[simp] theorem State.endRun_frames : (s.endRun).frames = s.frames := rfl
@[simp] theorem State.endRun_nsamp : (s.endRun).nsamp = s.nsamp := rfl
@[simp] theorem State.endRun_errCode : (s.endRun).errCode = s.errCode := rfl
@[simp] theorem State.endRun_work : (s.endRun).work = s.work := rfl
@[simp] theorem State.endRun_synth : (s.endRun).synth = s.synth := rfl
@[simp] theorem State.endRun_out : (s.endRun).out = s.out := rfl
@[simp] theorem State.endRun_endBit : (s.endRun).endBit = s.endBit := rfl

@[simp] theorem State.emitSlot_cfg : (s.emitSlot).cfg = s.cfg := rfl
@[simp] theorem State.emitSlot_input : (s.emitSlot).input = s.input := rfl
@[simp] theorem State.emitSlot_bp : (s.emitSlot).bp = s.bp := rfl
@[simp] theorem State.emitSlot_ahead : (s.emitSlot).ahead = s.ahead := rfl
@[simp] theorem State.emitSlot_fsm : (s.emitSlot).fsm = s.fsm := rfl
@[simp] theorem State.emitSlot_pos : (s.emitSlot).pos = s.pos := rfl
@[simp] theorem State.emitSlot_hdr : (s.emitSlot).hdr = s.hdr := rfl
@[simp] theorem State.emitSlot_latch : (s.emitSlot).latch = s.latch := rfl
@[simp] theorem State.emitSlot_frames : (s.emitSlot).frames = s.frames := rfl
@[simp] theorem State.emitSlot_nsamp : (s.emitSlot).nsamp = s.nsamp + 32 := rfl
@[simp] theorem State.emitSlot_errCode : (s.emitSlot).errCode = s.errCode := rfl
@[simp] theorem State.emitSlot_work : (s.emitSlot).work = s.work := rfl
@[simp] theorem State.emitSlot_synth : (s.emitSlot).synth = s.synth := rfl
@[simp] theorem State.emitSlot_out : (s.emitSlot).out = s.out.appendAll s.slotBytes := rfl
@[simp] theorem State.emitSlot_endBit : (s.emitSlot).endBit = s.endBit := rfl

@[simp] theorem State.clearBody_cfg : (s.clearBody).cfg = s.cfg := rfl
@[simp] theorem State.clearBody_input : (s.clearBody).input = s.input := rfl
@[simp] theorem State.clearBody_bp : (s.clearBody).bp = s.bp := rfl
@[simp] theorem State.clearBody_ahead : (s.clearBody).ahead = s.ahead := rfl
@[simp] theorem State.clearBody_fsm : (s.clearBody).fsm = s.fsm := rfl
@[simp] theorem State.clearBody_pos : (s.clearBody).pos = s.pos := rfl
@[simp] theorem State.clearBody_hdr : (s.clearBody).hdr = s.hdr := rfl
@[simp] theorem State.clearBody_latch : (s.clearBody).latch = s.latch := rfl
@[simp] theorem State.clearBody_frames : (s.clearBody).frames = s.frames := rfl
@[simp] theorem State.clearBody_nsamp : (s.clearBody).nsamp = s.nsamp := rfl
@[simp] theorem State.clearBody_errCode : (s.clearBody).errCode = s.errCode := rfl
@[simp] theorem State.clearBody_synth : (s.clearBody).synth = s.synth := rfl
@[simp] theorem State.clearBody_out : (s.clearBody).out = s.out := rfl
@[simp] theorem State.clearBody_endBit : (s.clearBody).endBit = s.endBit := rfl

@[simp] theorem State.selectL2Set_cfg : (s.selectL2Set).cfg = s.cfg := rfl
@[simp] theorem State.selectL2Set_input : (s.selectL2Set).input = s.input := rfl
@[simp] theorem State.selectL2Set_bp : (s.selectL2Set).bp = s.bp := rfl
@[simp] theorem State.selectL2Set_ahead : (s.selectL2Set).ahead = s.ahead := rfl
@[simp] theorem State.selectL2Set_fsm : (s.selectL2Set).fsm = s.fsm := rfl
@[simp] theorem State.selectL2Set_pos : (s.selectL2Set).pos = s.pos := rfl
@[simp] theorem State.selectL2Set_hdr : (s.selectL2Set).hdr = s.hdr := rfl
@[simp] theorem State.selectL2Set_latch : (s.selectL2Set).latch = s.latch := rfl
@[simp] theorem State.selectL2Set_frames : (s.selectL2Set).frames = s.frames := rfl
@[simp] theorem State.selectL2Set_nsamp : (s.selectL2Set).nsamp = s.nsamp := rfl
@[simp] theorem State.selectL2Set_errCode : (s.selectL2Set).errCode = s.errCode := rfl
@[simp] theorem State.selectL2Set_synth : (s.selectL2Set).synth = s.synth := rfl
@[simp] theorem State.selectL2Set_out : (s.selectL2Set).out = s.out := rfl
@[simp] theorem State.selectL2Set_endBit : (s.selectL2Set).endBit = s.endBit := rfl

@[simp] theorem State.storeAlloc_cfg (c : SubCh) (a : BitVec 4) : (s.storeAlloc c a).cfg = s.cfg := rfl
@[simp] theorem State.storeAlloc_input (c : SubCh) (a : BitVec 4) : (s.storeAlloc c a).input = s.input := rfl
@[simp] theorem State.storeAlloc_bp (c : SubCh) (a : BitVec 4) : (s.storeAlloc c a).bp = s.bp := rfl
@[simp] theorem State.storeAlloc_ahead (c : SubCh) (a : BitVec 4) : (s.storeAlloc c a).ahead = s.ahead := rfl
@[simp] theorem State.storeAlloc_fsm (c : SubCh) (a : BitVec 4) : (s.storeAlloc c a).fsm = s.fsm := rfl
@[simp] theorem State.storeAlloc_pos (c : SubCh) (a : BitVec 4) : (s.storeAlloc c a).pos = s.pos := rfl
@[simp] theorem State.storeAlloc_hdr (c : SubCh) (a : BitVec 4) : (s.storeAlloc c a).hdr = s.hdr := rfl
@[simp] theorem State.storeAlloc_latch (c : SubCh) (a : BitVec 4) : (s.storeAlloc c a).latch = s.latch := rfl
@[simp] theorem State.storeAlloc_frames (c : SubCh) (a : BitVec 4) : (s.storeAlloc c a).frames = s.frames := rfl
@[simp] theorem State.storeAlloc_nsamp (c : SubCh) (a : BitVec 4) : (s.storeAlloc c a).nsamp = s.nsamp := rfl
@[simp] theorem State.storeAlloc_errCode (c : SubCh) (a : BitVec 4) : (s.storeAlloc c a).errCode = s.errCode := rfl
@[simp] theorem State.storeAlloc_work (c : SubCh) (a : BitVec 4) : (s.storeAlloc c a).work = (s.targets c).foldl (fun w ch => w.setAlloc ch c.sb a) s.work := rfl
@[simp] theorem State.storeAlloc_synth (c : SubCh) (a : BitVec 4) : (s.storeAlloc c a).synth = s.synth := rfl
@[simp] theorem State.storeAlloc_out (c : SubCh) (a : BitVec 4) : (s.storeAlloc c a).out = s.out := rfl
@[simp] theorem State.storeAlloc_endBit (c : SubCh) (a : BitVec 4) : (s.storeAlloc c a).endBit = s.endBit := rfl

@[simp] theorem State.storeSample_cfg (c : SubCh) (t : Fin 36) (p : Fin 3) (f : NumVal) : (s.storeSample c t p f).cfg = s.cfg := rfl
@[simp] theorem State.storeSample_input (c : SubCh) (t : Fin 36) (p : Fin 3) (f : NumVal) : (s.storeSample c t p f).input = s.input := rfl
@[simp] theorem State.storeSample_bp (c : SubCh) (t : Fin 36) (p : Fin 3) (f : NumVal) : (s.storeSample c t p f).bp = s.bp := rfl
@[simp] theorem State.storeSample_ahead (c : SubCh) (t : Fin 36) (p : Fin 3) (f : NumVal) : (s.storeSample c t p f).ahead = s.ahead := rfl
@[simp] theorem State.storeSample_fsm (c : SubCh) (t : Fin 36) (p : Fin 3) (f : NumVal) : (s.storeSample c t p f).fsm = s.fsm := rfl
@[simp] theorem State.storeSample_pos (c : SubCh) (t : Fin 36) (p : Fin 3) (f : NumVal) : (s.storeSample c t p f).pos = s.pos := rfl
@[simp] theorem State.storeSample_hdr (c : SubCh) (t : Fin 36) (p : Fin 3) (f : NumVal) : (s.storeSample c t p f).hdr = s.hdr := rfl
@[simp] theorem State.storeSample_latch (c : SubCh) (t : Fin 36) (p : Fin 3) (f : NumVal) : (s.storeSample c t p f).latch = s.latch := rfl
@[simp] theorem State.storeSample_frames (c : SubCh) (t : Fin 36) (p : Fin 3) (f : NumVal) : (s.storeSample c t p f).frames = s.frames := rfl
@[simp] theorem State.storeSample_nsamp (c : SubCh) (t : Fin 36) (p : Fin 3) (f : NumVal) : (s.storeSample c t p f).nsamp = s.nsamp := rfl
@[simp] theorem State.storeSample_errCode (c : SubCh) (t : Fin 36) (p : Fin 3) (f : NumVal) : (s.storeSample c t p f).errCode = s.errCode := rfl
@[simp] theorem State.storeSample_synth (c : SubCh) (t : Fin 36) (p : Fin 3) (f : NumVal) : (s.storeSample c t p f).synth = s.synth := rfl
@[simp] theorem State.storeSample_out (c : SubCh) (t : Fin 36) (p : Fin 3) (f : NumVal) : (s.storeSample c t p f).out = s.out := rfl
@[simp] theorem State.storeSample_endBit (c : SubCh) (t : Fin 36) (p : Fin 3) (f : NumVal) : (s.storeSample c t p f).endBit = s.endBit := rfl

@[simp] theorem State.storeScfIdx_cfg (c : SubCh) (p : BitVec 6 × BitVec 6 × BitVec 6) : (s.storeScfIdx c p).cfg = s.cfg := rfl
@[simp] theorem State.storeScfIdx_input (c : SubCh) (p : BitVec 6 × BitVec 6 × BitVec 6) : (s.storeScfIdx c p).input = s.input := rfl
@[simp] theorem State.storeScfIdx_bp (c : SubCh) (p : BitVec 6 × BitVec 6 × BitVec 6) : (s.storeScfIdx c p).bp = s.bp := rfl
@[simp] theorem State.storeScfIdx_ahead (c : SubCh) (p : BitVec 6 × BitVec 6 × BitVec 6) : (s.storeScfIdx c p).ahead = s.ahead := rfl
@[simp] theorem State.storeScfIdx_fsm (c : SubCh) (p : BitVec 6 × BitVec 6 × BitVec 6) : (s.storeScfIdx c p).fsm = s.fsm := rfl
@[simp] theorem State.storeScfIdx_pos (c : SubCh) (p : BitVec 6 × BitVec 6 × BitVec 6) : (s.storeScfIdx c p).pos = s.pos := rfl
@[simp] theorem State.storeScfIdx_hdr (c : SubCh) (p : BitVec 6 × BitVec 6 × BitVec 6) : (s.storeScfIdx c p).hdr = s.hdr := rfl
@[simp] theorem State.storeScfIdx_latch (c : SubCh) (p : BitVec 6 × BitVec 6 × BitVec 6) : (s.storeScfIdx c p).latch = s.latch := rfl
@[simp] theorem State.storeScfIdx_frames (c : SubCh) (p : BitVec 6 × BitVec 6 × BitVec 6) : (s.storeScfIdx c p).frames = s.frames := rfl
@[simp] theorem State.storeScfIdx_nsamp (c : SubCh) (p : BitVec 6 × BitVec 6 × BitVec 6) : (s.storeScfIdx c p).nsamp = s.nsamp := rfl
@[simp] theorem State.storeScfIdx_errCode (c : SubCh) (p : BitVec 6 × BitVec 6 × BitVec 6) : (s.storeScfIdx c p).errCode = s.errCode := rfl
@[simp] theorem State.storeScfIdx_synth (c : SubCh) (p : BitVec 6 × BitVec 6 × BitVec 6) : (s.storeScfIdx c p).synth = s.synth := rfl
@[simp] theorem State.storeScfIdx_out (c : SubCh) (p : BitVec 6 × BitVec 6 × BitVec 6) : (s.storeScfIdx c p).out = s.out := rfl
@[simp] theorem State.storeScfIdx_endBit (c : SubCh) (p : BitVec 6 × BitVec 6 × BitVec 6) : (s.storeScfIdx c p).endBit = s.endBit := rfl

@[simp] theorem State.loadHeader_hdr_id (l : BitVec 2) (h : HdrFields) : (s.loadHeader l h).hdr.id = h.id := rfl
@[simp] theorem State.loadHeader_hdr_layer (l : BitVec 2) (h : HdrFields) : (s.loadHeader l h).hdr.layer = l := rfl
@[simp] theorem State.loadHeader_hdr_prot (l : BitVec 2) (h : HdrFields) : (s.loadHeader l h).hdr.prot = h.prot := rfl
@[simp] theorem State.loadHeader_hdr_brIdx (l : BitVec 2) (h : HdrFields) : (s.loadHeader l h).hdr.brIdx = h.br := rfl
@[simp] theorem State.loadHeader_hdr_fsIdx (l : BitVec 2) (h : HdrFields) : (s.loadHeader l h).hdr.fsIdx = h.fs := rfl
@[simp] theorem State.loadHeader_hdr_pad (l : BitVec 2) (h : HdrFields) : (s.loadHeader l h).hdr.pad = h.pad := rfl
@[simp] theorem State.loadHeader_hdr_priv (l : BitVec 2) (h : HdrFields) : (s.loadHeader l h).hdr.priv = h.priv := rfl
@[simp] theorem State.loadHeader_hdr_mode (l : BitVec 2) (h : HdrFields) : (s.loadHeader l h).hdr.mode = h.mode := rfl
@[simp] theorem State.loadHeader_hdr_modeExt (l : BitVec 2) (h : HdrFields) : (s.loadHeader l h).hdr.modeExt = h.ext := rfl
@[simp] theorem State.loadHeader_hdr_kind (l : BitVec 2) (h : HdrFields) : (s.loadHeader l h).hdr.kind = s.hdr.kind := rfl
@[simp] theorem State.loadHeader_hdr_bitrate (l : BitVec 2) (h : HdrFields) : (s.loadHeader l h).hdr.bitrate = s.hdr.bitrate := rfl
@[simp] theorem State.loadHeader_hdr_fs (l : BitVec 2) (h : HdrFields) : (s.loadHeader l h).hdr.fs = s.hdr.fs := rfl
@[simp] theorem State.loadHeader_hdr_nch (l : BitVec 2) (h : HdrFields) : (s.loadHeader l h).hdr.nch = s.hdr.nch := rfl
@[simp] theorem State.loadHeader_hdr_bound (l : BitVec 2) (h : HdrFields) : (s.loadHeader l h).hdr.bound = s.hdr.bound := rfl

@[simp] theorem State.resolveHeader_hdr_id (k : LayerKind) : (s.resolveHeader k).hdr.id = s.hdr.id := rfl
@[simp] theorem State.resolveHeader_hdr_layer (k : LayerKind) : (s.resolveHeader k).hdr.layer = s.hdr.layer := rfl
@[simp] theorem State.resolveHeader_hdr_prot (k : LayerKind) : (s.resolveHeader k).hdr.prot = s.hdr.prot := rfl
@[simp] theorem State.resolveHeader_hdr_brIdx (k : LayerKind) : (s.resolveHeader k).hdr.brIdx = s.hdr.brIdx := rfl
@[simp] theorem State.resolveHeader_hdr_fsIdx (k : LayerKind) : (s.resolveHeader k).hdr.fsIdx = s.hdr.fsIdx := rfl
@[simp] theorem State.resolveHeader_hdr_pad (k : LayerKind) : (s.resolveHeader k).hdr.pad = s.hdr.pad := rfl
@[simp] theorem State.resolveHeader_hdr_priv (k : LayerKind) : (s.resolveHeader k).hdr.priv = s.hdr.priv := rfl
@[simp] theorem State.resolveHeader_hdr_mode (k : LayerKind) : (s.resolveHeader k).hdr.mode = s.hdr.mode := rfl
@[simp] theorem State.resolveHeader_hdr_modeExt (k : LayerKind) : (s.resolveHeader k).hdr.modeExt = s.hdr.modeExt := rfl
@[simp] theorem State.resolveHeader_hdr_kind (k : LayerKind) : (s.resolveHeader k).hdr.kind = k := rfl
@[simp] theorem State.resolveHeader_hdr_bitrate (k : LayerKind) : (s.resolveHeader k).hdr.bitrate = s.cfg.bitrateOf k s.hdr.brIdx := rfl
@[simp] theorem State.resolveHeader_hdr_fs (k : LayerKind) : (s.resolveHeader k).hdr.fs = fsTable s.hdr.fsIdx := rfl
@[simp] theorem State.resolveHeader_hdr_nch (k : LayerKind) : (s.resolveHeader k).hdr.nch = s.cfg.channelCount s.hdr.mode := rfl
@[simp] theorem State.resolveHeader_hdr_bound (k : LayerKind) : (s.resolveHeader k).hdr.bound = s.cfg.jointBound s.hdr.mode s.hdr.modeExt := rfl

@[simp] theorem State.clearBody_work_alloc : s.clearBody.work.alloc = Bank.fill 2 (Bank.fill 32 0) := rfl
@[simp] theorem State.clearBody_work_scfsi : s.clearBody.work.scfsi = s.work.scfsi := rfl
@[simp] theorem State.clearBody_work_scfIdx : s.clearBody.work.scfIdx = s.work.scfIdx := rfl
@[simp] theorem State.clearBody_work_l2Set : s.clearBody.work.l2Set = s.work.l2Set := rfl
@[simp] theorem State.clearBody_work_sbLimit : s.clearBody.work.sbLimit = s.work.sbLimit := rfl
@[simp] theorem State.clearBody_work_sample : s.clearBody.work.sample = Bank.fill 2 (Bank.fill 32 (Bank.fill 36 NumVal.zero)) := rfl
@[simp] theorem State.clearBody_work_sout : s.clearBody.work.sout = s.work.sout := rfl
@[simp] theorem State.selectL2Set_work_alloc : s.selectL2Set.work.alloc = s.work.alloc := rfl
@[simp] theorem State.selectL2Set_work_scfsi : s.selectL2Set.work.scfsi = s.work.scfsi := rfl
@[simp] theorem State.selectL2Set_work_scfIdx : s.selectL2Set.work.scfIdx = s.work.scfIdx := rfl
@[simp] theorem State.selectL2Set_work_sample : s.selectL2Set.work.sample = s.work.sample := rfl
@[simp] theorem State.selectL2Set_work_sout : s.selectL2Set.work.sout = s.work.sout := rfl
@[simp] theorem State.selectL2Set_work_l2Set :
    s.selectL2Set.work.l2Set = s.cfg.selectSet s.latch.fs (s.hdr.bitrate / s.latch.nch) := rfl
@[simp] theorem State.selectL2Set_work_sbLimit :
    s.selectL2Set.work.sbLimit = l2SbLimit s.selectL2Set.work.l2Set := rfl

variable (w : WorkRegs) (ch : Fin 2) (sb : Fin 32)

@[simp] theorem WorkRegs.setAlloc_scfsi (x : BitVec 4) : (w.setAlloc ch sb x).scfsi = w.scfsi := rfl
@[simp] theorem WorkRegs.setAlloc_scfIdx (x : BitVec 4) : (w.setAlloc ch sb x).scfIdx = w.scfIdx := rfl
@[simp] theorem WorkRegs.setAlloc_l2Set (x : BitVec 4) : (w.setAlloc ch sb x).l2Set = w.l2Set := rfl
@[simp] theorem WorkRegs.setAlloc_sbLimit (x : BitVec 4) : (w.setAlloc ch sb x).sbLimit = w.sbLimit := rfl
@[simp] theorem WorkRegs.setAlloc_sample (x : BitVec 4) : (w.setAlloc ch sb x).sample = w.sample := rfl
@[simp] theorem WorkRegs.setAlloc_sout (x : BitVec 4) : (w.setAlloc ch sb x).sout = w.sout := rfl

@[simp] theorem WorkRegs.setScfsi_alloc (x : BitVec 2) : (w.setScfsi ch sb x).alloc = w.alloc := rfl
@[simp] theorem WorkRegs.setScfsi_scfIdx (x : BitVec 2) : (w.setScfsi ch sb x).scfIdx = w.scfIdx := rfl
@[simp] theorem WorkRegs.setScfsi_l2Set (x : BitVec 2) : (w.setScfsi ch sb x).l2Set = w.l2Set := rfl
@[simp] theorem WorkRegs.setScfsi_sbLimit (x : BitVec 2) : (w.setScfsi ch sb x).sbLimit = w.sbLimit := rfl
@[simp] theorem WorkRegs.setScfsi_sample (x : BitVec 2) : (w.setScfsi ch sb x).sample = w.sample := rfl
@[simp] theorem WorkRegs.setScfsi_sout (x : BitVec 2) : (w.setScfsi ch sb x).sout = w.sout := rfl

@[simp] theorem WorkRegs.setScfIdx_alloc (p : Fin 3) (x : BitVec 6) : (w.setScfIdx ch sb p x).alloc = w.alloc := rfl
@[simp] theorem WorkRegs.setScfIdx_scfsi (p : Fin 3) (x : BitVec 6) : (w.setScfIdx ch sb p x).scfsi = w.scfsi := rfl
@[simp] theorem WorkRegs.setScfIdx_l2Set (p : Fin 3) (x : BitVec 6) : (w.setScfIdx ch sb p x).l2Set = w.l2Set := rfl
@[simp] theorem WorkRegs.setScfIdx_sbLimit (p : Fin 3) (x : BitVec 6) : (w.setScfIdx ch sb p x).sbLimit = w.sbLimit := rfl
@[simp] theorem WorkRegs.setScfIdx_sample (p : Fin 3) (x : BitVec 6) : (w.setScfIdx ch sb p x).sample = w.sample := rfl
@[simp] theorem WorkRegs.setScfIdx_sout (p : Fin 3) (x : BitVec 6) : (w.setScfIdx ch sb p x).sout = w.sout := rfl

@[simp] theorem WorkRegs.setSample_alloc (t : Fin 36) (x : NumVal) : (w.setSample ch sb t x).alloc = w.alloc := rfl
@[simp] theorem WorkRegs.setSample_scfsi (t : Fin 36) (x : NumVal) : (w.setSample ch sb t x).scfsi = w.scfsi := rfl
@[simp] theorem WorkRegs.setSample_scfIdx (t : Fin 36) (x : NumVal) : (w.setSample ch sb t x).scfIdx = w.scfIdx := rfl
@[simp] theorem WorkRegs.setSample_l2Set (t : Fin 36) (x : NumVal) : (w.setSample ch sb t x).l2Set = w.l2Set := rfl
@[simp] theorem WorkRegs.setSample_sbLimit (t : Fin 36) (x : NumVal) : (w.setSample ch sb t x).sbLimit = w.sbLimit := rfl
@[simp] theorem WorkRegs.setSample_sout (t : Fin 36) (x : NumVal) : (w.setSample ch sb t x).sout = w.sout := rfl

end Sys2Proof.Machine
end

