-- ==== Sys2Proof/Laws/Ops.lean ====
section
/-! SUPPORT. What each shared operation can do, said once: `consume`, `whenSelected`, the search for the next element, and a
step. -/

namespace Sys2Proof.Machine

theorem State.consume_of_le {s : State} {n : Nat} (k : State → State) (h : s.bp + n ≤ s.endBit) :
    s.consume n k = k (s.advance n) := by
  have : s.overruns n = false := by simp [State.overruns]; omega
  simp [State.consume, this]

theorem State.consume_of_lt {s : State} {n : Nat} (k : State → State) (h : s.endBit < s.bp + n) :
    s.consume n k = s.raise .midFrameEof := by
  simp [State.consume, State.overruns, h]

/-- Consuming a unit raises or goes on after it. -/
theorem State.consume_cases (s : State) (n : Nat) (k : State → State) :
    (s.endBit < s.bp + n ∧ s.consume n k = s.raise .midFrameEof) ∨
      (s.bp + n ≤ s.endBit ∧ s.consume n k = k (s.advance n)) := by
  by_cases h : s.endBit < s.bp + n
  · exact .inl ⟨h, State.consume_of_lt k h⟩
  · exact .inr ⟨by omega, State.consume_of_le k (by omega)⟩

theorem whenSelected_eq_next {sel : Option UnitShape} {r : Nat} {sh : UnitShape} {s t : State} :
    whenSelected sel r sh s = .next t ↔ sel = some sh ∧ readWidth sh ≤ r ∧ t = s := by
  unfold whenSelected
  split
  · next h => split <;> simp_all [eq_comm]
  · simp_all

theorem whenSelected_of_eq {sel : Option UnitShape} {r : Nat} {sh : UnitShape} (s : State) (h : sel = some sh)
    (hr : readWidth sh ≤ r) : whenSelected sel r sh s = .next s := whenSelected_eq_next.mpr ⟨h, hr, rfl⟩

theorem whenSelected_of_ne {sel : Option UnitShape} {r : Nat} {sh : UnitShape} (s : State) (h : sel ≠ some sh) :
    whenSelected sel r sh s = .refused .unitNotSelected := by simp [whenSelected, h]

/-- `ReadBits(n)`, said once: refused, raised, or the field and the cursor behind it. -/
theorem State.readBits_cases (s : State) (n : Nat) :
    (s.cfg.readMax < n ∧ s.readBits n = .refused .readTooWide) ∨
    (n ≤ s.cfg.readMax ∧ s.endBit < s.bp + n ∧ s.readBits n = .fault .midFrameEof) ∨
    (n ≤ s.cfg.readMax ∧ s.bp + n ≤ s.endBit ∧
      s.readBits n = .next (bitsToNat (s.input.bits s.bp n), s.advance n)) := by
  unfold State.readBits State.overruns
  by_cases h : s.cfg.readMax < n
  · exact .inl ⟨h, if_pos h⟩
  · rw [if_neg h]
    by_cases h2 : s.endBit < s.bp + n
    · exact .inr (.inl ⟨by omega, h2, if_pos (by simpa using h2)⟩)
    · exact .inr (.inr ⟨by omega, by omega, if_neg (by simpa using h2)⟩)

/-- The state a unit's meaning leads to where the position selects the unit. -/
def unitEffect (i : Instr) (s : State) : State :=
  match i with
  | .skip _ => s.skipByte
  | .frameL1 h => s.frame 3#2 h
  | .frameL2 h => s.frame 2#2 h
  | .frameL3 h => s.frame 1#2 h
  | .frameRsv h => s.frame 0#2 h
  | .crc16 _ => s.consume 16 State.finishHeader
  | .l1Alloc a => s.consume 4 fun s => s.atAlloc fun c => (s.storeAlloc c a).seekAlloc (c.index + 1)
  | .l1Scf x => s.consume 6 fun s => s.atScf fun c _ =>
      if x = 63#6 then s.raise .invalidField
      else (s.withWork (s.work.setScfIdx c.ch c.sb 0 x)).seekScf (c.index + 1)
  | .l1Sample w v => s.consume w fun s => s.atSample fun t c _ =>
      (s.storeSample c (t.castLE (by decide)) 0 (deq1 s.cfg.num v.toNat (s.work.allocAt c.ch c.sb).toNat)).seekSample t (c.index + 1)
  | .l2Alloc w a => s.consume w fun s => s.atAlloc fun c => (s.storeAlloc c a).seekAlloc (c.index + 1)
  | .l2Scfsi x => s.consume 2 fun s => s.atScfsi fun c =>
      (s.withWork (s.work.setScfsi c.ch c.sb x)).seekScfsi (c.index + 1)
  | .l2Scf x => s.consume 6 fun s => s.atScf fun c got =>
      let code := s.work.scfsiAt c.ch c.sb
      let got := got ++ [x]
      if got.length < scfsiCount code then s.goto .layerDecode (.scf c got)
      else if got.contains 63#6 then s.raise .invalidField
      else (s.storeScfIdx c (scfsiPattern code got)).seekScf (c.index + 1)
  | .l2Sample w v => s.consume w fun s => s.atSample fun gr c k =>
      let s' := s.storeSample c (groupSlot gr k) (scaleSlot gr) (deq2 s.cfg.num v.toNat (s.classOf c))
      if h : k.val + 1 < 3 then s'.goto .layerDecode (.sample gr c ⟨k.val + 1, h⟩)
      else s'.seekSample gr (c.index + 1)
  | .l2Group w x => s.consume w fun s => s.atSample fun gr c _ =>
      let q := s.classOf c
      let v := demux q.levels x.toNat
      let p := scaleSlot gr
      (((s.storeSample c (groupSlot gr 0) p (deq2 s.cfg.num v.1 q)).storeSample c (groupSlot gr 1) p (deq2 s.cfg.num v.2.1 q)).storeSample c
        (groupSlot gr 2) p (deq2 s.cfg.num v.2.2 q)).seekSample gr (c.index + 1)
  | .padBits w _ => s.consume w State.completeFrame

/-- Every meaning runs where the position selects its unit, and only there. -/
theorem exec_eq_whenSelected (i : Instr) (s : State) : exec i s = whenSelected s.selected s.cfg.readMax i.shape (unitEffect i s) := by
  cases i <;> rfl

/-- What a meaning can answer. -/
theorem exec_eq_next {i : Instr} {s t : State} : exec i s = .next t ↔ s.selected = some i.shape ∧ readWidth i.shape ≤ s.cfg.readMax ∧ t = unitEffect i s := by
  rw [exec_eq_whenSelected, whenSelected_eq_next]


/-- What a step that answers a next state is: the end of the run, a synthesis slot, a terminal state, or the unit at the
cursor. -/
theorem step_eq_next {s t : State} (h : step s = .next t) :
    (s.fsm = .seekSync ∧ s.input.size ≤ s.byteIndex ∧ t = s.endRun) ∨
    (∃ k, s.fsm = .synth ∧ s.pos = .slot k ∧ t = (s.synthSlot (window s.cfg.num) k).nextSlot k) ∨
    ((s.fsm = .done ∨ s.fsm = .error) ∧ t = s) ∨
    (s.stage = none ∧ ∃ i, s.fetch = some i ∧ s.selected = some i.shape ∧ t = unitEffect i s) := by
  unfold step at h
  split at h
  · next o ho =>
    subst h
    unfold State.stage at ho
    split at ho
    · next hf =>
      split at ho
      · cases ho
      · refine .inl ⟨hf, by omega, ?_⟩
        simpa using ho.symm
    · cases ho
    · cases ho
    · next hf =>
      unfold State.synthStage at ho
      split at ho
      · next k hp => exact .inr (.inl ⟨k, hf, hp, by simpa using ho.symm⟩)
      · simp at ho
    · cases ho
    · next hf => exact .inr (.inr (.inl ⟨.inl hf, by simpa using ho.symm⟩))
    · next hf => exact .inr (.inr (.inl ⟨.inr hf, by simpa using ho.symm⟩))
  · next ho =>
    split at h
    · next i hi =>
      rw [exec_eq_next] at h
      exact .inr (.inr (.inr ⟨ho, i, hi, h.1, h.2.2⟩))
    · cases h

end Sys2Proof.Machine
end

