-- ==== Sys2Proof/Laws/Work.lean ====
section
/-! SUPPORT. Read-after-write laws of the working registers and of the synthesis history. -/

namespace Sys2Proof.Machine

variable (w : WorkRegs) (ch ch' : Fin 2) (sb sb' : Fin 32)

theorem WorkRegs.allocAt_setAlloc (x : BitVec 4) :
    (w.setAlloc ch sb x).allocAt ch' sb' = if ch' = ch ∧ sb' = sb then x else w.allocAt ch' sb' := by
  simp only [WorkRegs.allocAt, WorkRegs.setAlloc, Bank.get_set]
  by_cases h : ch' = ch <;> by_cases h' : sb' = sb <;> simp [h, h', Bank.get_set]

theorem WorkRegs.scfsiAt_setScfsi (x : BitVec 2) :
    (w.setScfsi ch sb x).scfsiAt ch' sb' = if ch' = ch ∧ sb' = sb then x else w.scfsiAt ch' sb' := by
  simp only [WorkRegs.scfsiAt, WorkRegs.setScfsi, Bank.get_set]
  by_cases h : ch' = ch <;> by_cases h' : sb' = sb <;> simp [h, h', Bank.get_set]

theorem WorkRegs.scfIdxAt_setScfIdx (p p' : Fin 3) (x : BitVec 6) :
    (w.setScfIdx ch sb p x).scfIdxAt ch' sb' p' =
      if ch' = ch ∧ sb' = sb ∧ p' = p then x else w.scfIdxAt ch' sb' p' := by
  simp only [WorkRegs.scfIdxAt, WorkRegs.setScfIdx, Bank.get_set]
  by_cases h : ch' = ch <;> by_cases h' : sb' = sb <;> simp [h, h', Bank.get_set]

theorem WorkRegs.sampleAt_setSample (t t' : Fin 36) (x : NumVal) :
    (w.setSample ch sb t x).sampleAt ch' sb' t' =
      if ch' = ch ∧ sb' = sb ∧ t' = t then x else w.sampleAt ch' sb' t' := by
  simp only [WorkRegs.sampleAt, WorkRegs.setSample, Bank.get_set]
  by_cases h : ch' = ch <;> by_cases h' : sb' = sb <;> simp [h, h', Bank.get_set]

@[simp] theorem WorkRegs.setAlloc_scfsiAt (x : BitVec 4) : (w.setAlloc ch sb x).scfsiAt ch' sb' = w.scfsiAt ch' sb' := rfl
@[simp] theorem WorkRegs.setAlloc_scfIdxAt (x : BitVec 4) (p : Fin 3) :
    (w.setAlloc ch sb x).scfIdxAt ch' sb' p = w.scfIdxAt ch' sb' p := rfl
@[simp] theorem WorkRegs.setAlloc_sampleAt (x : BitVec 4) (t : Fin 36) :
    (w.setAlloc ch sb x).sampleAt ch' sb' t = w.sampleAt ch' sb' t := rfl
@[simp] theorem WorkRegs.setScfsi_allocAt (x : BitVec 2) : (w.setScfsi ch sb x).allocAt ch' sb' = w.allocAt ch' sb' := rfl
@[simp] theorem WorkRegs.setScfIdx_allocAt (p : Fin 3) (x : BitVec 6) :
    (w.setScfIdx ch sb p x).allocAt ch' sb' = w.allocAt ch' sb' := rfl
@[simp] theorem WorkRegs.setScfIdx_scfsiAt (p : Fin 3) (x : BitVec 6) :
    (w.setScfIdx ch sb p x).scfsiAt ch' sb' = w.scfsiAt ch' sb' := rfl
@[simp] theorem WorkRegs.setSample_allocAt (t : Fin 36) (x : NumVal) :
    (w.setSample ch sb t x).allocAt ch' sb' = w.allocAt ch' sb' := rfl
@[simp] theorem WorkRegs.setSample_scfsiAt (t : Fin 36) (x : NumVal) :
    (w.setSample ch sb t x).scfsiAt ch' sb' = w.scfsiAt ch' sb' := rfl
@[simp] theorem WorkRegs.setSample_scfIdxAt (t : Fin 36) (x : NumVal) (p : Fin 3) :
    (w.setSample ch sb t x).scfIdxAt ch' sb' p = w.scfIdxAt ch' sb' p := rfl

/-- The channels are `[0]` or `[0, 1]`. -/
theorem State.channels_cases (s : State) :
    (s.latch.nch = 2 ∧ s.channels = [0, 1]) ∨ (s.latch.nch ≠ 2 ∧ s.channels = [0]) := by
  by_cases h : s.latch.nch = 2 <;> simp [State.channels, h]

theorem State.zero_mem_channels (s : State) : (0 : Fin 2) ∈ s.channels := by
  obtain ⟨_, h⟩ | ⟨_, h⟩ := s.channels_cases <;> simp [h]

theorem State.targets_cases (s : State) (c : SubCh) :
    s.targets c = [c.ch] ∨ s.targets c = [0, 1] ∨ s.targets c = [0] := by
  unfold State.targets
  split
  · obtain ⟨_, h⟩ | ⟨_, h⟩ := s.channels_cases <;> simp [h]
  · simp

theorem State.targets_nodup (s : State) (c : SubCh) : (s.targets c).Nodup := by
  obtain h | h | h := s.targets_cases c <;> simp [h]

/-- `ALLOC` after an element of the allocation part. -/
theorem State.storeAlloc_allocAt (s : State) (c : SubCh) (a : BitVec 4) (ch : Fin 2) (sb : Fin 32) :
    (s.storeAlloc c a).work.allocAt ch sb =
      if sb = c.sb ∧ ch ∈ s.targets c then a else s.work.allocAt ch sb := by
  rw [State.storeAlloc_work]
  obtain h | h | h := s.targets_cases c <;>
    simp only [h, List.foldl_cons, List.foldl_nil, WorkRegs.allocAt_setAlloc] <;>
    by_cases h1 : sb = c.sb <;> simp [h1]
  fin_cases ch <;> simp

/-- An element of the allocation part writes no other working register. -/
theorem State.storeAlloc_other (s : State) (c : SubCh) (a : BitVec 4) :
    (s.storeAlloc c a).work.scfsi = s.work.scfsi ∧ (s.storeAlloc c a).work.scfIdx = s.work.scfIdx ∧
      (s.storeAlloc c a).work.l2Set = s.work.l2Set ∧ (s.storeAlloc c a).work.sbLimit = s.work.sbLimit ∧
      (s.storeAlloc c a).work.sample = s.work.sample ∧ (s.storeAlloc c a).work.sout = s.work.sout := by
  rw [State.storeAlloc_work]
  obtain h | h | h := s.targets_cases c <;> simp [h]

theorem State.storeSample_work (s : State) (c : SubCh) (t : Fin 36) (p : Fin 3) (f : NumVal) :
    (s.storeSample c t p f).work =
      (s.targets c).foldl (fun w ch => w.setSample ch c.sb t (s.cfg.num.mul f (scf s.cfg.num (w.scfIdxAt ch c.sb p)))) s.work := rfl

/-- `SAMPLE` after one code of the sample part. -/
theorem State.storeSample_sampleAt (s : State) (c : SubCh) (t : Fin 36) (p : Fin 3) (f : NumVal) (ch : Fin 2) (sb : Fin 32)
    (t' : Fin 36) :
    (s.storeSample c t p f).work.sampleAt ch sb t' =
      if sb = c.sb ∧ ch ∈ s.targets c ∧ t' = t then s.cfg.num.mul f (scf s.cfg.num (s.work.scfIdxAt ch sb p))
      else s.work.sampleAt ch sb t' := by
  rw [State.storeSample_work]
  obtain h | h | h := s.targets_cases c <;>
    simp only [h, List.foldl_cons, List.foldl_nil, WorkRegs.sampleAt_setSample, WorkRegs.setSample_scfIdxAt] <;>
    by_cases h1 : sb = c.sb <;> simp [h1]
  · by_cases h2 : ch = c.ch <;> simp [h2]
  · fin_cases ch <;> simp
  · by_cases h2 : ch = 0 <;> simp [h2]

/-- A code of the sample part writes no other working register. -/
theorem State.storeSample_other (s : State) (c : SubCh) (t : Fin 36) (p : Fin 3) (f : NumVal) :
    (s.storeSample c t p f).work.alloc = s.work.alloc ∧ (s.storeSample c t p f).work.scfsi = s.work.scfsi ∧
      (s.storeSample c t p f).work.scfIdx = s.work.scfIdx ∧ (s.storeSample c t p f).work.l2Set = s.work.l2Set ∧
      (s.storeSample c t p f).work.sbLimit = s.work.sbLimit ∧ (s.storeSample c t p f).work.sout = s.work.sout := by
  rw [State.storeSample_work]
  obtain h | h | h := s.targets_cases c <;> simp [h]

variable (c : SynthChannel)

@[simp] theorem SynthChannel.write_voff (a : Nat) (x : NumVal) : (c.write a x).voff = c.voff := rfl

/-- Reading the history after a write: addresses are taken modulo 1024. -/
theorem SynthChannel.read_write (a b : Nat) (x : NumVal) :
    (c.write a x).read b = if b % 1024 = a % 1024 then x else c.read b := by
  simp only [SynthChannel.read, SynthChannel.write, Bank.get_set, Fin.ext_iff, Fin.val_ofNat]

theorem SynthChannel.read_mod (a b : Nat) (h : a % 1024 = b % 1024) : c.read a = c.read b := by
  simp only [SynthChannel.read]
  congr 1
  exact Fin.ext (by simpa [Fin.val_ofNat] using h)

end Sys2Proof.Machine
end

