-- ==== Sys2Proof/Laws/Position.lean ====
section
/-! SUPPORT. Where the position goes: every search for the next element changes `FSM` and the position alone, and ends at an
element the body has or at the end of the body. -/

namespace Sys2Proof.Machine

theorem SubCh.index_lt (c : SubCh) : c.index < 64 := by
  have := c.sb.isLt; have := c.ch.isLt; unfold SubCh.index; omega

@[simp] theorem SubCh.ofIndex_index (c : SubCh) : SubCh.ofIndex c.index = c := by
  obtain ⟨sb, ch⟩ := c
  have h1 := sb.isLt; have h2 := ch.isLt
  simp only [SubCh.ofIndex, SubCh.index, SubCh.mk.injEq, Fin.ext_iff, Fin.val_ofNat]
  omega

theorem SubCh.index_ofIndex {n : Nat} (h : n < 64) : (SubCh.ofIndex n).index = n := by
  simp only [SubCh.ofIndex, SubCh.index, Fin.val_ofNat]; omega

theorem SubCh.order_get? (n : Nat) : SubCh.order[n]? = if n < 64 then some (SubCh.ofIndex n) else none := by
  simp only [SubCh.order, List.getElem?_map]
  by_cases h : n < 64 <;> simp [h]

/-- The search answers an element of the kind sought at or after the place it starts from. -/
theorem seekFrom_some {p : SubCh → Bool} {n : Nat} {c : SubCh} (h : seekFrom p n = some c) :
    p c = true ∧ n ≤ c.index := by
  unfold seekFrom at h
  refine ⟨List.find?_some h, ?_⟩
  obtain ⟨i, hi⟩ := List.mem_iff_getElem?.mp (List.mem_of_find?_eq_some h)
  rw [List.getElem?_drop, SubCh.order_get?] at hi
  split at hi
  · next hlt =>
    have : c = SubCh.ofIndex (n + i) := by simpa using hi.symm
    subst this
    rw [SubCh.index_ofIndex hlt]; omega
  · cases hi

/-- The element found is the first: every one sought from the start place on is at or after it. -/
theorem seekFrom_first {p : SubCh → Bool} {n : Nat} {c : SubCh} (h : seekFrom p n = some c) (d : SubCh)
    (hn : n ≤ d.index) (hd : d.index < c.index) : p d = false := by
  unfold seekFrom at h
  obtain ⟨_, as, bs, hsplit, hfirst⟩ := List.find?_eq_some_iff_append.mp h
  have hget : ∀ i, (SubCh.order.drop n)[i]? = if n + i < 64 then some (SubCh.ofIndex (n + i)) else none := by
    intro i; rw [List.getElem?_drop, SubCh.order_get?]
  have hc : n + as.length = c.index := by
    have := hget as.length
    rw [hsplit] at this
    split at this
    · next hlt =>
      have : c = SubCh.ofIndex (n + as.length) := by simpa using this
      rw [this, SubCh.index_ofIndex hlt]
    · simp at this
  have hlt : d.index - n < as.length := by omega
  have hd' : as[d.index - n]? = some d := by
    have := hget (d.index - n)
    rw [hsplit, List.getElem?_append_left hlt, if_pos (by have := d.index_lt; omega),
      show n + (d.index - n) = d.index by omega, SubCh.ofIndex_index] at this
    exact this
  simpa using hfirst d (List.mem_of_getElem? hd')

/-- The search passes over no element of the kind sought. -/
theorem seekFrom_none {p : SubCh → Bool} {n : Nat} (h : seekFrom p n = none) (c : SubCh) (hc : n ≤ c.index) :
    p c = false := by
  unfold seekFrom at h
  rw [List.find?_eq_none] at h
  have : c ∈ SubCh.order.drop n := by
    rw [List.mem_iff_getElem?]
    refine ⟨c.index - n, ?_⟩
    rw [List.getElem?_drop, SubCh.order_get?, if_pos (by have := c.index_lt; omega)]
    rw [show n + (c.index - n) = c.index by omega, SubCh.ofIndex_index]
  simpa using h c this

theorem State.startSamples_cases (s : State) (t : Fin 12) :
    (∃ c, s.hasSample c = true ∧ s.startSamples t = s.goto .layerDecode (.sample t c 0)) ∨
      s.startSamples t = s.goto .synth (.slot 0) := by
  unfold State.startSamples
  split
  · next c h => exact .inl ⟨c, (seekFrom_some h).1, rfl⟩
  · exact .inr rfl

theorem State.seekSample_cases (s : State) (t : Fin 12) (n : Nat) :
    (∃ t' c, s.hasSample c = true ∧ s.seekSample t n = s.goto .layerDecode (.sample t' c 0)) ∨
      s.seekSample t n = s.goto .synth (.slot 0) := by
  unfold State.seekSample
  split
  · next c h => exact .inl ⟨t, c, (seekFrom_some h).1, rfl⟩
  · split
    · next h =>
      obtain ⟨c, hc, e⟩ | e := s.startSamples_cases ⟨t.val + 1, h⟩
      · exact .inl ⟨_, c, hc, e⟩
      · exact .inr e
    · exact .inr rfl

theorem State.seekScf_cases (s : State) (n : Nat) :
    (∃ c, s.coded c = true ∧ s.seekScf n = s.goto .layerDecode (.scf c [])) ∨
      (∃ c, s.hasSample c = true ∧ s.seekScf n = s.goto .layerDecode (.sample 0 c 0)) ∨
      s.seekScf n = s.goto .synth (.slot 0) := by
  unfold State.seekScf
  split
  · next c h => exact .inl ⟨c, (seekFrom_some h).1, rfl⟩
  · exact .inr (s.startSamples_cases 0)

theorem State.seekScfsi_cases (s : State) (n : Nat) :
    (∃ c, s.coded c = true ∧ s.seekScfsi n = s.goto .layerDecode (.scfsi c)) ∨
      (∃ c, s.coded c = true ∧ s.seekScfsi n = s.goto .layerDecode (.scf c [])) ∨
      (∃ c, s.hasSample c = true ∧ s.seekScfsi n = s.goto .layerDecode (.sample 0 c 0)) ∨
      s.seekScfsi n = s.goto .synth (.slot 0) := by
  unfold State.seekScfsi
  split
  · next c h => exact .inl ⟨c, (seekFrom_some h).1, rfl⟩
  · exact .inr (s.seekScf_cases 0)

theorem State.seekAlloc_cases (s : State) (n : Nat) :
    (∃ c, s.hasAlloc c = true ∧ s.seekAlloc n = s.goto .layerDecode (.alloc c)) ∨
      (s.hdr.kind = .l2 ∧ ∃ c, s.coded c = true ∧ s.seekAlloc n = s.goto .layerDecode (.scfsi c)) ∨
      (∃ c, s.coded c = true ∧ s.seekAlloc n = s.goto .layerDecode (.scf c [])) ∨
      (∃ c, s.hasSample c = true ∧ s.seekAlloc n = s.goto .layerDecode (.sample 0 c 0)) ∨
      s.seekAlloc n = s.goto .synth (.slot 0) := by
  unfold State.seekAlloc
  split
  · next c h => exact .inl ⟨c, (seekFrom_some h).1, rfl⟩
  · split
    · next hk =>
      obtain h | h | h | h := s.seekScfsi_cases 0
      · exact .inr (.inl ⟨hk, h⟩)
      · exact .inr (.inr (.inl h))
      · exact .inr (.inr (.inr (.inl h)))
      · exact .inr (.inr (.inr (.inr h)))
    · exact .inr (.inr (s.seekScf_cases 0))

/-- `s.seekX …` is `s` with another `FSM` and position. -/
theorem State.startSamples_goto (s : State) (t : Fin 12) : ∃ f p, s.startSamples t = s.goto f p := by
  obtain ⟨c, _, e⟩ | e := s.startSamples_cases t
  · exact ⟨_, _, e⟩
  · exact ⟨_, _, e⟩

theorem State.seekSample_goto (s : State) (t : Fin 12) (n : Nat) : ∃ f p, s.seekSample t n = s.goto f p := by
  obtain ⟨_, _, _, e⟩ | e := s.seekSample_cases t n
  · exact ⟨_, _, e⟩
  · exact ⟨_, _, e⟩

theorem State.seekScf_goto (s : State) (n : Nat) : ∃ f p, s.seekScf n = s.goto f p := by
  obtain ⟨_, _, e⟩ | ⟨_, _, e⟩ | e := s.seekScf_cases n
  · exact ⟨_, _, e⟩
  · exact ⟨_, _, e⟩
  · exact ⟨_, _, e⟩

theorem State.seekScfsi_goto (s : State) (n : Nat) : ∃ f p, s.seekScfsi n = s.goto f p := by
  obtain ⟨_, _, e⟩ | ⟨_, _, e⟩ | ⟨_, _, e⟩ | e := s.seekScfsi_cases n
  · exact ⟨_, _, e⟩
  · exact ⟨_, _, e⟩
  · exact ⟨_, _, e⟩
  · exact ⟨_, _, e⟩

theorem State.seekAlloc_goto (s : State) (n : Nat) : ∃ f p, s.seekAlloc n = s.goto f p := by
  obtain ⟨_, _, e⟩ | ⟨_, _, _, e⟩ | ⟨_, _, e⟩ | ⟨_, _, e⟩ | e := s.seekAlloc_cases n
  · exact ⟨_, _, e⟩
  · exact ⟨_, _, e⟩
  · exact ⟨_, _, e⟩
  · exact ⟨_, _, e⟩
  · exact ⟨_, _, e⟩

/-- Which subband-channels have elements depends on the header registers, the latch, `ALLOC` and `SBLIMIT` alone. -/
theorem State.elements_congr {s t : State} (hh : t.hdr = s.hdr) (hl : t.latch = s.latch)
    (ha : t.work.alloc = s.work.alloc) (hb : t.work.sbLimit = s.work.sbLimit) :
    t.hasAlloc = s.hasAlloc ∧ t.coded = s.coded ∧ t.hasSample = s.hasSample ∧ t.targets = s.targets := by
  obtain ⟨_, _, _, _, _, _, _, _, _, _, _, ⟨_, _, _, _, _, _, _⟩, _, _⟩ := s
  obtain ⟨_, _, _, _, _, _, _, _, _, _, _, ⟨_, _, _, _, _, _, _⟩, _, _⟩ := t
  dsimp only at hh hl ha hb
  subst hh hl ha hb
  exact ⟨rfl, rfl, rfl, rfl⟩

/-- The class of a subband-channel depends on the parameters, `L2SET` and `ALLOC` alone. -/
theorem State.classOf_congr {s t : State} (hc : t.cfg = s.cfg) (ha : t.work.alloc = s.work.alloc) (hl : t.work.l2Set = s.work.l2Set) :
    t.classOf = s.classOf := by
  funext c
  simp only [State.classOf, WorkRegs.allocAt, hc, ha, hl]

end Sys2Proof.Machine
end

