-- ==== Sys2Proof/Laws/Header.lean ====
section
/-! SUPPORT. What the header stage can do, said once: the latch, the start of a body, the dispatch, the validity tests. -/

namespace Sys2Proof.Machine

variable (s : State)

/-- A search from the first place finds channel 0 of subband 0 when it is of the kind sought. -/
theorem seekFrom_zero {p : SubCh → Bool} (h : p ⟨0, 0⟩ = true) : seekFrom p 0 = some ⟨0, 0⟩ := by
  have : SubCh.order = ⟨0, 0⟩ :: SubCh.order.tail := by decide
  rw [seekFrom, List.drop_zero, this, List.find?_cons_of_pos h]

@[simp] theorem State.latchStream_cfg : s.latchStream.cfg = s.cfg := by unfold State.latchStream; split <;> rfl
@[simp] theorem State.latchStream_input : s.latchStream.input = s.input := by unfold State.latchStream; split <;> rfl
@[simp] theorem State.latchStream_bp : s.latchStream.bp = s.bp := by unfold State.latchStream; split <;> rfl
@[simp] theorem State.latchStream_ahead : s.latchStream.ahead = s.ahead := by unfold State.latchStream; split <;> rfl
@[simp] theorem State.latchStream_fsm : s.latchStream.fsm = s.fsm := by unfold State.latchStream; split <;> rfl
@[simp] theorem State.latchStream_pos : s.latchStream.pos = s.pos := by unfold State.latchStream; split <;> rfl
@[simp] theorem State.latchStream_hdr : s.latchStream.hdr = s.hdr := by unfold State.latchStream; split <;> rfl
@[simp] theorem State.latchStream_frames : s.latchStream.frames = s.frames := by unfold State.latchStream; split <;> rfl
@[simp] theorem State.latchStream_nsamp : s.latchStream.nsamp = s.nsamp := by unfold State.latchStream; split <;> rfl
@[simp] theorem State.latchStream_errCode : s.latchStream.errCode = s.errCode := by unfold State.latchStream; split <;> rfl
@[simp] theorem State.latchStream_work : s.latchStream.work = s.work := by unfold State.latchStream; split <;> rfl
@[simp] theorem State.latchStream_synth : s.latchStream.synth = s.synth := by unfold State.latchStream; split <;> rfl
@[simp] theorem State.latchStream_out : s.latchStream.out = s.out := by unfold State.latchStream; split <;> rfl

/-- The latch after the latching rule, at a supported layer. -/
theorem State.latchStream_latch (h : s.hdr.kind ≠ .l3) :
    s.latchStream.latch = if s.latch.latched then s.latch else ⟨true, s.hdr.fs, s.hdr.nch⟩ := by
  unfold State.latchStream
  cases hl : s.latch.latched <;> simp [h]

theorem State.latchStream_of_l3 (h : s.hdr.kind = .l3) : s.latchStream = s := by simp [State.latchStream, h]

/-- The working registers at the start of a body. -/
def State.bodyWork (s : State) : WorkRegs :=
  if s.hdr.kind = .l2 then s.clearBody.selectL2Set.work else s.clearBody.work

/-- A body of a supported layer starts at the allocation of channel 0 of subband 0. -/
theorem State.startBody_eq (h : s.hdr.kind ≠ .l3) :
    s.startBody = (s.withWork s.bodyWork).goto .layerDecode (.alloc ⟨0, 0⟩) := by
  have key : ∀ t : State, t.hdr.kind ≠ .l3 → (t.hdr.kind = .l2 → 0 < t.work.sbLimit) → t.hasAlloc ⟨0, 0⟩ = true := by
    intro t ht h2
    have hc : t.channels.contains 0 = true := by simpa using t.zero_mem_channels
    have hl : 0 < t.subbandLimit := by
      unfold State.subbandLimit
      cases hk : t.hdr.kind <;> simp_all
    simp [State.hasAlloc, State.inBody, State.hasOwnElement, hl]
    exact t.zero_mem_channels
  unfold State.startBody State.seekAlloc
  split
  · next hk =>
    have hpos : ∀ set, 0 < l2SbLimit set := by decide
    rw [seekFrom_zero (key s.clearBody.selectL2Set h (fun _ => hpos _))]
    simp only [State.bodyWork, hk, if_true]
    rfl
  · next hk =>
    rw [seekFrom_zero (key s.clearBody h (fun e => absurd e hk))]
    simp only [State.bodyWork, hk, if_false]
    rfl

/-- The end of the header stage: the stub, or the latch and the start of the body. -/
theorem State.finishHeader_cases :
    (s.hdr.kind = .l3 ∧ s.finishHeader = s.goto .seekSync .idle) ∨
      (s.hdr.kind ≠ .l3 ∧ s.finishHeader =
        (s.latchStream.withWork s.latchStream.bodyWork).goto .layerDecode (.alloc ⟨0, 0⟩)) := by
  unfold State.finishHeader
  by_cases h : s.hdr.kind = .l3
  · exact .inl ⟨h, by rw [if_pos h, s.latchStream_of_l3 h]⟩
  · exact .inr ⟨h, by rw [if_neg h, State.startBody_eq _ (by simpa using h)]⟩

/-- The header stage raises `InvalidField` for a reserved value, else it waits for the `CRC16` or ends. -/
theorem State.headerStage_cases (layer : BitVec 2) (h : HdrFields) :
    (s.headerStage layer h = (s.loadHeader layer h).raise .invalidField ∧
      (s.cfg.layerKind layer = none ∨ h.br = 15#4 ∨ h.fs = 3#2)) ∨
    ∃ kind, s.cfg.layerKind layer = some kind ∧ h.br ≠ 15#4 ∧ h.fs ≠ 3#2 ∧
      ((h.prot = s.cfg.crcPresentWhen ∧ s.headerStage layer h = (s.loadHeader layer h).resolveHeader kind) ∨
       (h.prot ≠ s.cfg.crcPresentWhen ∧ s.headerStage layer h = ((s.loadHeader layer h).resolveHeader kind).finishHeader)) := by
  unfold State.headerStage
  dsimp only
  rw [State.loadHeader_cfg]
  cases hl : s.cfg.layerKind layer with
  | none => exact .inl ⟨rfl, .inl rfl⟩
  | some kind =>
    by_cases hb : h.br = 15#4
    · exact .inl ⟨by simp [hb], .inr (.inl hb)⟩
    · by_cases hf : h.fs = 3#2
      · exact .inl ⟨by simp [hb, hf], .inr (.inr hf)⟩
      · refine .inr ⟨kind, rfl, hb, hf, ?_⟩
        by_cases hp : h.prot = s.cfg.crcPresentWhen
        · exact .inl ⟨hp, by simp [hb, hf, hp]⟩
        · exact .inr ⟨hp, by simp [hb, hf, hp]⟩

/-- The header registers after the resolutions depend on the header alone. -/
theorem State.resolveHeader_hdr (layer : BitVec 2) (h : HdrFields) (kind : LayerKind) :
    ((s.loadHeader layer h).resolveHeader kind).hdr =
      { id := h.id, layer := layer, prot := h.prot, brIdx := h.br, fsIdx := h.fs, pad := h.pad, priv := h.priv,
        mode := h.mode, modeExt := h.ext, kind := kind, bitrate := s.cfg.bitrateOf kind h.br, fs := fsTable h.fs,
        nch := s.cfg.channelCount h.mode, bound := s.cfg.jointBound h.mode h.ext } := rfl

end Sys2Proof.Machine
end

