-- ==== Sys2Proof/Laws/Effect.lean ====
section
/-! SUPPORT. What each unit does where the position selects it, said once: which position that is, and the two or three states
it can lead to. -/

namespace Sys2Proof.Machine

variable {s : State}

/-- What selects a unit, by its shape. -/
theorem State.selected_cases {sh : UnitShape} (h : s.selected = some sh) :
    (s.fsm = .seekSync ∧ (sh = .skip ∨ sh = .header) ∧ s.seekSelected = some sh) ∨ (s.fsm = .header ∧ sh = .crc16) ∨
    (s.fsm = .layerDecode ∧ s.bodySelected = some sh) ∨ (s.fsm = .align ∧ sh = .padBits s.padWidth) := by
  unfold State.selected at h
  split at h
  · next hf =>
    refine .inl ⟨hf, ?_, h⟩
    unfold State.seekSelected at h
    split at h
    · cases h
    · have := Option.some.inj h
      subst this
      unfold seekShape
      split
      · exact .inl rfl
      · split
        · exact .inr rfl
        · exact .inl rfl
  · next hf => exact .inr (.inl ⟨hf, (Option.some.inj h).symm⟩)
  · next hf => exact .inr (.inr (.inl ⟨hf, h⟩))
  · next hf => exact .inr (.inr (.inr ⟨hf, (Option.some.inj h).symm⟩))
  · cases h
  · cases h
  · cases h

/-- What selects an element of a frame body, by its shape. -/
theorem State.bodySelected_cases {sh : UnitShape} (h : s.bodySelected = some sh) :
    (s.hdr.kind = .l1 ∧ ∃ c, s.pos = .alloc c ∧ sh = .l1Alloc) ∨
    (s.hdr.kind = .l1 ∧ ∃ c got, s.pos = .scf c got ∧ sh = .l1Scf) ∨
    (s.hdr.kind = .l1 ∧ ∃ t c k, s.pos = .sample t c k ∧ sh = .l1Sample ((s.work.allocAt c.ch c.sb).toNat + 1)) ∨
    (s.hdr.kind = .l2 ∧ ∃ c, s.pos = .alloc c ∧ sh = .l2Alloc (s.cfg.nbal s.work.l2Set c.sb)) ∨
    (s.hdr.kind = .l2 ∧ ∃ c, s.pos = .scfsi c ∧ sh = .l2Scfsi) ∨
    (s.hdr.kind = .l2 ∧ ∃ c got, s.pos = .scf c got ∧ sh = .l2Scf) ∨
    (s.hdr.kind = .l2 ∧ ∃ t c k, s.pos = .sample t c k ∧ (s.classOf c).grouped = true ∧ sh = .l2Group (s.classOf c).bits) ∨
    (s.hdr.kind = .l2 ∧ ∃ t c k, s.pos = .sample t c k ∧ (s.classOf c).grouped = false ∧
      sh = .l2Sample (s.classOf c).bits) := by
  unfold State.bodySelected at h
  split at h
  · next hk hp => exact .inl ⟨hk, _, hp, (Option.some.inj h).symm⟩
  · next hk hp => exact .inr (.inl ⟨hk, _, _, hp, (Option.some.inj h).symm⟩)
  · next hk hp => exact .inr (.inr (.inl ⟨hk, _, _, _, hp, (Option.some.inj h).symm⟩))
  · next hk hp => exact .inr (.inr (.inr (.inl ⟨hk, _, hp, (Option.some.inj h).symm⟩)))
  · next hk hp => exact .inr (.inr (.inr (.inr (.inl ⟨hk, _, hp, (Option.some.inj h).symm⟩))))
  · next hk hp => exact .inr (.inr (.inr (.inr (.inr (.inl ⟨hk, _, _, hp, (Option.some.inj h).symm⟩)))))
  · next hk hp =>
    split at h
    · next hg => exact .inr (.inr (.inr (.inr (.inr (.inr (.inl ⟨hk, _, _, _, hp, hg, (Option.some.inj h).symm⟩))))))
    · next hg =>
      exact .inr (.inr (.inr (.inr (.inr (.inr (.inr ⟨hk, _, _, _, hp, by simpa using hg, (Option.some.inj h).symm⟩))))))
  · cases h

/-- The states a body element can lead to, `s` being the state behind the element's bits. -/
inductive BodyStep (s : State) : Instr → State → Prop where
  | l1Alloc (a c) : s.hdr.kind = .l1 → s.pos = .alloc c →
      BodyStep s (.l1Alloc a) ((s.storeAlloc c a).seekAlloc (c.index + 1))
  | l1Scf (x c got) : s.hdr.kind = .l1 → s.pos = .scf c got → x ≠ 63#6 →
      BodyStep s (.l1Scf x) ((s.withWork (s.work.setScfIdx c.ch c.sb 0 x)).seekScf (c.index + 1))
  | l1Sample (v) (t : Fin 12) (c k) : s.hdr.kind = .l1 → s.pos = .sample t c k →
      BodyStep s (.l1Sample ((s.work.allocAt c.ch c.sb).toNat + 1) v)
        ((s.storeSample c (t.castLE (by decide)) 0 (deq1 s.cfg.num v.toNat (s.work.allocAt c.ch c.sb).toNat)).seekSample t (c.index + 1))
  | l2Alloc (a c) : s.hdr.kind = .l2 → s.pos = .alloc c →
      BodyStep s (.l2Alloc (s.cfg.nbal s.work.l2Set c.sb) a) ((s.storeAlloc c a).seekAlloc (c.index + 1))
  | l2Scfsi (x c) : s.hdr.kind = .l2 → s.pos = .scfsi c →
      BodyStep s (.l2Scfsi x) ((s.withWork (s.work.setScfsi c.ch c.sb x)).seekScfsi (c.index + 1))
  | l2ScfMore (x c got) : s.hdr.kind = .l2 → s.pos = .scf c got →
      (got ++ [x]).length < scfsiCount (s.work.scfsiAt c.ch c.sb) →
      BodyStep s (.l2Scf x) (s.goto .layerDecode (.scf c (got ++ [x])))
  | l2ScfLast (x c got) : s.hdr.kind = .l2 → s.pos = .scf c got →
      scfsiCount (s.work.scfsiAt c.ch c.sb) ≤ (got ++ [x]).length → 63#6 ∉ got ++ [x] →
      BodyStep s (.l2Scf x)
        ((s.storeScfIdx c (scfsiPattern (s.work.scfsiAt c.ch c.sb) (got ++ [x]))).seekScf (c.index + 1))
  | l2SampleMore (v gr c) (k : Fin 3) (h : k.val + 1 < 3) : s.hdr.kind = .l2 → s.pos = .sample gr c k →
      (s.classOf c).grouped = false →
      BodyStep s (.l2Sample (s.classOf c).bits v)
        ((s.storeSample c (groupSlot gr k) (scaleSlot gr) (deq2 s.cfg.num v.toNat (s.classOf c))).goto .layerDecode
          (.sample gr c ⟨k.val + 1, h⟩))
  | l2SampleLast (v gr c) (k : Fin 3) : s.hdr.kind = .l2 → s.pos = .sample gr c k → ¬ k.val + 1 < 3 →
      (s.classOf c).grouped = false →
      BodyStep s (.l2Sample (s.classOf c).bits v)
        ((s.storeSample c (groupSlot gr k) (scaleSlot gr) (deq2 s.cfg.num v.toNat (s.classOf c))).seekSample gr (c.index + 1))
  | l2Group (x gr c k) : s.hdr.kind = .l2 → s.pos = .sample gr c k → (s.classOf c).grouped = true →
      BodyStep s (.l2Group (s.classOf c).bits x)
        ((((s.storeSample c (groupSlot gr 0) (scaleSlot gr) (deq2 s.cfg.num (demux (s.classOf c).levels x.toNat).1 (s.classOf c))).storeSample
            c (groupSlot gr 1) (scaleSlot gr) (deq2 s.cfg.num (demux (s.classOf c).levels x.toNat).2.1 (s.classOf c))).storeSample
            c (groupSlot gr 2) (scaleSlot gr) (deq2 s.cfg.num (demux (s.classOf c).levels x.toNat).2.2 (s.classOf c))).seekSample gr
          (c.index + 1))

/-- An element of a frame body raises for want of bits, raises for index 63, or takes the step of its kind. -/
theorem unitEffect_body {i : Instr} (h : s.bodySelected = some i.shape) :
    (s.endBit < s.bp + i.shape.width ∧ unitEffect i s = s.raise .midFrameEof) ∨
    (s.bp + i.shape.width ≤ s.endBit ∧
      ((i.shape.width = 6 ∧ unitEffect i s = (s.advance 6).raise .invalidField) ∨
        BodyStep (s.advance i.shape.width) i (unitEffect i s))) := by
  have hbody := State.bodySelected_cases h
  have hadv : ∀ n c, (s.advance n).classOf c = s.classOf c := fun _ _ => rfl
  cases i with
  | skip _ | frameL1 _ | frameL2 _ | frameL3 _ | frameRsv _ | crc16 _ | padBits _ _ => simp [Instr.shape] at hbody
  | l1Alloc a =>
    simp [Instr.shape] at hbody
    obtain ⟨hk, c, hp⟩ := hbody
    obtain ⟨hl, e⟩ | ⟨hl, e⟩ := s.consume_cases 4 fun s => s.atAlloc fun c => (s.storeAlloc c a).seekAlloc (c.index + 1)
    · exact .inl ⟨hl, e⟩
    · refine .inr ⟨hl, .inr ?_⟩
      rw [show unitEffect (.l1Alloc a) s = _ from e]
      simp only [State.atAlloc, State.advance_pos, hp]
      exact .l1Alloc a c hk hp
  | l1Scf x =>
    simp [Instr.shape] at hbody
    obtain ⟨hk, c, got, hp⟩ := hbody
    obtain ⟨hl, e⟩ | ⟨hl, e⟩ := s.consume_cases 6 fun s => s.atScf fun c _ =>
      if x = 63#6 then s.raise .invalidField
      else (s.withWork (s.work.setScfIdx c.ch c.sb 0 x)).seekScf (c.index + 1)
    · exact .inl ⟨hl, e⟩
    · refine .inr ⟨hl, ?_⟩
      simp only [State.atScf, State.advance_pos, hp] at e
      by_cases hx : x = 63#6
      · exact .inl ⟨rfl, e.trans (if_pos hx)⟩
      · refine .inr ?_
        rw [show unitEffect (.l1Scf x) s = _ from e, if_neg hx]
        exact .l1Scf x c got hk hp hx
  | l1Sample w v =>
    simp [Instr.shape] at hbody
    obtain ⟨hk, t, c, ⟨k, hp⟩, hw⟩ := hbody
    subst hw
    obtain ⟨hl, e⟩ | ⟨hl, e⟩ := s.consume_cases ((s.work.allocAt c.ch c.sb).toNat + 1) fun s => s.atSample fun t c _ =>
      (s.storeSample c (t.castLE (by decide)) 0 (deq1 s.cfg.num v.toNat (s.work.allocAt c.ch c.sb).toNat)).seekSample t (c.index + 1)
    · exact .inl ⟨hl, e⟩
    · refine .inr ⟨hl, .inr ?_⟩
      rw [show unitEffect (.l1Sample _ v) s = _ from e]
      simp only [State.atSample, State.advance_pos, hp]
      exact .l1Sample v t c k hk hp
  | l2Alloc w a =>
    simp [Instr.shape] at hbody
    obtain ⟨hk, c, hp, hw⟩ := hbody
    subst hw
    obtain ⟨hl, e⟩ | ⟨hl, e⟩ := s.consume_cases (s.cfg.nbal s.work.l2Set c.sb) fun s => s.atAlloc fun c =>
      (s.storeAlloc c a).seekAlloc (c.index + 1)
    · exact .inl ⟨hl, e⟩
    · refine .inr ⟨hl, .inr ?_⟩
      rw [show unitEffect (.l2Alloc _ a) s = _ from e]
      simp only [State.atAlloc, State.advance_pos, hp]
      exact .l2Alloc a c hk hp
  | l2Scfsi x =>
    simp [Instr.shape] at hbody
    obtain ⟨hk, c, hp⟩ := hbody
    obtain ⟨hl, e⟩ | ⟨hl, e⟩ := s.consume_cases 2 fun s => s.atScfsi fun c =>
      (s.withWork (s.work.setScfsi c.ch c.sb x)).seekScfsi (c.index + 1)
    · exact .inl ⟨hl, e⟩
    · refine .inr ⟨hl, .inr ?_⟩
      rw [show unitEffect (.l2Scfsi x) s = _ from e]
      simp only [State.atScfsi, State.advance_pos, hp]
      exact .l2Scfsi x c hk hp
  | l2Scf x =>
    simp [Instr.shape] at hbody
    obtain ⟨hk, c, got, hp⟩ := hbody
    obtain ⟨hl, e⟩ | ⟨hl, e⟩ := s.consume_cases 6 fun s => s.atScf fun c got =>
      let code := s.work.scfsiAt c.ch c.sb
      let got := got ++ [x]
      if got.length < scfsiCount code then s.goto .layerDecode (.scf c got)
      else if got.contains 63#6 then s.raise .invalidField
      else (s.storeScfIdx c (scfsiPattern code got)).seekScf (c.index + 1)
    · exact .inl ⟨hl, e⟩
    · refine .inr ⟨hl, ?_⟩
      simp only [State.atScf, State.advance_pos, hp] at e
      by_cases hlen : (got ++ [x]).length < scfsiCount (s.work.scfsiAt c.ch c.sb)
      · refine .inr ?_
        rw [show unitEffect (.l2Scf x) s = _ from e, State.advance_work, if_pos hlen]
        exact .l2ScfMore x c got hk hp hlen
      · by_cases hm : 63#6 ∈ got ++ [x]
        · exact .inl ⟨rfl, e.trans ((if_neg hlen).trans (if_pos (by simpa using hm)))⟩
        · refine .inr ?_
          rw [show unitEffect (.l2Scf x) s = _ from e, State.advance_work, if_neg hlen, if_neg (by simpa using hm)]
          exact .l2ScfLast x c got hk hp (by simpa using hlen) hm
  | l2Sample w v =>
    simp [Instr.shape] at hbody
    obtain ⟨hk, gr, c, ⟨k, hp⟩, hg, hw⟩ := hbody
    subst hw
    obtain ⟨hl, e⟩ | ⟨hl, e⟩ := s.consume_cases (s.classOf c).bits fun s => s.atSample fun gr c k =>
      let s' := s.storeSample c (groupSlot gr k) (scaleSlot gr) (deq2 s.cfg.num v.toNat (s.classOf c))
      if h : k.val + 1 < 3 then s'.goto .layerDecode (.sample gr c ⟨k.val + 1, h⟩)
      else s'.seekSample gr (c.index + 1)
    · exact .inl ⟨hl, e⟩
    · refine .inr ⟨hl, .inr ?_⟩
      rw [show unitEffect (.l2Sample _ v) s = _ from e]
      simp only [State.atSample, State.advance_pos, hp]
      split
      · next h => exact .l2SampleMore v gr c k h hk hp hg
      · next h => exact .l2SampleLast v gr c k hk hp h hg
  | l2Group w x =>
    simp [Instr.shape] at hbody
    obtain ⟨hk, gr, c, ⟨k, hp⟩, hg, hw⟩ := hbody
    subst hw
    obtain ⟨hl, e⟩ | ⟨hl, e⟩ := s.consume_cases (s.classOf c).bits fun s => s.atSample fun gr c _ =>
      let q := s.classOf c
      let v := demux q.levels x.toNat
      let p := scaleSlot gr
      (((s.storeSample c (groupSlot gr 0) p (deq2 s.cfg.num v.1 q)).storeSample c (groupSlot gr 1) p (deq2 s.cfg.num v.2.1 q)).storeSample c
        (groupSlot gr 2) p (deq2 s.cfg.num v.2.2 q)).seekSample gr (c.index + 1)
    · exact .inl ⟨hl, e⟩
    · refine .inr ⟨hl, .inr ?_⟩
      rw [show unitEffect (.l2Group _ x) s = _ from e]
      simp only [State.atSample, State.advance_pos, hp]
      exact .l2Group x gr c k hk hp hg

/-- What a body element leaves alone: everything but the working registers, `FSM` and the position. -/
theorem BodyStep.same {i : Instr} {t : State} (h : BodyStep s i t) :
    t.input = s.input ∧ t.bp = s.bp ∧ t.hdr = s.hdr ∧ t.latch = s.latch ∧ t.frames = s.frames ∧ t.nsamp = s.nsamp ∧
      t.errCode = s.errCode ∧ t.synth = s.synth ∧ t.out = s.out := by
  cases h with
  | l2ScfMore x c got hk hp hl => simp
  | l2SampleMore v gr c k h hk hp hg => simp
  | l1Alloc a c hk hp => obtain ⟨f, p, e⟩ := (s.storeAlloc c a).seekAlloc_goto (c.index + 1); rw [e]; simp
  | l2Alloc a c hk hp => obtain ⟨f, p, e⟩ := (s.storeAlloc c a).seekAlloc_goto (c.index + 1); rw [e]; simp
  | l1Scf x c got hk hp hx =>
    obtain ⟨f, p, e⟩ := (s.withWork (s.work.setScfIdx c.ch c.sb 0 x)).seekScf_goto (c.index + 1); rw [e]; simp
  | l2Scfsi x c hk hp =>
    obtain ⟨f, p, e⟩ := (s.withWork (s.work.setScfsi c.ch c.sb x)).seekScfsi_goto (c.index + 1); rw [e]; simp
  | l2ScfLast x c got hk hp hl hm =>
    obtain ⟨f, p, e⟩ := State.seekScf_goto (s.storeScfIdx c (scfsiPattern (s.work.scfsiAt c.ch c.sb) (got ++ [x]))) (c.index + 1)
    rw [e]; simp
  | l1Sample v t c k hk hp =>
    obtain ⟨f, p, e⟩ := State.seekSample_goto (s.storeSample c (t.castLE (by decide)) 0
      (deq1 s.cfg.num v.toNat (s.work.allocAt c.ch c.sb).toNat)) t (c.index + 1)
    rw [e]; simp
  | l2SampleLast v gr c k hk hp h hg =>
    obtain ⟨f, p, e⟩ := State.seekSample_goto (s.storeSample c (groupSlot gr k) (scaleSlot gr) (deq2 s.cfg.num v.toNat (s.classOf c))) gr
      (c.index + 1)
    rw [e]; simp
  | l2Group x gr c k hk hp hg =>
    obtain ⟨f, p, e⟩ := State.seekSample_goto (((s.storeSample c (groupSlot gr 0) (scaleSlot gr)
      (deq2 s.cfg.num (demux (s.classOf c).levels x.toNat).1 (s.classOf c))).storeSample c (groupSlot gr 1) (scaleSlot gr)
      (deq2 s.cfg.num (demux (s.classOf c).levels x.toNat).2.1 (s.classOf c))).storeSample c (groupSlot gr 2) (scaleSlot gr)
      (deq2 s.cfg.num (demux (s.classOf c).levels x.toNat).2.2 (s.classOf c))) gr (c.index + 1)
    rw [e]; simp

/-- A body element keeps the parameters. -/
theorem BodyStep.cfg {i : Instr} {t : State} (h : BodyStep s i t) : t.cfg = s.cfg := by
  cases h with
  | l2ScfMore | l2SampleMore => rfl
  | l1Alloc a c | l2Alloc a c => obtain ⟨f, p, e⟩ := (s.storeAlloc c a).seekAlloc_goto (c.index + 1); rw [e]; rfl
  | l1Scf | l2ScfLast => obtain ⟨f, p, e⟩ := State.seekScf_goto _ _; rw [e]; rfl
  | l2Scfsi => obtain ⟨f, p, e⟩ := State.seekScfsi_goto _ _; rw [e]; rfl
  | l1Sample | l2SampleLast | l2Group => obtain ⟨f, p, e⟩ := State.seekSample_goto _ _ _; rw [e]; rfl

theorem BodyStep.ahead {i : Instr} {t : State} (h : BodyStep s i t) : t.ahead = s.ahead := by
  cases h with
  | l2ScfMore | l2SampleMore => rfl
  | l1Alloc a c | l2Alloc a c => obtain ⟨f, p, e⟩ := (s.storeAlloc c a).seekAlloc_goto (c.index + 1); rw [e]; rfl
  | l1Scf | l2ScfLast => obtain ⟨f, p, e⟩ := State.seekScf_goto _ _; rw [e]; rfl
  | l2Scfsi => obtain ⟨f, p, e⟩ := State.seekScfsi_goto _ _; rw [e]; rfl
  | l1Sample | l2SampleLast | l2Group => obtain ⟨f, p, e⟩ := State.seekSample_goto _ _ _; rw [e]; rfl

theorem scfsiCount_pos (code : BitVec 2) : 0 < scfsiCount code := by
  revert code; decide

/-- After a body element the block is at another element of the body, or the body is read. -/
theorem BodyStep.position {i : Instr} {t : State} (h : BodyStep s i t)
    (hin : s.PositionInBody) : (t.fsm = .layerDecode ∧ t.PositionInBody) ∨ (t.fsm = .synth ∧ t.pos = .slot 0) := by
  have goAlloc : ∀ (u : State) (c : SubCh), u.hasAlloc c = true → (u.goto .layerDecode (.alloc c)).PositionInBody :=
    fun u c h => h
  have goScfsi : ∀ (u : State) (c : SubCh), u.hdr.kind = .l2 → u.coded c = true →
      (u.goto .layerDecode (.scfsi c)).PositionInBody := fun u c hk h => ⟨hk, h⟩
  have goScf : ∀ (u : State) (c : SubCh), u.coded c = true → (u.goto .layerDecode (.scf c [])).PositionInBody := by
    intro u c h
    refine ⟨h, ?_⟩
    split
    · exact scfsiCount_pos _
    · rfl
  have goSample : ∀ (u : State) (t : Fin 12) (c : SubCh), u.hasSample c = true →
      (u.goto .layerDecode (.sample t c 0)).PositionInBody := fun u t c h => ⟨h, .inr rfl⟩
  have sample : ∀ (u : State) (t : Fin 12) (n : Nat),
      ((u.seekSample t n).fsm = .layerDecode ∧ (u.seekSample t n).PositionInBody) ∨
        ((u.seekSample t n).fsm = .synth ∧ (u.seekSample t n).pos = .slot 0) := by
    intro u t n
    obtain ⟨t', c, hc, e⟩ | e := u.seekSample_cases t n <;> rw [e]
    · exact .inl ⟨rfl, goSample u t' c hc⟩
    · exact .inr ⟨rfl, rfl⟩
  have scf : ∀ (u : State) (n : Nat),
      ((u.seekScf n).fsm = .layerDecode ∧ (u.seekScf n).PositionInBody) ∨
        ((u.seekScf n).fsm = .synth ∧ (u.seekScf n).pos = .slot 0) := by
    intro u n
    obtain ⟨c, hc, e⟩ | ⟨c, hc, e⟩ | e := u.seekScf_cases n <;> rw [e]
    · exact .inl ⟨rfl, goScf u c hc⟩
    · exact .inl ⟨rfl, goSample u 0 c hc⟩
    · exact .inr ⟨rfl, rfl⟩
  have scfsi : ∀ (u : State) (n : Nat), u.hdr.kind = .l2 →
      ((u.seekScfsi n).fsm = .layerDecode ∧ (u.seekScfsi n).PositionInBody) ∨
        ((u.seekScfsi n).fsm = .synth ∧ (u.seekScfsi n).pos = .slot 0) := by
    intro u n hk
    obtain ⟨c, hc, e⟩ | ⟨c, hc, e⟩ | ⟨c, hc, e⟩ | e := u.seekScfsi_cases n <;> rw [e]
    · exact .inl ⟨rfl, goScfsi u c hk hc⟩
    · exact .inl ⟨rfl, goScf u c hc⟩
    · exact .inl ⟨rfl, goSample u 0 c hc⟩
    · exact .inr ⟨rfl, rfl⟩
  have alloc : ∀ (u : State) (n : Nat),
      ((u.seekAlloc n).fsm = .layerDecode ∧ (u.seekAlloc n).PositionInBody) ∨
        ((u.seekAlloc n).fsm = .synth ∧ (u.seekAlloc n).pos = .slot 0) := by
    intro u n
    obtain ⟨c, hc, e⟩ | ⟨hk, c, hc, e⟩ | ⟨c, hc, e⟩ | ⟨c, hc, e⟩ | e := u.seekAlloc_cases n <;> rw [e]
    · exact .inl ⟨rfl, goAlloc u c hc⟩
    · exact .inl ⟨rfl, goScfsi u c hk hc⟩
    · exact .inl ⟨rfl, goScf u c hc⟩
    · exact .inl ⟨rfl, goSample u 0 c hc⟩
    · exact .inr ⟨rfl, rfl⟩
  cases h with
  | l1Alloc a c hk hp => exact alloc _ _
  | l2Alloc a c hk hp => exact alloc _ _
  | l1Scf x c got hk hp hx => exact scf _ _
  | l2Scfsi x c hk hp => exact scfsi _ _ hk
  | l2ScfMore x c got hk hp hl =>
    unfold State.PositionInBody at hin
    rw [hp] at hin
    refine .inl ⟨rfl, hin.1, ?_⟩
    rw [if_pos (show (s.goto .layerDecode (.scf c (got ++ [x]))).hdr.kind = .l2 from hk)]
    exact hl
  | l2ScfLast x c got hk hp hl hm => exact scf _ _
  | l1Sample v t c k hk hp => exact sample _ _ _
  | l2SampleMore v gr c k h hk hp hg =>
    unfold State.PositionInBody at hin
    rw [hp] at hin
    have halloc := (s.storeSample_other c (groupSlot gr k) (scaleSlot gr) (deq2 s.cfg.num v.toNat (s.classOf c)))
    have e := (State.elements_congr (State.storeSample_hdr ..) (State.storeSample_latch ..) halloc.1 halloc.2.2.2.2.1).2.2.1
    have e2 := State.classOf_congr (State.storeSample_cfg s c (groupSlot gr k) (scaleSlot gr) _) halloc.1 halloc.2.2.2.1
    refine .inl ⟨rfl, ?_, .inl ⟨hk, ?_⟩⟩
    · exact (congrFun e c).trans hin.1
    · exact (congrArg QuantClass.grouped (congrFun e2 c)).trans hg
  | l2SampleLast v gr c k hk hp h hg => exact sample _ _ _
  | l2Group x gr c k hk hp hg => exact sample _ _ _

/-- A body element leaves the block in the body or at its end. -/
theorem BodyStep.fsm {i : Instr} {t : State} (h : BodyStep s i t) : t.fsm = .layerDecode ∨ t.fsm = .synth := by
  have sample : ∀ (u : State) (t : Fin 12) (n : Nat), (u.seekSample t n).fsm = .layerDecode ∨ (u.seekSample t n).fsm = .synth := by
    intro u t n
    obtain ⟨t', c, hc, e⟩ | e := u.seekSample_cases t n <;> rw [e] <;> simp
  have scf : ∀ (u : State) (n : Nat), (u.seekScf n).fsm = .layerDecode ∨ (u.seekScf n).fsm = .synth := by
    intro u n
    obtain ⟨c, hc, e⟩ | ⟨c, hc, e⟩ | e := u.seekScf_cases n <;> rw [e] <;> simp
  have scfsi : ∀ (u : State) (n : Nat), (u.seekScfsi n).fsm = .layerDecode ∨ (u.seekScfsi n).fsm = .synth := by
    intro u n
    obtain ⟨c, hc, e⟩ | ⟨c, hc, e⟩ | ⟨c, hc, e⟩ | e := u.seekScfsi_cases n <;> rw [e] <;> simp
  have alloc : ∀ (u : State) (n : Nat), (u.seekAlloc n).fsm = .layerDecode ∨ (u.seekAlloc n).fsm = .synth := by
    intro u n
    obtain ⟨c, hc, e⟩ | ⟨hk, c, hc, e⟩ | ⟨c, hc, e⟩ | ⟨c, hc, e⟩ | e := u.seekAlloc_cases n <;> rw [e] <;> simp
  cases h with
  | l1Alloc | l2Alloc => exact alloc _ _
  | l1Scf | l2ScfLast => exact scf _ _
  | l2Scfsi => exact scfsi _ _
  | l2ScfMore | l2SampleMore => exact .inl rfl
  | l1Sample | l2SampleLast | l2Group => exact sample _ _ _

/-- A body element keeps `L2SET` and `SBLIMIT`. -/
theorem BodyStep.tableSet {i : Instr} {t : State} (h : BodyStep s i t) :
    t.work.l2Set = s.work.l2Set ∧ t.work.sbLimit = s.work.sbLimit := by
  have ws : ∀ (u : State) (c : SubCh) (t : Fin 36) (p : Fin 3) (f : NumVal),
      (u.storeSample c t p f).work.l2Set = u.work.l2Set ∧ (u.storeSample c t p f).work.sbLimit = u.work.sbLimit :=
    fun u c t p f => ⟨(u.storeSample_other c t p f).2.2.2.1, (u.storeSample_other c t p f).2.2.2.2.1⟩
  have wa : ∀ (u : State) (c : SubCh) (a : BitVec 4),
      (u.storeAlloc c a).work.l2Set = u.work.l2Set ∧ (u.storeAlloc c a).work.sbLimit = u.work.sbLimit :=
    fun u c a => ⟨(u.storeAlloc_other c a).2.2.1, (u.storeAlloc_other c a).2.2.2.1⟩
  cases h with
  | l2ScfMore x c got hk hp hl => simp
  | l2SampleMore v gr c k h hk hp hg => exact ws _ _ _ _ _
  | l1Alloc a c hk hp =>
    obtain ⟨f, p, e⟩ := (s.storeAlloc c a).seekAlloc_goto (c.index + 1); rw [e]; exact wa _ _ _
  | l2Alloc a c hk hp =>
    obtain ⟨f, p, e⟩ := (s.storeAlloc c a).seekAlloc_goto (c.index + 1); rw [e]; exact wa _ _ _
  | l1Scf x c got hk hp hx =>
    obtain ⟨f, p, e⟩ := (s.withWork (s.work.setScfIdx c.ch c.sb 0 x)).seekScf_goto (c.index + 1); rw [e]; simp
  | l2Scfsi x c hk hp =>
    obtain ⟨f, p, e⟩ := (s.withWork (s.work.setScfsi c.ch c.sb x)).seekScfsi_goto (c.index + 1); rw [e]; simp
  | l2ScfLast x c got hk hp hl hm =>
    obtain ⟨f, p, e⟩ := State.seekScf_goto (s.storeScfIdx c (scfsiPattern (s.work.scfsiAt c.ch c.sb) (got ++ [x]))) (c.index + 1)
    rw [e]; simp [State.storeScfIdx]
  | l1Sample v t c k hk hp =>
    obtain ⟨f, p, e⟩ := State.seekSample_goto (s.storeSample c (t.castLE (by decide)) 0
      (deq1 s.cfg.num v.toNat (s.work.allocAt c.ch c.sb).toNat)) t (c.index + 1)
    rw [e]; exact ws _ _ _ _ _
  | l2SampleLast v gr c k hk hp h hg =>
    obtain ⟨f, p, e⟩ := State.seekSample_goto (s.storeSample c (groupSlot gr k) (scaleSlot gr) (deq2 s.cfg.num v.toNat (s.classOf c))) gr
      (c.index + 1)
    rw [e]; exact ws _ _ _ _ _
  | l2Group x gr c k hk hp hg =>
    obtain ⟨f, p, e⟩ := State.seekSample_goto (((s.storeSample c (groupSlot gr 0) (scaleSlot gr)
      (deq2 s.cfg.num (demux (s.classOf c).levels x.toNat).1 (s.classOf c))).storeSample c (groupSlot gr 1) (scaleSlot gr)
      (deq2 s.cfg.num (demux (s.classOf c).levels x.toNat).2.1 (s.classOf c))).storeSample c (groupSlot gr 2) (scaleSlot gr)
      (deq2 s.cfg.num (demux (s.classOf c).levels x.toNat).2.2 (s.classOf c))) gr (c.index + 1)
    rw [e]
    simp only [State.goto_work, ws, and_self]

end Sys2Proof.Machine
end

