-- ==== Sys2Proof/Laws/Encoding.lean ====
section
/-! SUPPORT. Laws of the header word: its fields as arithmetic, and the frame it decodes to (30_encoding.md R82, R90). -/

namespace Sys2Proof.Machine

/-- The number of a concatenation. -/
theorem toNat_append_add {m n : Nat} (x : BitVec m) (y : BitVec n) : (x ++ y).toNat = x.toNat * 2 ^ n + y.toNat := by
  rw [BitVec.toNat_append, ← Nat.shiftLeft_add_eq_or_of_lt y.isLt, Nat.shiftLeft_eq]

/-- A header word as the sum of its fields (30_encoding.md R82). -/
theorem headerWord_toNat (l : BitVec 2) (h : HdrFields) : headerWord l h = 0xFFF * 2^20 + h.id.toNat * 2^19 + l.toNat * 2^17 +
    h.prot.toNat * 2^16 + h.br.toNat * 2^12 + h.fs.toNat * 2^10 + h.pad.toNat * 2^9 + h.priv.toNat * 2^8 + h.mode.toNat * 2^6 +
    h.ext.toNat * 2^4 + h.tail.toNat := by
  unfold headerWord
  simp only [toNat_append_add, BitVec.toNat_ofNat]
  omega

/-- A header word has 32 bits. -/
theorem headerWord_lt (l : BitVec 2) (h : HdrFields) : headerWord l h < 2 ^ 32 := by
  unfold headerWord; exact BitVec.isLt _

/-- The fields of a header word are those it was built from. -/
theorem headerFields_headerWord (l : BitVec 2) (h : HdrFields) : headerFields (headerWord l h) = h ∧ headerField 12 20
    (headerWord l h) = 0xFFF#12 ∧ headerField 2 17 (headerWord l h) = l := by
  have e := headerWord_toNat l h
  have h1 := h.id.isLt; have h2 := h.prot.isLt; have h3 := h.br.isLt; have h4 := h.fs.isLt; have h5 := h.pad.isLt
  have h6 := h.priv.isLt; have h7 := h.mode.isLt; have h8 := h.ext.isLt; have h9 := h.tail.isLt; have h10 := l.isLt
  have key : ∀ {n : Nat} (lo : Nat) (x : BitVec n), headerWord l h / 2 ^ lo % 2 ^ n = x.toNat → headerField n lo (headerWord l h)
      = x := by
    intro n lo x hx
    apply BitVec.eq_of_toNat_eq
    rw [headerField, BitVec.toNat_ofNat, Nat.shiftRight_eq_div_pow, hx]
  refine ⟨?_, key _ _ ?_, key _ _ ?_⟩
  · obtain ⟨a, p, b, f, d, v, m, e, t⟩ := h
    unfold headerFields
    simp only [HdrFields.mk.injEq]
    refine ⟨key _ _ ?_, key _ _ ?_, key _ _ ?_, key _ _ ?_, key _ _ ?_, key _ _ ?_, key _ _ ?_, key _ _ ?_, key _ _ ?_⟩ <;> dsimp
        only at * <;> omega
  · rw [e, BitVec.toNat_ofNat]; omega
  · rw [e]; omega

/-- A 32-bit word is the sum of its twelve pieces. -/
theorem word_eq_sum_of_fields (w : Nat) (h : w < 2 ^ 32) : w = w / 2 ^ 20 % 2 ^ 12 * 2 ^ 20 + w / 2 ^ 19 % 2 ^ 1 * 2 ^ 19 + w /
    2 ^ 17 % 2 ^ 2 * 2 ^ 17 + w / 2 ^ 16 % 2 ^ 1 * 2 ^ 16 + w / 2 ^ 12 % 2 ^ 4 * 2 ^ 12 + w / 2 ^ 10 % 2 ^ 2 * 2 ^ 10 + w / 2 ^
    9 % 2 ^ 1 * 2 ^ 9 + w / 2 ^ 8 % 2 ^ 1 * 2 ^ 8 + w / 2 ^ 6 % 2 ^ 2 * 2 ^ 6 + w / 2 ^ 4 % 2 ^ 2 * 2 ^ 4 + w / 2 ^ 0 % 2 ^ 4 :=
    by
  have a1 : w = 2 ^ 4 * (w / 2 ^ 4) + w / 2 ^ 0 % 2 ^ 4 := by omega
  have a2 : w / 2 ^ 4 = 2 ^ 2 * (w / 2 ^ 6) + w / 2 ^ 4 % 2 ^ 2 := by omega
  have a3 : w / 2 ^ 6 = 2 ^ 2 * (w / 2 ^ 8) + w / 2 ^ 6 % 2 ^ 2 := by omega
  have a4 : w / 2 ^ 8 = 2 ^ 1 * (w / 2 ^ 9) + w / 2 ^ 8 % 2 ^ 1 := by omega
  have a5 : w / 2 ^ 9 = 2 ^ 1 * (w / 2 ^ 10) + w / 2 ^ 9 % 2 ^ 1 := by omega
  have a6 : w / 2 ^ 10 = 2 ^ 2 * (w / 2 ^ 12) + w / 2 ^ 10 % 2 ^ 2 := by omega
  have a7 : w / 2 ^ 12 = 2 ^ 4 * (w / 2 ^ 16) + w / 2 ^ 12 % 2 ^ 4 := by omega
  have a8 : w / 2 ^ 16 = 2 ^ 1 * (w / 2 ^ 17) + w / 2 ^ 16 % 2 ^ 1 := by omega
  have a9 : w / 2 ^ 17 = 2 ^ 2 * (w / 2 ^ 19) + w / 2 ^ 17 % 2 ^ 2 := by omega
  have a10 : w / 2 ^ 19 = 2 ^ 1 * (w / 2 ^ 20) + w / 2 ^ 19 % 2 ^ 1 := by omega
  have a11 : w / 2 ^ 20 = w / 2 ^ 20 % 2 ^ 12 := by omega
  generalize w / 2 ^ 20 % 2 ^ 12 = f11 at *
  generalize w / 2 ^ 19 % 2 ^ 1 = f10 at *
  generalize w / 2 ^ 17 % 2 ^ 2 = f9 at *
  generalize w / 2 ^ 16 % 2 ^ 1 = f8 at *
  generalize w / 2 ^ 12 % 2 ^ 4 = f7 at *
  generalize w / 2 ^ 10 % 2 ^ 2 = f6 at *
  generalize w / 2 ^ 9 % 2 ^ 1 = f5 at *
  generalize w / 2 ^ 8 % 2 ^ 1 = f4 at *
  generalize w / 2 ^ 6 % 2 ^ 2 = f3 at *
  generalize w / 2 ^ 4 % 2 ^ 2 = f2 at *
  generalize w / 2 ^ 0 % 2 ^ 4 = f1 at *
  generalize w / 2 ^ 20 = q11 at *
  generalize w / 2 ^ 19 = q10 at *
  generalize w / 2 ^ 17 = q9 at *
  generalize w / 2 ^ 16 = q8 at *
  generalize w / 2 ^ 12 = q7 at *
  generalize w / 2 ^ 10 = q6 at *
  generalize w / 2 ^ 9 = q5 at *
  generalize w / 2 ^ 8 = q4 at *
  generalize w / 2 ^ 6 = q3 at *
  generalize w / 2 ^ 4 = q2 at *
  omega

/-- The header word of the fields of a word with the sync pattern is that word. -/
theorem headerWord_headerFields (w : Nat) (h : w < 2 ^ 32) (l : BitVec 2) (h1 : headerField 12 20 w = 0xFFF#12) (h2 :
    headerField 2 17 w = l) :
    headerWord l (headerFields w) = w := by
  rw [headerWord_toNat, ← h2]
  have h1' := congrArg BitVec.toNat h1
  simp only [headerField, headerFields, BitVec.toNat_ofNat, Nat.shiftRight_eq_div_pow] at *
  have h1'' : w / 2 ^ 20 % 2 ^ 12 = 0xFFF := h1'
  have := word_eq_sum_of_fields w h
  rw [h1''] at this
  exact this.symm

/-- A header word decodes to the frame of its layer bits. -/
theorem decodeHeader_headerWord (l : BitVec 2) (h : HdrFields) : decodeHeader (headerWord l h) = .ok (if l = 3#2 then .frameL1 h
    else if l = 2#2 then .frameL2 h else if l = 1#2 then .frameL3 h else .frameRsv h) := by
  obtain ⟨h1, h2, h3⟩ := headerFields_headerWord l h
  unfold decodeHeader
  rw [h2, h3, h1]
  simp only [ne_eq, not_true_eq_false, if_false]
  split
  · rfl
  · split
    · rfl
    · split <;> rfl

/-- A mask with ones at a field does not change the field. -/
theorem headerField_and_mask (n lo w m : Nat) (h : ∀ i, i < n → m.testBit (lo + i) = true) :
    headerField n lo w = headerField n lo (w &&& m) := by
  apply BitVec.eq_of_getLsbD_eq
  intro i hi
  simp only [headerField, BitVec.getLsbD_ofNat, Nat.testBit_shiftRight, Nat.testBit_and, h i hi, Bool.and_true]

/-- A byte has eight bits. -/
theorem byteToBits_length (b : Byte) : (byteToBits b).length = 8 := by simp [byteToBits]

/-- The number the bits of a byte spell is the byte. -/
theorem bitsToNat_byteToBits (b : Byte) : bitsToNat (byteToBits b) = b.toNat := by
  have := b.isLt
  rw [byteToBits, bitsToNat_natToBits]; omega

end Sys2Proof.Machine
end

