-- ==== Sys2Proof/Laws/Rom.lean ====
section
/-! SUPPORT. What a well-formed configuration says, said once: the bounds, the widths that elements can have, and that `READ_MAX`
covers them. -/

namespace Sys2Proof

theorem Bank.all_get {α : Type} {n : Nat} {b : Bank α n} {p : α → Bool} (h : b.cells.all p = true) (i : Fin n) :
    p (b.get i) = true :=
  List.all_eq_true.mp h _ (List.getElem_mem _)

/-- The parts of a well-formed configuration. -/
theorem Config.wf_parts {c : Config} (h : c.wf = true) :
    c.num.wf = true ∧ (∀ i, c.boundOf.get i = 4 ∨ c.boundOf.get i = 8 ∨ c.boundOf.get i = 12 ∨ c.boundOf.get i = 16) ∧
    (∀ set sb, (UnitShape.l2Alloc (c.nbal set sb)).widthOk = true) ∧ (∀ set sb n, (c.classOf set sb n).wf = true) ∧
    16 ≤ c.readMax := by
  simp only [Config.wf, Bool.and_eq_true, decide_eq_true_eq] at h
  obtain ⟨⟨⟨⟨h1, h2⟩, h3⟩, h4⟩, h5⟩ := h
  refine ⟨h1, fun i => ?_, fun set sb => ?_, fun set sb n => Bank.all_get h4 _, h5⟩
  · simpa using Bank.all_get h2 i
  · exact Bank.all_get (Bank.all_get h3 set.toFin) sb

/-- A class of a well-formed configuration: its width by its grouping, and what it divides by. -/
theorem QuantClass.wf_parts {q : QuantClass} (h : q.wf = true) :
    0 < q.levels ∧ 0 < q.T ∧ (q.grouped = true → (UnitShape.l2Group q.bits).widthOk = true) ∧
      (q.grouped = false → (UnitShape.l2Sample q.bits).widthOk = true) := by
  simp only [QuantClass.wf, Bool.and_eq_true, decide_eq_true_eq] at h
  refine ⟨h.1.1.1.1, h.1.1.1.2, fun g => ?_, fun g => ?_⟩
  · have := h.2; rwa [g] at this
  · have := h.2; rw [g] at this; simpa using this

/-- The parts of a well-formed number format. -/
theorem NumFormat.wf_parts {f : NumFormat} (h : f.wf = true) : 1 ≤ f.precision ∧ 2 ^ (15 + f.scale) ≤ f.largest := by
  simpa [NumFormat.wf] using h

end Sys2Proof

namespace Sys2Proof.Machine

theorem UnitShape.widthOk_padBits (s : State) : (UnitShape.padBits s.padWidth).widthOk = true := by
  have : s.padWidth ≤ 7 := by simp only [State.padWidth]; omega
  simp [UnitShape.widthOk, this]

theorem UnitShape.widthOk_l1Sample (a : BitVec 4) (h : a ≠ 0) : (UnitShape.l1Sample (a.toNat + 1)).widthOk = true := by
  have h1 : a.toNat ≠ 0 := fun e => h (BitVec.eq_of_toNat_eq e)
  have h2 := a.isLt
  simp [UnitShape.widthOk]; omega

/-- The widths the unit table allows are at most 16, a header's fields aside. -/
theorem readWidth_le_of_widthOk {sh : UnitShape} (h : sh.widthOk = true) : readWidth sh ≤ 16 := by
  cases sh <;> simp [UnitShape.widthOk, readWidth, UnitShape.width] at * <;> omega

/-- Where a well-formed configuration selects a unit, its width is one the unit table allows, or that of a Layer I sample. -/
theorem State.selected_width {s : State} {sh : UnitShape} (hc : s.cfg.wf = true) (h : s.selected = some sh) :
    sh.widthOk = true ∨ s.fsm = .layerDecode ∧ s.hdr.kind = .l1 ∧
      ∃ t c k, s.pos = .sample t c k ∧ sh = .l1Sample ((s.work.allocAt c.ch c.sb).toNat + 1) := by
  obtain ⟨_, _, hn, hq, _⟩ := Config.wf_parts hc
  unfold State.selected at h
  split at h
  · unfold State.seekSelected at h
    split at h
    · cases h
    · cases h
      unfold seekShape
      repeat' (first | exact .inl rfl | split)
  · cases h; exact .inl rfl
  · next hf =>
    unfold State.bodySelected at h
    split at h
    · cases h; exact .inl rfl
    · cases h; exact .inl rfl
    · next hk hp => cases h; exact .inr ⟨hf, hk, _, _, _, hp, rfl⟩
    · cases h; exact .inl (hn _ _)
    · cases h; exact .inl rfl
    · cases h; exact .inl rfl
    · next hk hp =>
      split at h
      · next g => cases h; exact .inl ((QuantClass.wf_parts (hq _ _ _)).2.2.1 g)
      · next g => cases h; exact .inl ((QuantClass.wf_parts (hq _ _ _)).2.2.2 (Bool.eq_false_iff.mpr g))
    · cases h
  · cases h; exact .inl (UnitShape.widthOk_padBits s)
  · cases h
  · cases h
  · cases h

/-- `READ_MAX` of a well-formed configuration covers every unit that a position selects (40_bit_reader.md R111). -/
theorem State.readWidth_le {s : State} {sh : UnitShape} (hc : s.cfg.wf = true) (h : s.selected = some sh) :
    readWidth sh ≤ s.cfg.readMax := by
  refine Nat.le_trans ?_ (Config.wf_parts hc).2.2.2.2
  obtain hw | ⟨_, _, t, c, k, _, rfl⟩ := State.selected_width hc h
  · exact readWidth_le_of_widthOk hw
  · have := (s.work.allocAt c.ch c.sb).isLt
    simp only [readWidth, UnitShape.width]; omega

/-- The padding of a cursor inside the input is inside the input. -/
theorem State.padWidth_fits {s : State} (h : s.bp ≤ s.endBit) : s.bp + s.padWidth ≤ s.endBit := by
  simp only [State.padWidth, State.endBit] at *; omega

end Sys2Proof.Machine
end

