-- ==== Sys2Proof/Laws/Step.lean ====
section
/-! SUPPORT. What one step can do, said once. -/

namespace Sys2Proof.Machine

/-- A step that answers a next state: one case for each value of `FSM`, and in `SEEK_SYNC` one for the end of the input, a
skipped byte and a frame. -/
inductive StepTo (s : State) : State → Prop where
  | endRun : s.fsm = .seekSync → s.input.size ≤ s.byteIndex → StepTo s s.endRun
  | skip : s.fsm = .seekSync → s.byteIndex < s.input.size → s.seekSelected = some .skip → StepTo s s.skipByte
  | frame (layer h) : s.fsm = .seekSync → s.byteIndex + 1 < s.input.size → s.seekSelected = some .header →
      StepTo s (s.frame layer h)
  | crc16 : s.fsm = .header → StepTo s (s.consume 16 State.finishHeader)
  | bodyEof (n) : s.fsm = .layerDecode → s.endBit < s.bp + n → StepTo s (s.raise .midFrameEof)
  | bodyInvalid : s.fsm = .layerDecode → s.bp + 6 ≤ s.endBit → StepTo s ((s.advance 6).raise .invalidField)
  | body (i t) : s.fsm = .layerDecode → s.bodySelected = some i.shape → i.wf = true → s.bp + i.shape.width ≤ s.endBit →
      BodyStep (s.advance i.shape.width) i t → StepTo s t
  | slot (k) : s.fsm = .synth → s.pos = .slot k → StepTo s ((s.synthSlot (window s.cfg.num) k).nextSlot k)
  | align : s.fsm = .align → StepTo s (s.consume s.padWidth State.completeFrame)
  | terminal : s.fsm = .done ∨ s.fsm = .error → StepTo s s

theorem decodeHeader_shape {v : Nat} {i : Instr} (h : decodeHeader v = .ok i) : i.shape = .header := by
  unfold decodeHeader at h
  split at h
  · cases h
  · dsimp only at h
    split at h
    · cases h; rfl
    · split at h
      · cases h; rfl
      · split at h <;> cases h <;> rfl

/-- What the decoder answers has the shape that was selected. -/
theorem decode_shape {sh : UnitShape} {bits : List Bool} {i : Instr} (h : decode sh bits = .ok i) : i.shape = sh := by
  unfold decode at h
  split at h
  · cases h
  · unfold decodeValue at h
    split at h
    · cases h
    · cases sh with
      | header => exact decodeHeader_shape h
      | _ => cases h; rfl

/-- What the decoder answers is well formed. -/
theorem decode_wf {sh : UnitShape} {bits : List Bool} {i : Instr} (h : decode sh bits = .ok i) : i.wf = true := by
  have hs := decode_shape h
  unfold decode at h
  split at h
  · cases h
  · next hl =>
    have hl : bits.length = sh.width := by simpa using hl
    have hlt := bitsToNat_lt bits
    rw [hl] at hlt
    unfold decodeValue at h
    split at h
    · cases h
    · next hw =>
      have hw : sh.widthOk = true := by simpa using hw
      have hmod : ∀ m : Nat, bitsToNat bits % m ≤ bitsToNat bits := fun m => Nat.mod_le _ _
      unfold Instr.wf
      rw [hs, hw, Bool.true_and]
      cases sh with
      | header =>
        cases i <;> first | rfl | simp [Instr.shape] at hs
      | skip | crc16 | l1Alloc | l1Scf | l2Scfsi | l2Scf => cases h; rfl
      | l1Sample w | l2Alloc w | l2Sample w | l2Group w | padBits w =>
        cases h
        simp only [UnitShape.width] at hlt
        simp only [Instr.fits, decide_eq_true_eq, BitVec.toNat_ofNat]
        exact Nat.lt_of_le_of_lt (hmod _) hlt

theorem State.fetch_eq_some {s : State} {i : Instr} (h : s.fetch = some i) :
    s.selected = some i.shape ∧ decode i.shape (s.input.bits s.fetchBit i.shape.width) = .ok i := by
  unfold State.fetch at h
  split at h
  · cases h
  · next sh hsh =>
    have hd : decode sh (s.input.bits s.fetchBit sh.width) = .ok i := by
      revert h
      cases decode sh (s.input.bits s.fetchBit sh.width) with
      | error e => intro h; cases h
      | ok j => intro h; exact congrArg Except.ok (Option.some.inj h)
    have := decode_shape hd
    subst this
    exact ⟨hsh, hd⟩

theorem State.seekSelected_header {s : State} (h : s.seekSelected = some .header) :
    ∃ b1, s.input.read s.byteIndex = some 0xFF#8 ∧ s.input.read (s.byteIndex + 1) = some b1 ∧ 0xF0#8 ≤ b1 := by
  unfold State.seekSelected at h
  split at h
  · cases h
  · next b hb =>
    have h := Option.some.inj h
    unfold seekShape at h
    split at h
    · cases h
    · next b1 hb1 =>
      split at h
      · next hc =>
        simp only [isCandidate, Bool.and_eq_true, decide_eq_true_eq] at hc
        exact ⟨b1, by rw [hb, hc.1], hb1, hc.2⟩
      · cases h

/-- What one step can do. -/
theorem step_cases {s t : State} (h : step s = .next t) : StepTo s t := by
  obtain ⟨hf, hle, rfl⟩ | ⟨k, hf, hp, rfl⟩ | ⟨hf, rfl⟩ | ⟨hst, i, hi, hsel, rfl⟩ := step_eq_next h
  · exact .endRun hf hle
  · exact .slot k hf hp
  · exact .terminal hf
  · obtain ⟨hf, hsh, hseek⟩ | ⟨hf, hsh⟩ | ⟨hf, hbody⟩ | ⟨hf, hsh⟩ := State.selected_cases hsel
    · have hlt : s.byteIndex < s.input.size := by
        by_contra hc
        simp [State.stage, hf, hc] at hst
      have hframe : i.shape = .header → ∀ layer h, StepTo s (s.frame layer h) := by
        intro he layer h
        obtain ⟨b1, _, hb1, _⟩ := State.seekSelected_header (he ▸ hseek)
        exact .frame layer h hf ((Memory.read_isSome_iff _ _).mp (by rw [hb1]; rfl)) (he ▸ hseek)
      cases i with
      | skip x => exact .skip hf hlt hseek
      | frameL1 h => exact hframe rfl _ _
      | frameL2 h => exact hframe rfl _ _
      | frameL3 h => exact hframe rfl _ _
      | frameRsv h => exact hframe rfl _ _
      | _ => simp [Instr.shape] at hsh
    · cases i with
      | crc16 c => exact .crc16 hf
      | _ => simp [Instr.shape] at hsh
    · obtain ⟨hl, e⟩ | ⟨hl, ⟨h6, e⟩ | hb⟩ := unitEffect_body hbody
      · rw [e]; exact .bodyEof _ hf hl
      · rw [e]; exact .bodyInvalid hf (h6 ▸ hl)
      · exact .body i _ hf hbody (decode_wf (State.fetch_eq_some hi).2) hl hb
    · cases i with
      | padBits w z =>
        have : w = s.padWidth := by simpa [Instr.shape] using hsh
        subst this
        exact .align hf
      | _ => simp [Instr.shape] at hsh

/-- The states a frame unit can lead to. -/
theorem State.frame_cases (s : State) (layer : BitVec 2) (h : HdrFields) :
    (s.endBit < 8 * s.byteIndex + 32 ∧ s.frame layer h = s.acceptCandidate.raise .midFrameEof) ∨
    (8 * s.byteIndex + 32 ≤ s.endBit ∧
      s.frame layer h = (s.acceptCandidate.advance 20).headerStage layer h) := by
  obtain ⟨hl, e⟩ | ⟨hl, e⟩ := s.acceptCandidate.consume_cases 20 (fun s => s.headerStage layer h)
  · refine .inl ⟨?_, e⟩
    simp only [State.acceptCandidate_endBit, State.acceptCandidate_bp] at hl
    omega
  · refine .inr ⟨?_, e⟩
    simp only [State.acceptCandidate_endBit, State.acceptCandidate_bp] at hl
    omega

/-- Bits of an allowed width decode; a header word needs the sync pattern. -/
theorem decode_ok {sh : UnitShape} {bits : List Bool} (hl : bits.length = sh.width) (hw : sh.widthOk = true)
    (hh : sh = .header → headerField 12 20 (bitsToNat bits) = 0xFFF#12) : ∃ i, decode sh bits = .ok i := by
  unfold decode decodeValue
  rw [if_neg (by simpa using hl), if_neg (by simp [hw])]
  cases sh with
  | header =>
    simp only [decodeHeader, hh rfl, ne_eq, not_true_eq_false, if_false]
    repeat' (first | exact ⟨_, rfl⟩ | split)
  | _ => exact ⟨_, rfl⟩

/-- At a sync candidate the next 32 bits hold the sync pattern. -/
theorem syncPattern_of_candidate {m : Memory} {p : Nat} {b : Byte} (h0 : m.read p = some 0xFF#8)
    (h1 : m.read (p + 1) = some b) (hb : 0xF0#8 ≤ b) : headerField 12 20 (bitsToNat (m.bits (8 * p) 32)) = 0xFFF#12 := by
  have e : m.bits (8 * p) 32 = m.bits (8 * p) 8 ++ (m.bits (8 * (p + 1)) 8 ++ m.bits (8 * (p + 1) + 8) 16) := by
    rw [show 32 = 8 + (8 + 16) from rfl, Memory.bits_add, Memory.bits_add]
    rfl
  have hr := bitsToNat_lt (m.bits (8 * (p + 1) + 8) 16)
  rw [Memory.bits_length] at hr
  rw [e, bitsToNat_append, bitsToNat_append, Memory.bitsToNat_byte h0, Memory.bitsToNat_byte h1]
  simp only [List.length_append, Memory.bits_length, headerField]
  have hbl := b.isLt
  have hb : 240 ≤ b.toNat := hb
  apply BitVec.eq_of_toNat_eq
  rw [BitVec.toNat_ofNat, Nat.shiftRight_eq_div_pow]
  generalize bitsToNat (m.bits (8 * (p + 1) + 8) 16) = r at *
  simp only [BitVec.toNat_ofNat]
  omega

/-- Where the position selects a unit of an allowed width, the fetch answers a unit of that shape. -/
theorem State.fetch_isSome {s : State} {sh : UnitShape} (h : s.selected = some sh) (hw : sh.widthOk = true) :
    ∃ i, s.fetch = some i ∧ i.shape = sh := by
  have hd : ∃ i, decode sh (s.input.bits s.fetchBit sh.width) = .ok i := by
    refine decode_ok (Memory.bits_length ..) hw fun he => ?_
    subst he
    obtain ⟨hf, _, hs⟩ | ⟨_, hs⟩ | ⟨_, hs⟩ | ⟨_, hs⟩ := State.selected_cases h
    · obtain ⟨b, h0, h1, hb⟩ := State.seekSelected_header hs
      have : s.fetchBit = 8 * s.byteIndex := by simp [State.fetchBit, hf]
      rw [this]
      exact syncPattern_of_candidate h0 h1 hb
    · cases hs
    · have := State.bodySelected_cases hs
      simp at this
    · cases hs
  obtain ⟨i, hi⟩ := hd
  refine ⟨i, ?_, decode_shape hi⟩
  unfold State.fetch
  rw [h]
  simp only [hi]
  rfl

/-- A step where the position selects a unit runs the unit at the cursor. -/
theorem step_of_fetch {s : State} {i : Instr} (hst : s.stage = none) (hf : s.fetch = some i) : step s = exec i s := by
  unfold step
  rw [hst]
  simp only [hf]

/-- A meaning runs where its unit is selected and `READ_MAX` covers its requests. -/
theorem exec_of_readWidth {s : State} {i : Instr} (h : s.selected = some i.shape) (hr : readWidth i.shape ≤ s.cfg.readMax) :
    exec i s = .next (unitEffect i s) := by
  rw [exec_eq_whenSelected, whenSelected_of_eq _ h hr]

theorem exec_of_selected {s : State} {i : Instr} (hc : s.cfg.wf = true) (h : s.selected = some i.shape) :
    exec i s = .next (unitEffect i s) := exec_of_readWidth h (State.readWidth_le hc h)

theorem State.stage_eq_none {s : State} {sh : UnitShape} (h : s.selected = some sh) : s.stage = none := by
  unfold State.stage
  obtain ⟨hf, _, hs⟩ | ⟨hf, hs⟩ | ⟨hf, hs⟩ | ⟨hf, hs⟩ := State.selected_cases h <;> rw [hf]
  have : s.byteIndex < s.input.size := by
    unfold State.seekSelected at hs
    split at hs
    · cases hs
    · next b hb => exact (Memory.read_isSome_iff _ _).mp (by rw [hb]; rfl)
  simp [this]

/-- The step at a position that selects a unit of an allowed width. -/
theorem step_of_selected {s : State} {sh : UnitShape} (hc : s.cfg.wf = true) (h : s.selected = some sh) (hw : sh.widthOk = true) :
    ∃ i, s.fetch = some i ∧ i.shape = sh ∧ step s = .next (unitEffect i s) := by
  obtain ⟨i, hi, hsh⟩ := State.fetch_isSome h hw
  refine ⟨i, hi, hsh, ?_⟩
  rw [step_of_fetch (State.stage_eq_none h) hi, exec_of_selected hc (hsh ▸ h)]

theorem core_run_succ (M : Host.Core) (k : Nat) (s : M.State) :
    M.run (k + 1) s =
      match M.step s with
      | .next s' => M.run k s'
      | .fault r => .fault r
      | .refused r => .refused r := rfl

/-- A run in two parts. -/
theorem core_run_add (M : Host.Core) (j k : Nat) {s t : M.State} (h : M.run j s = .next t) :
    M.run (j + k) s = M.run k t := by
  induction j generalizing s with
  | zero => rw [Nat.zero_add, Host.Outcome.next.inj (h : Host.Outcome.next s = _)]
  | succ j ih =>
    rw [show j + 1 + k = (j + k) + 1 by omega, core_run_succ]
    rw [core_run_succ] at h
    cases e : M.step s with
    | next u => rw [e] at h; exact ih h
    | fault r => rw [e] at h; cases h
    | refused r => rw [e] at h; cases h

/-- A run whose first step answers a next state. -/
theorem run_succ {s t : State} (k : Nat) (h : step s = .next t) :
    Sys2Proof.core.run (k + 1) s = Sys2Proof.core.run k t := by
  have h' : Sys2Proof.core.step s = .next t := h
  exact (core_run_succ Sys2Proof.core k s).trans (by rw [h'])

theorem run_add {s t : State} (j k : Nat) (h : Sys2Proof.core.run j s = .next t) :
    Sys2Proof.core.run (j + k) s = Sys2Proof.core.run k t := core_run_add Sys2Proof.core j k h

end Sys2Proof.Machine
end

