-- ==== Sys2Proof/Laws/Synthesis.lean ====
section
/-! SUPPORT. What the synthesis of a slot and its emission do, said once. -/

namespace Sys2Proof.Machine

/-- Writing values at consecutive addresses from `base`, the first `n` of them: what every address reads as after. -/
theorem SynthChannel.read_writes (f : Nat → NumVal) (base n : Nat) (hn : n ≤ 1024) (c : SynthChannel) (a : Nat) :
    ((List.range n).foldl (fun c i => c.write (base + i) (f i)) c).read a =
      if (a + 1024 - base % 1024) % 1024 < n then f ((a + 1024 - base % 1024) % 1024) else c.read a := by
  induction n with
  | zero => simp
  | succ n ih =>
    rw [List.range_succ, List.foldl_append, List.foldl_cons, List.foldl_nil, SynthChannel.read_write, ih (by omega)]
    have key : a % 1024 = (base + n) % 1024 ↔ (a + 1024 - base % 1024) % 1024 = n := by omega
    by_cases h : a % 1024 = (base + n) % 1024
    · rw [if_pos h, if_pos (by omega), (key.mp h)]
    · rw [if_neg h]
      have hne : (a + 1024 - base % 1024) % 1024 ≠ n := fun e => h (key.mpr e)
      by_cases hl : (a + 1024 - base % 1024) % 1024 < n
      · rw [if_pos hl, if_pos (by omega)]
      · rw [if_neg hl, if_neg (by omega)]

theorem SynthChannel.voff_writes (f : Nat → NumVal) (g : Nat → Nat) (l : List Nat) (c : SynthChannel) :
    (l.foldl (fun c i => c.write (g i) (f i)) c).voff = c.voff := by
  induction l generalizing c with
  | nil => rfl
  | cons i l ih => rw [List.foldl_cons, ih]; rfl

theorem SynthChannel.matrixing_eq (c : SynthChannel) (f : NumFormat) (x : Nat → NumVal) :
    c.matrixing f x = (List.range 64).foldl (fun d i => d.write (c.voff.toNat + i) (f.dot 32 (nik f i) x)) c := by
  unfold SynthChannel.matrixing
  suffices h : ∀ (l : List Nat) (d : SynthChannel), d.voff = c.voff →
      l.foldl (fun d i => d.write (d.voff.toNat + i) (f.dot 32 (nik f i) x)) d =
        l.foldl (fun d i => d.write (c.voff.toNat + i) (f.dot 32 (nik f i) x)) d from h _ c rfl
  intro l
  induction l with
  | nil => intros; rfl
  | cons i l ih =>
    intro d hd
    rw [List.foldl_cons, List.foldl_cons, hd]
    exact ih _ hd

@[simp] theorem SynthChannel.matrixing_voff (c : SynthChannel) (f : NumFormat) (x : Nat → NumVal) : (c.matrixing f x).voff = c.voff := by
  rw [SynthChannel.matrixing_eq]
  exact SynthChannel.voff_writes _ _ _ _

/-- What every history address reads as after matrixing. -/
theorem SynthChannel.matrixing_read (c : SynthChannel) (f : NumFormat) (x : Nat → NumVal) (a : Nat) :
    (c.matrixing f x).read a =
      if (a + 1024 - c.voff.toNat) % 1024 < 64 then f.dot 32 (nik f ((a + 1024 - c.voff.toNat) % 1024)) x
      else c.read a := by
  have hv : c.voff.toNat % 1024 = c.voff.toNat := Nat.mod_eq_of_lt c.voff.isLt
  rw [SynthChannel.matrixing_eq, SynthChannel.read_writes _ _ _ (by omega), hv]

@[simp] theorem SynthChannel.cursorStep_v (c : SynthChannel) : c.cursorStep.v = c.v := rfl

theorem SynthChannel.cursorStep_voff (c : SynthChannel) : c.cursorStep.voff.toNat = (c.voff.toNat + 1024 - 64) % 1024 := by
  show (c.voff - 64#10).toNat = _
  rw [BitVec.toNat_sub]
  have := c.voff.isLt
  simp only [BitVec.toNat_ofNat]
  omega

theorem SynthChannel.cursorStep_read (c : SynthChannel) (a : Nat) : c.cursorStep.read a = c.read a := rfl

variable (win : Nat → NumVal) (t : Fin 36) (s : State)

/-- What a channel's synthesis does to the state. -/
theorem State.synthChannel_eq (ch : Fin 2) :
    s.synthChannel win t ch =
      { s with
        synth := s.synth.set ch ((s.synth.get ch).push s.cfg.num (fun k => s.work.sampleAt ch (Fin.ofNat 32 k) t))
        work := { s.work with
          sout := s.work.sout.set ch (((s.synth.get ch).push s.cfg.num (fun k => s.work.sampleAt ch (Fin.ofNat 32 k) t)).windowing s.cfg.num win) } } :=
  rfl

@[simp] theorem State.synthChannel_cfg (ch : Fin 2) : (s.synthChannel win t ch).cfg = s.cfg := rfl

/-- The channels of a slot: their histories, cursors and output samples, and nothing else. -/
theorem State.synthChannels_same :
    ∃ sy so, s.synthChannels win t = { s with synth := sy, work := { s.work with sout := so } } := by
  unfold State.synthChannels
  obtain ⟨_, h⟩ | ⟨_, h⟩ := s.channels_cases <;> rw [h] <;> exact ⟨_, _, rfl⟩

/-- The history and output samples of each channel after one channel's synthesis. -/
theorem State.synthChannel_get (ch ch' : Fin 2) :
    (s.synthChannel win t ch).synth.get ch' =
      (if ch' = ch then (s.synth.get ch).push s.cfg.num (fun k => s.work.sampleAt ch (Fin.ofNat 32 k) t) else s.synth.get ch') ∧
    (s.synthChannel win t ch).work.sout.get ch' =
      (if ch' = ch then ((s.synth.get ch).push s.cfg.num (fun k => s.work.sampleAt ch (Fin.ofNat 32 k) t)).windowing s.cfg.num win
        else s.work.sout.get ch') ∧
    (s.synthChannel win t ch).work.sample = s.work.sample := by
  rw [State.synthChannel_eq]
  exact ⟨Bank.get_set _ _ _ _, Bank.get_set _ _ _ _, rfl⟩

/-- The history and output samples of each channel after a slot. -/
theorem State.synthChannels_get (ch : Fin 2) :
    ((s.synthChannels win t).synth.get ch =
      if ch ∈ s.channels then (s.synth.get ch).push s.cfg.num (fun k => s.work.sampleAt ch (Fin.ofNat 32 k) t) else s.synth.get ch) ∧
    ((s.synthChannels win t).work.sout.get ch =
      if ch ∈ s.channels then
        ((s.synth.get ch).push s.cfg.num (fun k => s.work.sampleAt ch (Fin.ofNat 32 k) t)).windowing s.cfg.num win
      else s.work.sout.get ch) := by
  have h01 : ch = 0 ∨ ch = 1 := by omega
  unfold State.synthChannels
  obtain ⟨_, h⟩ | ⟨_, h⟩ := s.channels_cases <;> rw [h]
  · have h0 := s.synthChannel_get win t 0
    have h1 := (s.synthChannel win t 0).synthChannel_get win t 1
    simp only [List.foldl_cons, List.foldl_nil]
    have m0 : (0 : Fin 2) ∈ [(0 : Fin 2), 1] := by decide
    have m1 : (1 : Fin 2) ∈ [(0 : Fin 2), 1] := by decide
    have n0 : ¬ (0 : Fin 2) = 1 := by decide
    have n1 : ¬ (1 : Fin 2) = 0 := by decide
    obtain rfl | rfl := h01
    · rw [(h1 0).1, (h1 0).2.1, if_neg n0, if_neg n0, (h0 0).1, (h0 0).2.1, if_pos rfl, if_pos rfl, if_pos m0, if_pos m0]
      exact And.intro rfl rfl
    · rw [(h1 1).1, (h1 1).2.1, if_pos rfl, if_pos rfl, (h0 1).1, if_neg n1, if_pos m1, if_pos m1]
      simp only [WorkRegs.sampleAt, (h0 1).2.2, State.synthChannel_cfg, and_self]
  · simp only [List.foldl_cons, List.foldl_nil, List.mem_singleton]
    have h0 := s.synthChannel_get win t 0 ch
    rw [h0.1, h0.2.1]
    obtain rfl | rfl := h01
    · rw [if_pos rfl, if_pos rfl]
      exact And.intro rfl rfl
    · have n1 : ¬ (1 : Fin 2) = 0 := by decide
      simp only [if_neg n1, and_self]

theorem length_flatMap_const {α β : Type} (l : List α) (f : α → List β) (k : Nat) (h : ∀ x ∈ l, (f x).length = k) :
    (l.flatMap f).length = l.length * k := by
  induction l with
  | nil => simp
  | cons x l ih =>
    rw [List.flatMap_cons, List.length_append, h x (by simp), ih (fun y hy => h y (by simp [hy])), List.length_cons]
    ring

theorem State.slotBytes_length : s.slotBytes.length = 64 * s.channels.length := by
  unfold State.slotBytes
  rw [length_flatMap_const _ _ (s.channels.length * 2), List.length_range]
  · ring
  · intro j _
    exact length_flatMap_const _ _ _ fun ch _ => rfl

/-- The bytes of a slot depend on the parameters, the channel count and `SOUT` alone. -/
theorem State.slotBytes_congr {s u : State} (hc : u.cfg = s.cfg) (hl : u.latch = s.latch) (hs : u.work.sout = s.work.sout) :
    u.slotBytes = s.slotBytes := by
  simp only [State.slotBytes, State.channels, hc, hl, hs]

/-- A slot: everything it leaves alone, and the bytes it appends. -/
theorem State.synthSlot_same :
    (s.synthSlot win t).input = s.input ∧ (s.synthSlot win t).bp = s.bp ∧ (s.synthSlot win t).fsm = s.fsm ∧
    (s.synthSlot win t).pos = s.pos ∧ (s.synthSlot win t).hdr = s.hdr ∧ (s.synthSlot win t).latch = s.latch ∧
    (s.synthSlot win t).frames = s.frames ∧ (s.synthSlot win t).errCode = s.errCode ∧
    (s.synthSlot win t).nsamp = s.nsamp + 32 ∧
    (s.synthSlot win t).work = { s.work with sout := (s.synthSlot win t).work.sout } ∧
    (s.synthSlot win t).synth = (s.synthChannels win t).synth ∧
    (s.synthSlot win t).work.sout = (s.synthChannels win t).work.sout ∧
    ∃ bs, bs.length = 64 * s.channels.length ∧ (s.synthSlot win t).out = s.out.appendAll bs := by
  obtain ⟨sy, so, e⟩ := s.synthChannels_same win t
  unfold State.synthSlot
  rw [e]
  refine ⟨rfl, rfl, rfl, rfl, rfl, rfl, rfl, rfl, rfl, rfl, rfl, rfl, _, ?_, rfl⟩
  rw [State.slotBytes_length]
  rfl

@[simp] theorem State.synthSlot_ahead : (s.synthSlot win t).ahead = s.ahead := by
  obtain ⟨sy, so, e⟩ := s.synthChannels_same win t
  unfold State.synthSlot
  rw [e]; rfl

@[simp] theorem State.synthSlot_cfg : (s.synthSlot win t).cfg = s.cfg := by
  obtain ⟨sy, so, e⟩ := s.synthChannels_same win t
  unfold State.synthSlot
  rw [e]; rfl

/-- After a slot: the next slot, or the end of the frame. -/
theorem State.nextSlot_cases :
    (∃ h : t.val + 1 < 36, t.val + 1 < s.slotCount ∧ s.nextSlot t = s.goto .synth (.slot ⟨t.val + 1, h⟩)) ∨
      (¬ (t.val + 1 < s.slotCount ∧ t.val + 1 < 36) ∧ s.nextSlot t = s.goto .align .idle) := by
  unfold State.nextSlot
  split
  · next h =>
    split
    · next h2 => exact .inl ⟨h, h2, rfl⟩
    · next h2 => exact .inr ⟨fun e => h2 e.1, rfl⟩
  · next h => exact .inr ⟨fun e => h e.2, rfl⟩

end Sys2Proof.Machine
end

