-- ==== Sys2Proof/Laws/Frame.lean ====
section
/-! SUPPORT. What the header stage, the operands of an element and the bytes of a time slot are, in the words of the claims. -/

namespace Sys2Proof.Machine

/-- The bound of a header is one of the five (42_frame_header.md R136). -/
theorem jointBound_isBound {c : Config} (hc : c.wf = true) (m e : BitVec 2) : IsBound (c.jointBound m e) := by
  unfold IsBound Config.jointBound
  split
  · have := (Config.wf_parts hc).2.1 e.toFin; omega
  · omega

/-- The channel count of a header is one or two (42_frame_header.md R135). -/
theorem channelCount_isChannelCount (c : Config) (m : BitVec 2) : IsChannelCount (c.channelCount m) := by
  unfold IsChannelCount Config.channelCount; split <;> simp

/-- A valid frequency index gives a frequency of the block (42_frame_header.md R133). -/
theorem fsTable_isSamplingFrequency (f : BitVec 2) (h : f ≠ 3#2) : IsSamplingFrequency (fsTable f) := by
  unfold IsSamplingFrequency; revert f; decide

/-- The end of the header stage leaves the cursor, the counters and everything outside the frame. -/
theorem State.finishHeader_same (u : State) : u.finishHeader.bp = u.bp ∧ u.finishHeader.input = u.input ∧ u.finishHeader.frames
    = u.frames ∧ u.finishHeader.nsamp = u.nsamp ∧ u.finishHeader.out = u.out ∧ u.finishHeader.synth = u.synth ∧
    u.finishHeader.errCode = u.errCode := by
  obtain ⟨_, e⟩ | ⟨_, e⟩ := u.finishHeader_cases <;> rw [e] <;> simp

@[simp] theorem State.finishHeader_cfg (u : State) : u.finishHeader.cfg = u.cfg := by
  obtain ⟨_, e⟩ | ⟨_, e⟩ := u.finishHeader_cases <;> rw [e] <;> simp

@[simp] theorem State.finishHeader_ahead (u : State) : u.finishHeader.ahead = u.ahead := by
  obtain ⟨_, e⟩ | ⟨_, e⟩ := u.finishHeader_cases <;> rw [e] <;> simp

@[simp] theorem State.headerStage_ahead (s : State) (l) (h : HdrFields) : (s.headerStage l h).ahead = s.ahead := by
  obtain ⟨e, _⟩ | ⟨k, hk, hb, hfs, ⟨_, e⟩ | ⟨_, e⟩⟩ := s.headerStage_cases l h <;> rw [e] <;> simp

@[simp] theorem State.consume_ahead (s : State) (n : Nat) (k : State → State) (hk : ∀ u, (k u).ahead = u.ahead) :
    (s.consume n k).ahead = s.ahead := by
  obtain ⟨_, e⟩ | ⟨_, e⟩ := s.consume_cases n k <;> rw [e]
  · rfl
  · rw [hk]; rfl

/-- A frame unit takes no byte ahead. -/
@[simp] theorem State.frame_ahead (s : State) (l) (h : HdrFields) : (s.frame l h).ahead = false :=
  State.consume_ahead _ _ _ fun u => u.headerStage_ahead l h

@[simp] theorem State.headerStage_cfg (s : State) (l) (h : HdrFields) : (s.headerStage l h).cfg = s.cfg := by
  obtain ⟨e, _⟩ | ⟨k, hk, hb, hfs, ⟨_, e⟩ | ⟨_, e⟩⟩ := s.headerStage_cases l h <;> rw [e] <;> simp

@[simp] theorem State.consume_cfg (s : State) (n : Nat) (k : State → State) (hk : ∀ u, (k u).cfg = u.cfg) :
    (s.consume n k).cfg = s.cfg := by
  obtain ⟨_, e⟩ | ⟨_, e⟩ := s.consume_cases n k <;> rw [e]
  · rfl
  · rw [hk]; rfl

/-- The header stage leaves the cursor, the counters and everything outside the frame. -/
theorem State.headerStage_same (s : State) (l) (h : HdrFields) : (s.headerStage l h).bp = s.bp ∧ (s.headerStage l h).input =
    s.input ∧ (s.headerStage l h).frames = s.frames ∧ (s.headerStage l h).nsamp = s.nsamp ∧ (s.headerStage l h).out = s.out ∧
    (s.headerStage l h).synth = s.synth := by
  obtain ⟨e, _⟩ | ⟨k, hk, hb, hfs, ⟨_, e⟩ | ⟨_, e⟩⟩ := s.headerStage_cases l h <;> rw [e]
  · simp
  · simp
  · have := State.finishHeader_same ((s.loadHeader l h).resolveHeader k)
    simp [this]

/-- The rank of a stage inside the consumed bits is bounded. -/
theorem State.stageRank_le (s : State) : s.stageRank ≤ 41 := by
  unfold State.stageRank State.slotCount
  repeat' (first | split | omega)

/-- No step changes the input (10_state.md R10). -/
theorem step_input {s t : State} (h : step s = .next t) : t.input = s.input := by
  cases step_cases h with
    | endRun hf hle => rfl
    | skip hf hlt hs => rfl
    | frame layer hd hf hlt hs =>
      obtain ⟨hl, e⟩ | ⟨hl, e⟩ := s.frame_cases layer hd <;> rw [e]
      · rfl
      · rw [(State.headerStage_same _ _ _).2.1]; rfl
    | crc16 hf =>
      obtain ⟨hl, e⟩ | ⟨hl, e⟩ := s.consume_cases 16 State.finishHeader <;> rw [e]
      · rfl
      · rw [(State.finishHeader_same _).2.1]; rfl
    | bodyEof n hf hl => rfl
    | bodyInvalid hf hl => rfl
    | body i t hf hsel hwf hl hb => rw [hb.same.1]; rfl
    | slot k hf hp =>
      obtain ⟨h1, h2, h3, h4, h5, h6, h7, h8, h9, h10, h11, h12, bs, hbl, hout⟩ := s.synthSlot_same (window s.cfg.num) k
      obtain ⟨hlt36, hlt2, e⟩ | ⟨hge, e⟩ := (s.synthSlot (window s.cfg.num) k).nextSlot_cases k <;> rw [e] <;> simp [h1]
    | align hf =>
      obtain ⟨hl, e⟩ | ⟨hl, e⟩ := s.consume_cases s.padWidth State.completeFrame <;> rw [e] <;> rfl
    | terminal hf => rfl

/-- No step changes the parameters (log 30). -/
theorem step_cfg {s t : State} (h : step s = .next t) : t.cfg = s.cfg := by
  cases step_cases h with
  | endRun | skip | bodyEof | bodyInvalid | terminal => rfl
  | frame layer hd hf hlt hs => exact State.consume_cfg _ _ _ fun u => u.headerStage_cfg layer hd
  | crc16 hf => exact State.consume_cfg _ _ _ State.finishHeader_cfg
  | body i t hf hsel hwf hl hb => rw [hb.cfg]; rfl
  | slot k hf hp =>
    obtain ⟨_, _, e⟩ | ⟨_, e⟩ := (s.synthSlot (window s.cfg.num) k).nextSlot_cases k <;> rw [e] <;> simp
  | align hf => exact State.consume_cfg _ _ _ fun _ => rfl

/-- When the scan is a byte ahead: behind a `SKIP` that needed the byte behind its own (40_bit_reader.md R113; log 28). -/
theorem step_ahead {s t : State} (h : step s = .next t) :
    t.ahead = if s.fsm = .seekSync then decide (s.seekSelected = some .skip) && s.testsSuccessor else s.ahead := by
  cases step_cases h with
  | endRun hf hle =>
    have : s.testsSuccessor = false := by simp [State.testsSuccessor]; omega
    simp [hf, this]
  | skip hf hlt hs => simp [hf, hs]
  | frame layer hd hf hlt hs => simp [hf, hs]
  | crc16 hf => simp [hf]
  | bodyEof n hf => simp [hf]
  | bodyInvalid hf => simp [hf]
  | body i t hf hsel hwf hl hb => simp [hf, hb.ahead]
  | slot k hf hp =>
    obtain ⟨_, _, e⟩ | ⟨_, e⟩ := (s.synthSlot (window s.cfg.num) k).nextSlot_cases k <;> rw [e] <;> simp [hf]
  | align hf => simp only [hf]; exact State.consume_ahead _ _ _ fun _ => rfl
  | terminal hf => obtain hf | hf := hf <;> simp [hf]

/-- The end of the header stage of a supported frame enters its body. -/
theorem State.finishHeader_entersBody (s u : State) (hk : u.hdr.kind ≠ .l3) (hc : u.cfg = s.cfg) (h2 : u.latch = s.latch) (h3 : u.work = s.work) :
    EntersBody s u.finishHeader ∧ u.finishHeader.hdr = u.hdr ∧ u.finishHeader.bp = u.bp := by
  obtain ⟨hk', _⟩ | ⟨_, e⟩ := u.finishHeader_cases
  · contradiction
  · rw [e]
    refine ⟨⟨rfl, rfl, ?_, ?_, ?_, ?_, ?_, ?_, ?_, ?_⟩, by simp, by simp⟩
    · simp only [State.goto_latch, State.withWork_latch, State.goto_hdr, State.withWork_hdr, State.latchStream_hdr,
        u.latchStream_latch hk, h2]
    · intro ch sb
      simp only [State.goto_work, State.withWork_work, State.bodyWork]
      split <;> simp [WorkRegs.allocAt]
    · intro ch sb k
      simp only [State.goto_work, State.withWork_work, State.bodyWork]
      split <;> simp [WorkRegs.sampleAt]
    · simp only [State.goto_work, State.withWork_work, State.bodyWork]
      split <;> simp [h3]
    · simp only [State.goto_work, State.withWork_work, State.bodyWork]
      split <;> simp [h3]
    · simp only [State.goto_work, State.withWork_work, State.bodyWork]
      split <;> simp [h3]
    · intro hl1
      have hl1 : u.hdr.kind = .l1 := by simpa using hl1
      simp [State.bodyWork, hl1, h3]
    · intro hl2
      have hl2 : u.hdr.kind = .l2 := by simpa using hl2
      simp only [State.goto_work, State.withWork_work, State.bodyWork, State.latchStream_hdr, hl2, if_true]
      exact ⟨by simp [State.selectL2Set, hc], rfl⟩

/-- A frame unit with a reserved layer, bitrate or frequency raises, the field registers written. -/
theorem State.frame_faults (layer : BitVec 2) (h : HdrFields) (s : State) (hfit : 8 * s.byteIndex + 32 ≤ s.endBit)
    (hbad : s.cfg.layerKind layer = none ∨ h.br = 15#4 ∨ h.fs = 3#2) : FaultsInHeader layer h s (s.frame layer h) := by
  obtain ⟨_, e⟩ | ⟨_, e⟩ := s.frame_cases layer h
  · omega
  · obtain ⟨e2, _⟩ | ⟨k, hk, h1, h2, _⟩ := (s.acceptCandidate.advance 20).headerStage_cases layer h
    · rw [e, e2]
      refine ⟨rfl, rfl, ?_, rfl, rfl, rfl, rfl, rfl, rfl, rfl, rfl, ⟨rfl, fun _ => rfl⟩, ⟨rfl, fun _ => rfl⟩⟩
      simp only [State.raise_bp, State.loadHeader_bp, State.advance_bp, State.acceptCandidate_bp]; omega
    · have hk : s.cfg.layerKind layer = some k := hk
      obtain hbad | hbad | hbad := hbad
      · rw [hbad] at hk; cases hk
      · exact absurd hbad h1
      · exact absurd hbad h2

/-- What a frame unit with valid fields does, by the layer and the protection bit. -/
theorem State.frame_valid (s : State) (layer : BitVec 2) (kind : LayerKind) (hl : s.cfg.layerKind layer = some kind)
    (h : HdrFields) (h2 : 8 * s.byteIndex + 32 ≤ s.endBit) (hb : h.br ≠ 15#4) (hf : h.fs ≠ 3#2) :
   ∃ t, s.frame layer h = t ∧ t.bp = 8 * s.byteIndex + 32 ∧ t.hdr = resolvedRegs s.cfg layer kind h ∧ SameButLatch s t ∧
      (h.prot = s.cfg.crcPresentWhen → t.fsm = .header ∧ t.latch = s.latch ∧ t.work = s.work) ∧
      (h.prot ≠ s.cfg.crcPresentWhen → kind ≠ .l3 → EntersBody s t) ∧
      (h.prot ≠ s.cfg.crcPresentWhen → kind = .l3 → t.fsm = .seekSync ∧ t.latch = s.latch ∧ t.work = s.work) ∧
      (kind = .l3 → t.latch = s.latch ∧ t.work = s.work) := by
  refine ⟨_, rfl, ?_⟩
  obtain ⟨_, e⟩ | ⟨hll, e⟩ := s.frame_cases layer h
  · omega
  · rw [e]
    obtain ⟨e2, h' | h' | h'⟩ | ⟨k, hk, _, _, ⟨hp, e2⟩ | ⟨hp, e2⟩⟩ := (s.acceptCandidate.advance 20).headerStage_cases layer h
    · have h' : s.cfg.layerKind layer = none := h'
      rw [h'] at hl; cases hl
    · contradiction
    · contradiction
    · have : k = kind := Option.some.inj (hk.symm.trans hl)
      subst this
      rw [e2]
      refine ⟨?_, rfl, ⟨rfl, ⟨rfl, fun _ => rfl⟩, ⟨rfl, fun _ => rfl⟩, rfl, rfl, rfl, rfl⟩, fun _ => ⟨rfl, rfl, rfl⟩, fun h => absurd hp h,
          fun h => absurd hp h, fun _ => ⟨rfl, rfl⟩⟩
      simp only [State.resolveHeader_bp, State.loadHeader_bp, State.advance_bp, State.acceptCandidate_bp]; omega
    · have : k = kind := Option.some.inj (hk.symm.trans hl)
      subst this
      rw [e2]
      have hff := State.finishHeader_same (((s.acceptCandidate.advance 20).loadHeader layer h).resolveHeader k)
      refine ⟨?_, ?_, ⟨?_, ⟨?_, fun _ => ?_⟩, ⟨?_, fun _ => ?_⟩, ?_, ?_, ?_, ?_⟩, fun h => absurd h hp, fun _ h3 => ?_, fun _ h3 => ?_,
          fun h3 => ?_⟩
      · rw [hff.1]; simp only [State.resolveHeader_bp, State.loadHeader_bp, State.advance_bp, State.acceptCandidate_bp]; omega
      · obtain ⟨_, e3⟩ | ⟨_, e3⟩ := (((s.acceptCandidate.advance 20).loadHeader layer h).resolveHeader k).finishHeader_cases <;> rw
          [e3]
        · rfl
        · simp only [State.goto_hdr, State.withWork_hdr, State.latchStream_hdr]; rfl
      · rw [State.finishHeader_cfg]; rfl
      · rw [hff.2.1]; rfl
      · rw [hff.2.1]; rfl
      · rw [hff.2.2.2.2.1]; rfl
      · rw [hff.2.2.2.2.1]; rfl
      · rw [hff.2.2.1]; rfl
      · rw [hff.2.2.2.1]; rfl
      · rw [hff.2.2.2.2.2.2]; rfl
      · rw [hff.2.2.2.2.2.1]; rfl
      · exact (State.finishHeader_entersBody s (((s.acceptCandidate.advance 20).loadHeader layer h).resolveHeader k) h3 rfl rfl rfl).1
      · obtain ⟨_, e3⟩ | ⟨h4, e3⟩ := (((s.acceptCandidate.advance 20).loadHeader layer h).resolveHeader k).finishHeader_cases
        · rw [e3]; exact ⟨rfl, rfl, rfl⟩
        · exact absurd h3 h4
      · obtain ⟨_, e3⟩ | ⟨h4, e3⟩ := (((s.acceptCandidate.advance 20).loadHeader layer h).resolveHeader k).finishHeader_cases
        · rw [e3]; exact ⟨rfl, rfl⟩
        · exact absurd h3 h4

/-- What a frame unit with a valid bitrate and frequency does, for every layer map. -/
theorem State.frame_outcome (layer : BitVec 2) (h : HdrFields) (s : State) (hfit : 8 * s.byteIndex + 32 ≤ s.endBit)
    (hb : h.br ≠ 15#4) (hf : h.fs ≠ 3#2) : FrameOutcome layer h s (s.frame layer h) := by
  unfold FrameOutcome
  cases hl : s.cfg.layerKind layer with
  | none => exact State.frame_faults layer h s hfit (.inl hl)
  | some kind =>
    have ha := s.frame_ahead layer h
    obtain ⟨t, rfl, h1, h2, h3, h4, h5, h6, h7⟩ := s.frame_valid layer kind hl h hfit hb hf
    cases kind with
    | l1 => exact ⟨h1, ha, h2, h3, h4, fun hp => h5 hp (by decide)⟩
    | l2 => exact ⟨h1, ha, h2, h3, h4, fun hp => h5 hp (by decide)⟩
    | l3 =>
      obtain ⟨c1, c2, c3, c4, c5, c6, c7⟩ := h3
      exact ⟨h1, ha, h2, ⟨c1, c2, c3, (h7 rfl).1, c4, c5, c6, c7⟩, (h7 rfl).2, fun hp => (h4 hp).1, fun hp => (h6 hp rfl).1⟩

/-- The channels an element writes, as the claims name them. -/
theorem State.mem_targets (s : State) (c : SubCh) (ch : Fin 2) (hn : IsChannelCount s.latch.nch) : ch ∈ s.targets c ↔ s.Writes c
    ch := by
  unfold State.targets State.Writes State.joint State.channels
  have h01 : ch = 0 ∨ ch = 1 := by omega
  by_cases h : s.hdr.bound ≤ c.sb.val
  · simp only [h, decide_true, if_true]
    rcases hn with hn | hn <;> rcases h01 with rfl | rfl <;> simp [hn]
  · simp [h]

/-- A body element is read: the cursor moves and the run state stays. -/
theorem BodyStep.elementRead {s : State} {i : Instr} {t : State} {n : Nat} (hb : BodyStep (s.advance n) i t) : ElementRead n s t
    := by
  obtain ⟨h1, h2, h3, h4, h5, h6, h7, h8, h9⟩ := hb.same
  refine ⟨h2, hb.ahead, h3, ⟨hb.cfg, ⟨by rw [h1]; rfl, fun _ => by rw [h1]; rfl⟩, ⟨by rw [h9]; rfl, fun _ => by rw [h9]; rfl⟩, h4, h5, h6, h7, h8⟩,
      hb.fsm⟩

/-- What an allocation element writes. -/
theorem State.storeAlloc_seekAlloc (s : State) (c : SubCh) (a : BitVec 4) (n : Nat) (t) (hn : IsChannelCount s.latch.nch) (e : t
    = ((s.advance n).storeAlloc c a).seekAlloc (c.index + 1)) :
    SameButAlloc s.work t.work ∧
      ∀ ch sb, (sb = c.sb ∧ s.Writes c ch → t.work.allocAt ch sb = a) ∧
        (¬ (sb = c.sb ∧ s.Writes c ch) → t.work.allocAt ch sb = s.work.allocAt ch sb) := by
  obtain ⟨f, p, e2⟩ := ((s.advance n).storeAlloc c a).seekAlloc_goto (c.index + 1)
  have h1 := (s.advance n).storeAlloc_other c a
  have h2 := (s.advance n).storeAlloc_allocAt c a
  have h3 : (s.advance n).targets c = s.targets c := rfl
  rw [e, e2]
  refine ⟨h1, fun ch sb => ?_⟩
  have key : (sb = c.sb ∧ ch ∈ (s.advance n).targets c) ↔ (sb = c.sb ∧ s.Writes c ch) := by rw [h3, State.mem_targets s c ch hn]
  rw [State.goto_work, h2]
  constructor <;> intro h
  · rw [if_pos (key.mpr h)]
  · rw [if_neg (fun x => h (key.mp x))]; rfl

/-- The decoded channels are those below `S_NCH`. -/
theorem State.mem_channels (s : State) (hn : IsChannelCount s.latch.nch) (ch : Fin 2) : ch ∈ s.channels ↔ ch.val < s.latch.nch
    := by
  have h01 : ch = 0 ∨ ch = 1 := by omega
  rcases hn with h | h <;> rcases h01 with rfl | rfl <;> simp [State.channels, h]

/-- The bytes of a time slot, by position, channel and half. -/
theorem State.slotBytes_getElem? (s : State) (j : Nat) (hj : j < 32) (ch : Fin 2) (hn : IsChannelCount s.latch.nch) (hc : ch.val
    < s.latch.nch) (b : Fin 2) :
   s.slotBytes[2 * (s.latch.nch * j + ch.val) + b.val]? = (pcmBytes (pcm16 s.cfg ((s.work.sout.get ch).get (Fin.ofNat 32 j))))[b.val]? :=
       by
  have gen : ∀ (l : List Nat) (f : Nat → List Byte) (k : Nat), (∀ x, (f x).length = k) → 0 < k → ∀ i r, r < k → (hi : i <
      l.length) → (l.flatMap f)[k * i + r]? = (f l[i])[r]? := by
    intro l f k hk hk0
    induction l with
    | nil => intro i r hr hi; simp at hi
    | cons x l ih =>
      intro i r hr hi
      rw [List.flatMap_cons]
      cases i with
      | zero =>
        rw [List.getElem?_append_left (by rw [hk]; omega)]; simp
      | succ i =>
        rw [List.getElem?_append_right (by rw [hk]; nlinarith)]
        rw [hk, show k * (i + 1) + r - k = k * i + r by rw [Nat.mul_succ]; omega]
        rw [ih i r hr (by simpa using hi)]
        simp
  have hlen : ∀ x, (s.channels.flatMap fun ch => pcmBytes (pcm16 s.cfg ((s.work.sout.get ch).get (Fin.ofNat 32 x)))).length = 2 *
      s.latch.nch := by
    intro x
    rcases hn with h | h <;> simp [State.channels, h, pcmBytes]
  unfold State.slotBytes
  have h01 : ch = 0 ∨ ch = 1 := by omega
  have hb := b.isLt
  rw [show 2 * (s.latch.nch * j + ch.val) + b.val = 2 * s.latch.nch * j + (2 * ch.val + b.val) by ring]
  rw [gen _ _ _ hlen (by omega) j (2 * ch.val + b.val) (by omega) (by simpa using hj)]
  rw [List.getElem_range]
  rcases hn with h | h
  · have : ch = 0 := by apply Fin.ext; simp; omega
    subst this
    simp [State.channels, h]
  · have e : s.channels = [0, 1] := by simp [State.channels, h]
    rw [e]
    have hb2 : b = 0 ∨ b = 1 := by omega
    rcases h01 with rfl | rfl <;> rcases hb2 with rfl | rfl <;> simp [pcmBytes]

end Sys2Proof.Machine
end

