-- ==== Sys2Proof/Laws/Rounding.lean ====
section
/-! SUPPORT. The laws of `rnd`: the numbers of a format are a grid, and a rounding answers a grid point next to the exact value
(00_scope.md R8). -/

namespace Sys2Proof

variable {f : NumFormat}

/-- A magnitude of fewer than `precision` bits has exponent 0; any other has `precision` significant bits above its exponent. -/
theorem NumFormat.exponent_cases (hp : 1 ≤ f.precision) (m : Nat) :
    (f.exponent m = 0 ∧ m < 2 ^ f.precision) ∨
      (2 ^ (f.precision - 1) * 2 ^ f.exponent m ≤ m ∧ m < 2 ^ f.precision * 2 ^ f.exponent m) := by
  by_cases h : m < 2 ^ f.precision
  · refine .inl ⟨?_, h⟩
    unfold NumFormat.exponent
    by_cases h0 : m = 0
    · subst h0; simp; omega
    · have := (Nat.log2_lt h0).mpr h; omega
  · have h0 : m ≠ 0 := fun e => h (by subst e; positivity)
    have hl : f.precision ≤ m.log2 := (Nat.le_log2 h0).mpr (by omega)
    have e : f.exponent m = m.log2 + 1 - f.precision := rfl
    refine .inr ⟨?_, ?_⟩
    · rw [← pow_add, show f.precision - 1 + f.exponent m = m.log2 by omega]; exact Nat.log2_self_le h0
    · rw [← pow_add, show f.precision + f.exponent m = m.log2 + 1 by omega]; exact Nat.lt_log2_self

theorem NumFormat.isNumber_iff {neg : Bool} {m : Nat} :
    f.isNumber (.finite neg m) = true ↔ m ≤ f.largest ∧ 2 ^ f.exponent m ∣ m := by
  simp [NumFormat.isNumber, Nat.dvd_iff_mod_eq_zero]

/-- The magnitude is what makes a number; the sign does not matter. -/
theorem NumFormat.isNumber_sign (a b : Bool) (m : Nat) : f.isNumber (.finite a m) = f.isNumber (.finite b m) := rfl

/-- A significand of at most `precision` bits at any exponent is a number, up to the largest. -/
theorem NumFormat.isNumber_of_mul (hp : 1 ≤ f.precision) {neg : Bool} {z j : Nat} (hz : z ≤ 2 ^ f.precision)
    (hm : z * 2 ^ j ≤ f.largest) : f.isNumber (.finite neg (z * 2 ^ j)) = true := by
  refine NumFormat.isNumber_iff.mpr ⟨hm, ?_⟩
  by_cases hz0 : z = 0
  · subst hz0; simp
  by_cases he : z = 2 ^ f.precision
  · subst he
    rw [← pow_add]
    refine pow_dvd_pow 2 ?_
    unfold NumFormat.exponent
    rw [Nat.log2_two_pow]; omega
  · refine Dvd.dvd.mul_left (pow_dvd_pow 2 ?_) z
    have h1 : (z * 2 ^ j).log2 < f.precision + j := by
      rw [Nat.log2_lt (by positivity), pow_add]
      exact Nat.mul_lt_mul_of_pos_right (by omega) (by positivity)
    unfold NumFormat.exponent
    omega

theorem NumFormat.isNumber_zero (neg : Bool) : f.isNumber (.finite neg 0) = true :=
  NumFormat.isNumber_iff.mpr ⟨Nat.zero_le _, dvd_zero _⟩

theorem NumFormat.isNumber_largest (hp : 1 ≤ f.precision) (neg : Bool) : f.isNumber (.finite neg f.largest) = true :=
  NumFormat.isNumber_of_mul hp (Nat.sub_le _ _) (le_refl _)

/-- At and above the binade of an exponent every number is on the grid of that exponent. -/
theorem NumFormat.grid {k y : Nat} (hy : 2 ^ f.exponent y ∣ y)
    (hk : k = 0 ∨ 2 ^ (f.precision - 1) * 2 ^ k ≤ y) : 2 ^ k ∣ y := by
  obtain rfl | hk := hk
  · simp
  · refine Dvd.dvd.trans (pow_dvd_pow 2 ?_) hy
    have hy0 : y ≠ 0 := fun e => by subst e; simp at hk
    rw [← pow_add] at hk
    have := (Nat.le_log2 hy0).mpr hk
    unfold NumFormat.exponent
    omega

/-- A rounded integer is the integer part or the next one, and an integer is itself. -/
theorem Rounding.apply_cases (r : Rounding) (neg : Bool) (n d : Nat) (hd : 0 < d) :
    (r.apply neg n d = n / d ∨ r.apply neg n d = n / d + 1) ∧ (n % d = 0 → r.apply neg n d = n / d) := by
  unfold Rounding.apply
  dsimp only
  constructor
  · cases r <;> dsimp only <;> split <;> simp
  · intro h
    rw [if_neg]
    cases r <;> simp [h] <;> omega

/-- The magnitude `rnd` answers where it is not beyond the largest number. -/
def NumFormat.roundUnits (f : NumFormat) (neg : Bool) (n d : Nat) : Nat :=
  f.rounding.apply neg n (d * 2 ^ f.exponent (n / d)) * 2 ^ f.exponent (n / d)

theorem NumFormat.round_eq (neg : Bool) (n d : Nat) :
    f.round neg n d =
      if f.roundUnits neg n d ≤ f.largest then .finite neg (f.roundUnits neg n d)
      else if f.rounding.keepsLargest neg then .finite neg f.largest else .infinity neg := rfl

variable {neg : Bool} {n d : Nat}

/-- The integer part at the exponent of the exact value. -/
theorem NumFormat.quotient_bounds (hp : 1 ≤ f.precision) :
    n / (d * 2 ^ f.exponent (n / d)) < 2 ^ f.precision ∧
      (f.exponent (n / d) = 0 ∨ 2 ^ (f.precision - 1) ≤ n / (d * 2 ^ f.exponent (n / d))) := by
  rw [← Nat.div_div_eq_div_mul]
  obtain ⟨h1, h2⟩ | ⟨h1, h2⟩ := NumFormat.exponent_cases hp (n / d)
  · rw [h1]; simpa using h2
  · refine ⟨?_, .inr ?_⟩
    · exact (Nat.div_lt_iff_lt_mul (by positivity)).mpr h2
    · exact (Nat.le_div_iff_mul_le (by positivity)).mpr h1

/-- No number at or below the exact value is above the rounding. -/
theorem NumFormat.le_roundUnits (hp : 1 ≤ f.precision) (hd : 0 < d) {y : Nat} (hy : 2 ^ f.exponent y ∣ y) (h : d * y ≤ n) :
    y ≤ f.roundUnits neg n d := by
  have hq := NumFormat.quotient_bounds (f := f) (n := n) (d := d) hp
  have hr := (f.rounding.apply_cases neg n (d * 2 ^ f.exponent (n / d)) (by positivity)).1
  unfold NumFormat.roundUnits
  generalize f.rounding.apply neg n (d * 2 ^ f.exponent (n / d)) = r at *
  generalize hk : f.exponent (n / d) = k at *
  have hle : n / (d * 2 ^ k) * 2 ^ k ≤ r * 2 ^ k := Nat.mul_le_mul_right _ (by omega)
  by_cases hc : k = 0 ∨ 2 ^ (f.precision - 1) * 2 ^ k ≤ y
  · obtain ⟨z, rfl⟩ := NumFormat.grid hy hc
    have : z ≤ n / (d * 2 ^ k) := (Nat.le_div_iff_mul_le (by positivity)).mpr (by
      rwa [show z * (d * 2 ^ k) = d * (2 ^ k * z) by ring])
    calc 2 ^ k * z = z * 2 ^ k := by ring
      _ ≤ n / (d * 2 ^ k) * 2 ^ k := Nat.mul_le_mul_right _ this
      _ ≤ _ := hle
  · have h2 : 2 ^ (f.precision - 1) * 2 ^ k ≤ n / (d * 2 ^ k) * 2 ^ k :=
      Nat.mul_le_mul_right _ (by omega)
    omega

/-- No number at or above the exact value is below the rounding. -/
theorem NumFormat.roundUnits_le (hp : 1 ≤ f.precision) (hd : 0 < d) {y : Nat} (hy : 2 ^ f.exponent y ∣ y) (h : n ≤ d * y) :
    f.roundUnits neg n d ≤ y := by
  have hq := NumFormat.exponent_cases hp (n / d)
  obtain ⟨hr, hr0⟩ := f.rounding.apply_cases neg n (d * 2 ^ f.exponent (n / d)) (by positivity)
  have hqy : n / d ≤ y := Nat.div_le_of_le_mul h
  unfold NumFormat.roundUnits
  generalize f.rounding.apply neg n (d * 2 ^ f.exponent (n / d)) = r at *
  generalize hk : f.exponent (n / d) = k at *
  obtain ⟨z, rfl⟩ := NumFormat.grid (k := k) hy (by omega)
  have hz : n ≤ d * 2 ^ k * z := by rwa [Nat.mul_assoc]
  rw [Nat.mul_comm]
  refine Nat.mul_le_mul_left _ ?_
  have hdm := Nat.div_add_mod n (d * 2 ^ k)
  have hpos : 0 < d * 2 ^ k := by positivity
  generalize d * 2 ^ k = D at *
  by_cases h0 : n % D = 0
  · rw [hr0 h0]
    exact Nat.div_le_of_le_mul hz
  · have : n / D < z := by
      rw [Nat.div_lt_iff_lt_mul hpos]
      rcases Nat.lt_or_ge n (z * D) with h | h
      · exact h
      · exfalso; apply h0
        have : n = D * z := by rw [Nat.mul_comm] at h; omega
        rw [this, Nat.mul_mod_right]
    omega

/-- A rounding up to the largest number is a number. -/
theorem NumFormat.roundUnits_isNumber (hp : 1 ≤ f.precision) (hd : 0 < d) (h : f.roundUnits neg n d ≤ f.largest) (b : Bool) :
    f.isNumber (.finite b (f.roundUnits neg n d)) = true := by
  have hq := (NumFormat.quotient_bounds (f := f) (n := n) (d := d) hp).1
  have hr := (f.rounding.apply_cases neg n (d * 2 ^ f.exponent (n / d)) (by positivity)).1
  exact NumFormat.isNumber_of_mul hp (by omega) h

/-- What `rnd` answers, said once. -/
theorem NumFormat.round_finite {m : Nat} (h : f.round neg n d = .finite neg m) :
    (m = f.roundUnits neg n d ∧ m ≤ f.largest) ∨
      (m = f.largest ∧ f.largest < f.roundUnits neg n d ∧ f.rounding.keepsLargest neg = true) := by
  rw [NumFormat.round_eq] at h
  split at h
  · next hl => cases h; exact .inl ⟨rfl, hl⟩
  · next hl =>
    split at h
    · next hk => cases h; exact .inr ⟨rfl, by omega, hk⟩
    · cases h

/-- An exact value up to the largest number rounds to a number. -/
theorem NumFormat.round_isFinite (hp : 1 ≤ f.precision) (hd : 0 < d) (h : n ≤ d * f.largest) :
    f.round neg n d = .finite neg (f.roundUnits neg n d) := by
  rw [NumFormat.round_eq, if_pos]
  exact NumFormat.roundUnits_le hp hd (NumFormat.isNumber_iff.mp (NumFormat.isNumber_largest hp neg)).2 h

/-- A value on the grid of its own exponent rounds to itself, below the largest number or not. -/
theorem NumFormat.roundUnits_exact {m : Nat} (hd : 0 < d) (hn : n = m * d) (hm : 2 ^ f.exponent m ∣ m) :
    f.roundUnits neg n d = m := by
  subst hn
  unfold NumFormat.roundUnits
  rw [Nat.mul_div_cancel _ hd]
  generalize f.exponent m = k at *
  obtain ⟨z, rfl⟩ := hm
  have e : 2 ^ k * z * d = d * 2 ^ k * z := by ring
  rw [(f.rounding.apply_cases neg _ _ (by positivity)).2 (by rw [e, Nat.mul_mod_right]), e, Nat.mul_div_cancel_left _ (by positivity)]
  ring

/-- A number rounds to itself, in every format and rounding. -/
theorem NumFormat.round_exact {m : Nat} (hd : 0 < d) (hn : n = m * d) (hm : f.isNumber (.finite neg m) = true) :
    f.round neg n d = .finite neg m := by
  obtain ⟨h1, h2⟩ := NumFormat.isNumber_iff.mp hm
  rw [NumFormat.round_eq, NumFormat.roundUnits_exact hd hn h2, if_pos h1]

end Sys2Proof
end

