-- ==== Sys2Proof/Laws/Num.lean ====
section
/-! SUPPORT. The laws of `NUM` arithmetic: operations whose exact result is a number, zeros, the tables and the PCM rounding. -/

namespace Sys2Proof

variable {f : NumFormat}

/-- The value of an integer number of units. -/
def NumVal.ofUnits (z : Int) : NumVal := .finite (decide (z < 0)) z.natAbs

@[simp] theorem NumVal.ofUnits_zero : NumVal.ofUnits 0 = NumVal.zero := rfl

@[simp] theorem NumVal.units_ofUnits (z : Int) : (NumVal.ofUnits z).units = z := by
  unfold NumVal.ofUnits
  by_cases h : z < 0
  · simp only [h, decide_true, NumVal.units]; omega
  · simp only [h, decide_false, NumVal.units]; omega

/-- A sum that is a number is exact. -/
theorem NumFormat.add_ofUnits {x y : Int} (h : f.isNumber (NumVal.ofUnits (x + y)) = true) :
    f.add (NumVal.ofUnits x) (NumVal.ofUnits y) = NumVal.ofUnits (x + y) := by
  have hx := NumVal.units_ofUnits x
  have hy := NumVal.units_ofUnits y
  unfold NumVal.ofUnits at *
  simp only [NumFormat.add, hx, hy]
  by_cases h0 : x + y = 0
  · rw [if_pos h0, h0]
    have : ¬ (x < 0 ∧ y < 0) := by omega
    simp only [Int.natAbs_zero, lt_self_iff_false, decide_false, NumVal.finite.injEq, and_true]
    simpa [← Bool.decide_and] using this
  · rw [if_neg h0]
    exact NumFormat.round_exact (by omega) (by omega) h

/-- A fraction that is a number is exact. -/
theorem NumFormat.ofRatio_exact {a z : Int} {b : Nat} (hb : 0 < b) (h : a * 2 ^ f.scale = z * b)
    (hz : f.isNumber (NumVal.ofUnits z) = true) : f.ofRatio a b = NumVal.ofUnits z := by
  have hneg : (a < 0) ↔ (z < 0) := by
    have h1 : (0 : Int) < 2 ^ f.scale := by positivity
    have h2 : (0 : Int) < b := by omega
    constructor <;> intro hl
    · by_contra hc
      have := mul_neg_of_neg_of_pos hl h1
      have := mul_nonneg (not_lt.mp hc) h2.le
      omega
    · by_contra hc
      have := mul_neg_of_neg_of_pos hl h2
      have := mul_nonneg (not_lt.mp hc) h1.le
      omega
  have habs : a.natAbs * 2 ^ f.scale = z.natAbs * b := by
    have := congrArg Int.natAbs h
    simpa [Int.natAbs_mul, Int.natAbs_pow] using this
  unfold NumFormat.ofRatio NumVal.ofUnits
  rw [show decide (a < 0) = decide (z < 0) from decide_eq_decide.mpr hneg]
  exact NumFormat.round_exact hb habs hz

/-- A fraction of magnitude at most that of the largest number is a number. -/
theorem NumFormat.ofRatio_isFinite (hp : 1 ≤ f.precision) {a : Int} {b : Nat} (hb : 0 < b)
    (h : a.natAbs * 2 ^ f.scale ≤ b * f.largest) : (f.ofRatio a b).isFinite = true := by
  rw [NumFormat.ofRatio, NumFormat.round_isFinite hp hb h]; rfl

/-- A whole multiple of `2^-j`, of magnitude at most 1, is a number of a format with that many bits. -/
theorem NumFormat.isNumber_ofUnits_mul {z : Int} {j : Nat} (hp : j ≤ f.precision) (hs : j ≤ f.scale)
    (hl : 2 ^ f.scale ≤ f.largest) (hz : z.natAbs ≤ 2 ^ j) :
    f.isNumber (NumVal.ofUnits (z * 2 ^ (f.scale - j))) = true := by
  have h1 : 1 ≤ f.precision := by
    by_contra hc
    have h0 : f.largest = 0 := by simp [NumFormat.largest, show f.precision = 0 by omega]
    have : 0 < 2 ^ f.scale := by positivity
    omega
  unfold NumVal.ofUnits
  rw [show (z * 2 ^ (f.scale - j)).natAbs = z.natAbs * 2 ^ (f.scale - j) by simp [Int.natAbs_mul, Int.natAbs_pow]]
  refine NumFormat.isNumber_of_mul h1 (le_trans hz (Nat.pow_le_pow_right (by omega) hp)) (le_trans ?_ hl)
  calc z.natAbs * 2 ^ (f.scale - j) ≤ 2 ^ j * 2 ^ (f.scale - j) := Nat.mul_le_mul_right _ hz
    _ = 2 ^ f.scale := by rw [← pow_add]; congr 1; omega

/-- A number times zero is a zero. -/
theorem NumFormat.mul_zero_of_finite (x : NumVal) (h : x.isFinite = true) : ∃ b, f.mul x NumVal.zero = .finite b 0 := by
  cases x with
  | finite a m =>
    refine ⟨a != false, ?_⟩
    simp only [NumFormat.mul, NumVal.zero, Nat.mul_zero]
    exact NumFormat.round_exact (by positivity) (by simp) (NumFormat.isNumber_zero _)
  | infinity | nan => cases h

/-- Zero plus a zero of either sign is zero. -/
theorem NumFormat.zero_add_signed_zero (b : Bool) : f.add NumVal.zero (.finite b 0) = NumVal.zero := by
  cases b <;> simp [NumFormat.add, NumVal.zero, NumVal.units]

/-- A dot product of numbers with zeros is zero. -/
theorem NumFormat.dot_of_zeros (n : Nat) (g h : Nat → NumVal) (hg : ∀ k, (g k).isFinite = true)
    (hh : ∀ k, k < n → h k = NumVal.zero) : f.dot n g h = NumVal.zero := by
  unfold NumFormat.dot
  induction n with
  | zero => rfl
  | succ n ih =>
    rw [List.range_succ, List.foldl_append, ih (fun k hk => hh k (by omega)), List.foldl_cons, List.foldl_nil, hh n (by omega)]
    obtain ⟨b, hb⟩ := NumFormat.mul_zero_of_finite (f := f) (g n) (hg n)
    rw [hb, NumFormat.zero_add_signed_zero]

theorem NumFormat.largest_ge_one (h : f.wf = true) : 1 ≤ f.precision ∧ 2 ^ f.scale ≤ f.largest ∧ 2 ^ (15 + f.scale) ≤ f.largest := by
  have h : 1 ≤ f.precision ∧ 2 ^ (15 + f.scale) ≤ f.largest := by simpa [NumFormat.wf] using h
  exact ⟨h.1, le_trans (Nat.pow_le_pow_right (by omega) (by omega)) h.2, h.2⟩

/-- 32768 is a number of the format. -/
theorem NumFormat.ofInt_32768 (h : f.wf = true) : f.ofInt 32768 = .finite false (2 ^ (15 + f.scale)) := by
  obtain ⟨hp, _, hl⟩ := NumFormat.largest_ge_one h
  have hn : f.isNumber (NumVal.ofUnits (2 ^ (15 + f.scale))) = true := by
    unfold NumVal.ofUnits
    rw [show ((2 : Int) ^ (15 + f.scale)).natAbs = 1 * 2 ^ (15 + f.scale) by simp [Int.natAbs_pow]]
    exact NumFormat.isNumber_of_mul hp Nat.one_le_two_pow (by simpa using hl)
  have := NumFormat.ofRatio_exact (f := f) (a := 32768) (b := 1) (by omega) (by rw [pow_add]; norm_num) hn
  rw [NumFormat.ofInt, this, NumVal.ofUnits]
  have hpos : ¬ ((2 : Int) ^ (15 + f.scale) < 0) := not_lt.mpr (by positivity)
  simp [hpos, Int.natAbs_pow]

/-- The bits kept so far, and the cube of the next greater root. -/
theorem cubeRootFrom_spec (n b root : Nat) (h1 : root ^ 3 ≤ n) (h2 : n < (root + 2 ^ b) ^ 3) :
    cubeRootFrom n b root ^ 3 ≤ n ∧ n < (cubeRootFrom n b root + 1) ^ 3 := by
  induction b generalizing root with
  | zero => exact ⟨h1, by simpa [cubeRootFrom] using h2⟩
  | succ b ih =>
    unfold cubeRootFrom
    split
    · next h => exact ih _ h (by rwa [Nat.add_assoc, ← two_mul, ← pow_succ'])
    · next h => exact ih _ h1 (by omega)

/-- The integer part of the cube root. -/
theorem cubeRoot_spec (n : Nat) : cubeRoot n ^ 3 ≤ n ∧ n < (cubeRoot n + 1) ^ 3 := by
  refine cubeRootFrom_spec n _ 0 (by simp) ?_
  rw [Nat.zero_add, ← pow_mul]
  exact lt_of_lt_of_le Nat.lt_log2_self (Nat.pow_le_pow_right (by omega) (by omega))

/-- A nearest integer, an exact half as the rounding says. -/
theorem PcmRound.apply_cases (r : PcmRound) (u : Int) (d : Nat) :
    (r.apply u d = u / d ∧ 2 * (u % d) ≤ d) ∨ (r.apply u d = u / d + 1 ∧ d ≤ 2 * (u % d)) := by
  unfold PcmRound.apply
  dsimp only
  split
  · exact .inl ⟨rfl, by omega⟩
  · split
    · exact .inr ⟨rfl, by omega⟩
    · cases r <;> dsimp only
      · exact .inr ⟨rfl, by omega⟩
      · split
        · exact .inl ⟨rfl, by omega⟩
        · exact .inr ⟨rfl, by omega⟩
      · split
        · exact .inl ⟨rfl, by omega⟩
        · exact .inr ⟨rfl, by omega⟩

end Sys2Proof

namespace Sys2Proof.Machine

/-- The matrixing ROM's integers have magnitude at most `10^9`. -/
theorem nikCosines_le : ∀ m : Fin 33, (nikCosines.getD m.val 0).natAbs ≤ 10 ^ 9 := by decide +kernel

theorem nikInteger_le (i k : Nat) : (nikInteger i k).natAbs ≤ 10 ^ 9 := by
  unfold nikInteger
  dsimp only
  have h := Nat.mod_lt ((16 + i) * (2 * k + 1)) (show 0 < 128 by norm_num)
  generalize (16 + i) * (2 * k + 1) % 128 = m0 at *
  generalize hm : (if 64 < m0 then 128 - m0 else m0) = m
  have hm64 : m ≤ 64 := by split at hm <;> omega
  split
  · next h1 => exact nikCosines_le ⟨m, by omega⟩
  · rw [Int.natAbs_neg]; exact nikCosines_le ⟨64 - m, by omega⟩

/-- Every entry of the matrixing ROM is a number (45_synthesis.md R204). -/
theorem nik_finite {f : NumFormat} (h : f.wf = true) (i k : Nat) : (nik f i k).isFinite = true := by
  obtain ⟨hp, hl, _⟩ := NumFormat.largest_ge_one h
  exact NumFormat.ofRatio_isFinite hp (by norm_num) (Nat.mul_le_mul (nikInteger_le i k) hl)

/-- Every entry of the window is a number (45_synthesis.md R205; log 11). -/
theorem window_finite (f : NumFormat) (k : Nat) : (window f k).isFinite = true := rfl

/-- Every entry of the window is a number of the format. -/
theorem window_isNumber {f : NumFormat} (h : f.wf = true) (k : Nat) : f.isNumber (window f k) = true := by
  obtain ⟨hp, _, _⟩ := NumFormat.largest_ge_one h
  unfold window NumParts.toNum
  generalize Config.window f (Fin.ofNat 512 k) = w
  have h1 : w.significand % 2 ^ f.precision ≤ 2 ^ f.precision - 1 := by
    have := Nat.mod_lt w.significand (show 0 < 2 ^ f.precision by positivity); omega
  have h2 : w.exponent % (f.top + 1) ≤ f.top := by
    have := Nat.mod_lt w.exponent (show 0 < f.top + 1 by omega); omega
  exact NumFormat.isNumber_of_mul hp (by omega) (Nat.mul_le_mul h1 (Nat.pow_le_pow_right (by omega) h2))

/-- A zero sample formats to zero. -/
theorem pcm16_zero {c : Config} (h : c.num.wf = true) : pcm16 c NumVal.zero = 0 := by
  have e : c.num.mul NumVal.zero (.finite false (2 ^ (15 + c.num.scale))) = .finite false 0 := by
    simp only [NumFormat.mul, NumVal.zero, Nat.zero_mul]
    exact NumFormat.round_exact (by positivity) (by simp) (NumFormat.isNumber_zero _)
  unfold pcm16
  rw [NumFormat.ofInt_32768 h, e]
  have h0 : c.pcmRound.apply 0 (2 ^ c.num.scale) = 0 := by
    have hd : (0 : Int) < ((2 ^ c.num.scale : Nat) : Int) := by positivity
    obtain ⟨e, _⟩ | ⟨_, h⟩ := c.pcmRound.apply_cases 0 (2 ^ c.num.scale)
    · simpa using e
    · rw [Int.zero_emod] at h; omega
  show clamp16 (c.pcmRound.apply 0 _) = 0
  rw [h0]; rfl

end Sys2Proof.Machine
end

