-- ==== Sys2Proof/Laws/PerInstr.lean ====
section
/-! SUPPORT. Families of statements about every instruction as syntax, one lemma for each constructor (LAWS.json). -/

namespace Sys2Proof.Laws

/-- The encoding of a unit has exactly the bits of its shape; a well-formed unit other than a frame header, whose fields are read
one by one, is no wider than the default `READ_MAX`, 16 (30_encoding.md R90, 40_bit_reader.md R111). -/
def EncodedWidth.Statement (i : Instr) : Prop :=
  (encode i).length = i.shape.width ∧ (i.wf = true → i.shape = .header ∨ (encode i).length ≤ Config.default.readMax)

/-- The width of a shape the unit table allows. -/
theorem EncodedWidth.ofShape (i : Instr) (h : i.shape.widthOk = true → i.shape = .header ∨ i.shape.width ≤ 16) :
    EncodedWidth.Statement i := by
  have hl : (encode i).length = i.shape.width := by simp [encode, natToBits]
  refine ⟨hl, fun hw => hl ▸ h ?_⟩
  simp only [Instr.wf, Bool.and_eq_true] at hw
  exact hw.1

theorem EncodedWidth.skip (x : Byte) : EncodedWidth.Statement (.skip x) :=
  EncodedWidth.ofShape _ (fun _ => .inr (by simp [Instr.shape, UnitShape.width]))

theorem EncodedWidth.frameL1 (h : HdrFields) : EncodedWidth.Statement (.frameL1 h) :=
  EncodedWidth.ofShape _ (fun _ => .inl rfl)

theorem EncodedWidth.frameL2 (h : HdrFields) : EncodedWidth.Statement (.frameL2 h) :=
  EncodedWidth.ofShape _ (fun _ => .inl rfl)

theorem EncodedWidth.frameL3 (h : HdrFields) : EncodedWidth.Statement (.frameL3 h) :=
  EncodedWidth.ofShape _ (fun _ => .inl rfl)

theorem EncodedWidth.frameRsv (h : HdrFields) : EncodedWidth.Statement (.frameRsv h) :=
  EncodedWidth.ofShape _ (fun _ => .inl rfl)

theorem EncodedWidth.crc16 (c : BitVec 16) : EncodedWidth.Statement (.crc16 c) :=
  EncodedWidth.ofShape _ (fun _ => .inr (by simp [Instr.shape, UnitShape.width]))

theorem EncodedWidth.l1Alloc (a : BitVec 4) : EncodedWidth.Statement (.l1Alloc a) :=
  EncodedWidth.ofShape _ (fun _ => .inr (by simp [Instr.shape, UnitShape.width]))

theorem EncodedWidth.l1Scf (x : BitVec 6) : EncodedWidth.Statement (.l1Scf x) :=
  EncodedWidth.ofShape _ (fun _ => .inr (by simp [Instr.shape, UnitShape.width]))

theorem EncodedWidth.l1Sample (w : Nat) (v : BitVec 16) : EncodedWidth.Statement (.l1Sample w v) :=
  EncodedWidth.ofShape _ (fun h => .inr (by simp [Instr.shape, UnitShape.width, UnitShape.widthOk] at h ⊢; omega))

theorem EncodedWidth.l2Alloc (w : Nat) (a : BitVec 4) : EncodedWidth.Statement (.l2Alloc w a) :=
  EncodedWidth.ofShape _ (fun h => .inr (by simp [Instr.shape, UnitShape.width, UnitShape.widthOk] at h ⊢; omega))

theorem EncodedWidth.l2Scfsi (c : BitVec 2) : EncodedWidth.Statement (.l2Scfsi c) :=
  EncodedWidth.ofShape _ (fun _ => .inr (by simp [Instr.shape, UnitShape.width]))

theorem EncodedWidth.l2Scf (x : BitVec 6) : EncodedWidth.Statement (.l2Scf x) :=
  EncodedWidth.ofShape _ (fun _ => .inr (by simp [Instr.shape, UnitShape.width]))

theorem EncodedWidth.l2Sample (w : Nat) (v : BitVec 16) : EncodedWidth.Statement (.l2Sample w v) :=
  EncodedWidth.ofShape _ (fun h => .inr (by simp [Instr.shape, UnitShape.width, UnitShape.widthOk] at h ⊢; omega))

theorem EncodedWidth.l2Group (w : Nat) (c : BitVec 10) : EncodedWidth.Statement (.l2Group w c) :=
  EncodedWidth.ofShape _ (fun h => .inr (by simp [Instr.shape, UnitShape.width, UnitShape.widthOk] at h ⊢; omega))

theorem EncodedWidth.padBits (w : Nat) (z : BitVec 7) : EncodedWidth.Statement (.padBits w z) :=
  EncodedWidth.ofShape _ (fun h => .inr (by simp [Instr.shape, UnitShape.width, UnitShape.widthOk] at h ⊢; omega))

end Sys2Proof.Laws
end

