-- ==== Sys2Proof/Laws/Relocate.lean ====
section
/-! SUPPORT. The searches and the header stage do not look at the input, the cursor or whether the scan is a byte
ahead: they commute with a change of the three (41_frame_sync.md R123). -/

namespace Sys2Proof.Machine

/-- The same state on another input, at another cursor, the scan a byte ahead or not. -/
abbrev State.relocate (m : Memory) (b : Nat) (a : Bool) (s : State) : State := { s with input := m, bp := b, ahead := a }

theorem State.relocate_startSamples (m b a) (s : State) (t) : (State.relocate m b a s).startSamples t = State.relocate m b a
    (s.startSamples t) := by
  unfold State.startSamples
  have : (State.relocate m b a s).hasSample = s.hasSample := rfl
  rw [this]; split <;> rfl

theorem State.relocate_seekSample (m b a) (s : State) (t n) : (State.relocate m b a s).seekSample t n = State.relocate m b a
    (s.seekSample t n) := by
  unfold State.seekSample
  have : (State.relocate m b a s).hasSample = s.hasSample := rfl
  rw [this]; split
  · rfl
  · split
    · exact State.relocate_startSamples _ _ _ _ _
    · rfl

theorem State.relocate_seekScf (m b a) (s : State) (n) : (State.relocate m b a s).seekScf n = State.relocate m b a (s.seekScf n) := by
  unfold State.seekScf
  have : (State.relocate m b a s).coded = s.coded := rfl
  rw [this]; split
  · rfl
  · exact State.relocate_startSamples _ _ _ _ _

theorem State.relocate_seekScfsi (m b a) (s : State) (n) : (State.relocate m b a s).seekScfsi n = State.relocate m b a (s.seekScfsi n)
    := by
  unfold State.seekScfsi
  have : (State.relocate m b a s).coded = s.coded := rfl
  rw [this]; split
  · rfl
  · exact State.relocate_seekScf _ _ _ _ _

theorem State.relocate_seekAlloc (m b a) (s : State) (n) : (State.relocate m b a s).seekAlloc n = State.relocate m b a (s.seekAlloc n)
    := by
  unfold State.seekAlloc
  have : (State.relocate m b a s).hasAlloc = s.hasAlloc := rfl
  rw [this]; split
  · rfl
  · show (if s.hdr.kind = .l2 then _ else _) = _
    split
    · exact State.relocate_seekScfsi _ _ _ _ _
    · exact State.relocate_seekScf _ _ _ _ _

/-- The end of the header stage commutes with a change of input and cursor. -/
theorem State.relocate_finish (m b a) (s : State) : (State.relocate m b a s).finishHeader = State.relocate m b a s.finishHeader := by
  have hl : (State.relocate m b a s).latchStream = State.relocate m b a s.latchStream := by
    unfold State.latchStream
    show (if s.hdr.kind ≠ .l3 ∧ s.latch.latched = false then _ else _) = _
    split <;> rfl
  unfold State.finishHeader State.startBody
  rw [hl]
  show (if s.hdr.kind = .l3 then _ else _) = _
  split
  · rfl
  · show (if s.latchStream.hdr.kind = .l2 then _ else _) = _
    split
    · exact State.relocate_seekAlloc m b a (s.latchStream.clearBody.selectL2Set) 0
    · exact State.relocate_seekAlloc m b a (s.latchStream.clearBody) 0

/-- The header stage commutes with a change of input and cursor. -/
theorem State.relocate_header (m b a) (s : State) (l h) : (State.relocate m b a s).headerStage l h = State.relocate m b a
    (s.headerStage l h) := by
  unfold State.headerStage
  dsimp only
  rw [show ((State.relocate m b a s).loadHeader l h).cfg = s.cfg from rfl, show (s.loadHeader l h).cfg = s.cfg from rfl]
  cases s.cfg.layerKind l with
  | none => rfl
  | some kind =>
    dsimp only
    rw [show (((State.relocate m b a s).loadHeader l h).resolveHeader kind).cfg = s.cfg from rfl,
      show ((s.loadHeader l h).resolveHeader kind).cfg = s.cfg from rfl]
    split
    · rfl
    · split
      · rfl
      · split
        · rfl
        · exact State.relocate_finish m b a ((s.loadHeader l h).resolveHeader kind)

/-- Consuming bits commutes with putting bytes in front of the input. -/
theorem State.relocate_consume (g : Nat) (m : Memory) (s : State) (n : Nat) (k : State → State) (hm : m.size = g + s.input.size)
   (a : Bool) (hk : ∀ b u, k (State.relocate m b a u) = State.relocate m b a (k u)) (hbp : ∀ u, (k u).bp = u.bp) :
   (State.relocate m (8 * g + s.bp) a s).consume n k = State.relocate m (8 * g + (s.consume n k).bp) a (s.consume n k) := by
  have he : (State.relocate m (8 * g + s.bp) a s).overruns n = s.overruns n := by
    simp only [State.overruns, State.endBit, hm]
    congr 1; apply propext; omega
  unfold State.consume
  rw [he]
  split
  · rfl
  · have : (State.relocate m (8 * g + s.bp) a s).advance n = State.relocate m (8 * g + s.bp + n) a (s.advance n) := rfl
    rw [this, hk, hbp, State.advance_bp, Nat.add_assoc]

theorem State.atAlloc_bp (s : State) (k : SubCh → State) (hk : ∀ c, (k c).bp = s.bp) : (s.atAlloc k).bp = s.bp := by
  unfold State.atAlloc; split
  · exact hk _
  · rfl

theorem State.atScfsi_bp (s : State) (k : SubCh → State) (hk : ∀ c, (k c).bp = s.bp) : (s.atScfsi k).bp = s.bp := by
  unfold State.atScfsi; split
  · exact hk _
  · rfl

theorem State.atScf_bp (s : State) (k) (hk : ∀ c g, (k c g).bp = s.bp) : (s.atScf k).bp = s.bp := by
  unfold State.atScf; split
  · exact hk _ _
  · rfl

theorem State.atSample_bp (s : State) (k) (hk : ∀ c g x, (k c g x).bp = s.bp) : (s.atSample k).bp = s.bp := by
  unfold State.atSample; split
  · exact hk _ _ _
  · rfl

theorem State.seekAlloc_bp (s : State) (n) : (s.seekAlloc n).bp = s.bp := by obtain ⟨_, _, e⟩ := s.seekAlloc_goto n; rw [e]; rfl

theorem State.seekScf_bp (s : State) (n) : (s.seekScf n).bp = s.bp := by obtain ⟨_, _, e⟩ := s.seekScf_goto n; rw [e]; rfl

theorem State.seekScfsi_bp (s : State) (n) : (s.seekScfsi n).bp = s.bp := by obtain ⟨_, _, e⟩ := s.seekScfsi_goto n; rw [e]; rfl

theorem State.seekSample_bp (s : State) (t n) : (s.seekSample t n).bp = s.bp := by
  obtain ⟨_, _, e⟩ := s.seekSample_goto t n; rw [e]; rfl

theorem State.relocate_storeSample (m b a) (u : State) (c t p f) : (State.relocate m b a u).storeSample c t p f = State.relocate m b a
    (u.storeSample c t p f) := rfl

theorem State.relocate_classOf (m b a) (u : State) : (State.relocate m b a u).classOf = u.classOf := rfl

end Sys2Proof.Machine
end

