-- ==== Sys2Proof/Laws/Scan.lean ====
section
/-! SUPPORT. The searches for the next element pass over no element the body has (30_encoding.md R84, R85). -/

namespace Sys2Proof.Machine

/-- The body of the frame has an element at a position. -/
def State.HasElementAt (u : State) (p : Pos) : Prop := { u with pos := p }.PositionInBody
/-- A position at or after place `n` of a part. -/
def Pos.From (part n : Nat) (p : Pos) : Prop := part < p.part ∨ p.part = part ∧ n ≤ p.place
/-- `r` is what a search in `u` from place `n` of a part ends at: an element with none of the body before it, or the end of the
    body
with none of the body left. -/
def State.Scan (u : State) (part n : Nat) (r : State) : Prop :=
  (r.fsm = .layerDecode ∧ Pos.From part n r.pos ∧ ∀ p, Pos.From part n p → p.Before r.pos → ¬ State.HasElementAt u p) ∨
  (r.fsm = .synth ∧ r.pos = .slot 0 ∧ ∀ p, Pos.From part n p → ¬ State.HasElementAt u p)

/-- A search goes on in the next part when this one has nothing left. -/
theorem State.Scan.ofNextPart {u : State} {part n : Nat} {r : State} (h : State.Scan u (part + 1) 0 r)
    (hn : ∀ p, p.part = part → n ≤ p.place → ¬ State.HasElementAt u p) : State.Scan u part n r := by
  obtain ⟨h1, h2, h3⟩ | ⟨h1, h2, h3⟩ := h
  · refine .inl ⟨h1, .inl ?_, ?_⟩
    · unfold Pos.From at h2; omega
    · intro p hp hb
      by_cases he : p.part = part
      · exact hn p he (by unfold Pos.From at hp; omega)
      · exact h3 p (by unfold Pos.From at *; omega) hb
  · refine .inr ⟨h1, h2, ?_⟩
    intro p hp
    by_cases he : p.part = part
    · exact hn p he (by unfold Pos.From at hp; omega)
    · exact h3 p (by unfold Pos.From at *; omega)

/-- An element at or after the sample part is a sample element. -/
theorem State.HasElementAt.sample {u : State} {p : Pos} (hp : 3 ≤ p.part) (h : State.HasElementAt u p) : ∃ t c k, p = .sample t
    c k ∧ u.hasSample c = true := by
  cases p with
  | sample t c k => exact ⟨t, c, k, rfl, h.1⟩
  | idle => exact h.elim
  | slot => exact h.elim
  | alloc | scfsi | scf => simp [Pos.part] at hp

/-- A sample element found is the first. -/
theorem State.Scan.ofFound {u : State} {t : Fin 12} {n : Nat} {c : SubCh} (h : seekFrom u.hasSample n = some c) :
    State.Scan u (3 + t.val) n (u.goto .layerDecode (.sample t c 0)) := by
  refine .inl ⟨rfl, .inr ⟨rfl, (seekFrom_some h).2⟩, ?_⟩
  intro p hf hb hin
  obtain ⟨t', c', k, rfl, hs⟩ := State.HasElementAt.sample (by unfold Pos.From at hf; omega) hin
  have hb : (Pos.sample t' c' k).Before (.sample t c 0) := hb
  simp only [Pos.From, Pos.Before, Pos.part, Pos.place, Pos.element] at hf hb
  have := seekFrom_first h c' (by unfold SubCh.index; omega) (by unfold SubCh.index; have : (0 : Fin 3).val = 0 := rfl; omega)
  simp [hs] at this

/-- The sample part from its first place. -/
theorem State.startSamples_scan (u : State) (t : Fin 12) : State.Scan u (3 + t.val) 0 (u.startSamples t) := by
  unfold State.startSamples
  split
  · next c h => exact State.Scan.ofFound h
  · next h =>
    refine .inr ⟨rfl, rfl, ?_⟩
    intro p hf hin
    obtain ⟨t', c', k, rfl, hs⟩ := State.HasElementAt.sample (by unfold Pos.From at hf; omega) hin
    have := seekFrom_none h c' (Nat.zero_le _)
    simp [hs] at this

/-- The sample part from a place on. -/
theorem State.seekSample_scan (u : State) (t : Fin 12) (n : Nat) : State.Scan u (3 + t.val) n (u.seekSample t n) := by
  unfold State.seekSample
  split
  · next c h => exact State.Scan.ofFound h
  · next h =>
    have hn : ∀ p : Pos, p.part = 3 + t.val → n ≤ p.place → ¬ State.HasElementAt u p := by
      intro p hp hpl hin
      obtain ⟨t', c', k, rfl, hs⟩ := State.HasElementAt.sample (by omega) hin
      have := seekFrom_none h c' hpl
      simp [hs] at this
    split
    · next ht =>
      have := State.startSamples_scan u ⟨t.val + 1, ht⟩
      exact State.Scan.ofNextPart (by rwa [show 3 + t.val + 1 = 3 + (t.val + 1) by omega]) hn
    · next ht =>
      refine .inr ⟨rfl, rfl, ?_⟩
      intro p hf hin
      by_cases he : p.part = 3 + t.val
      · exact hn p he (by unfold Pos.From at hf; omega) hin
      · obtain ⟨t', c', k, rfl, hs⟩ := State.HasElementAt.sample (by unfold Pos.From at hf; omega) hin
        simp only [Pos.From, Pos.part] at hf he
        have := t'.isLt
        omega

/-- The scale-factor part from a place on. -/
theorem State.seekScf_scan (u : State) (n : Nat) : State.Scan u 2 n (u.seekScf n) := by
  have inb : ∀ p : Pos, p.part = 2 → State.HasElementAt u p → ∃ c got, p = .scf c got ∧ u.coded c = true := by
    intro p hp h
    cases p with
    | scf c got => exact ⟨c, got, rfl, h.1⟩
    | _ => simp [Pos.part] at hp <;> omega
  unfold State.seekScf
  split
  · next c h =>
    refine .inl ⟨rfl, .inr ⟨rfl, (seekFrom_some h).2⟩, ?_⟩
    intro p hf hb hin
    have hb : p.Before (.scf c []) := hb
    have hp : p.part = 2 := by
      have : (Pos.scf c []).part = 2 := rfl
      unfold Pos.From at hf; unfold Pos.Before at hb; omega
    obtain ⟨c', got, rfl, hs⟩ := inb p hp hin
    simp only [Pos.From, Pos.Before, Pos.part, Pos.place, Pos.element, List.length_nil] at hf hb
    have := seekFrom_first h c' (by unfold SubCh.index; omega) (by unfold SubCh.index; omega)
    simp [hs] at this
  · next h =>
    refine State.Scan.ofNextPart (State.startSamples_scan u 0) ?_
    intro p hp hpl hin
    obtain ⟨c', got, rfl, hs⟩ := inb p hp hin
    have := seekFrom_none h c' hpl
    simp [hs] at this

/-- The SCFSI part from a place on. -/
theorem State.seekScfsi_scan (u : State) (n : Nat) : State.Scan u 1 n (u.seekScfsi n) := by
  have inb : ∀ p : Pos, p.part = 1 → State.HasElementAt u p → ∃ c, p = .scfsi c ∧ u.coded c = true := by
    intro p hp h
    cases p with
    | scfsi c => exact ⟨c, rfl, h.2⟩
    | _ => simp [Pos.part] at hp <;> omega
  unfold State.seekScfsi
  split
  · next c h =>
    refine .inl ⟨rfl, .inr ⟨rfl, (seekFrom_some h).2⟩, ?_⟩
    intro p hf hb hin
    have hb : p.Before (.scfsi c) := hb
    have hp : p.part = 1 := by
      have : (Pos.scfsi c).part = 1 := rfl
      unfold Pos.From at hf; unfold Pos.Before at hb; omega
    obtain ⟨c', rfl, hs⟩ := inb p hp hin
    simp only [Pos.From, Pos.Before, Pos.part, Pos.place, Pos.element] at hf hb
    have := seekFrom_first h c' (by unfold SubCh.index; omega) (by unfold SubCh.index; omega)
    simp [hs] at this
  · next h =>
    refine State.Scan.ofNextPart (State.seekScf_scan u 0) ?_
    intro p hp hpl hin
    obtain ⟨c', rfl, hs⟩ := inb p hp hin
    have := seekFrom_none h c' hpl
    simp [hs] at this

/-- The allocation part from a place on. -/
theorem State.seekAlloc_scan (u : State) (n : Nat) : State.Scan u 0 n (u.seekAlloc n) := by
  have inb : ∀ p : Pos, p.part = 0 → State.HasElementAt u p → ∃ c, p = .alloc c ∧ u.hasAlloc c = true := by
    intro p hp h
    cases p with
    | alloc c => exact ⟨c, rfl, h⟩
    | _ => simp [Pos.part] at hp
  unfold State.seekAlloc
  split
  · next c h =>
    refine .inl ⟨rfl, .inr ⟨rfl, (seekFrom_some h).2⟩, ?_⟩
    intro p hf hb hin
    have hb : p.Before (.alloc c) := hb
    have hp : p.part = 0 := by
      have : (Pos.alloc c).part = 0 := rfl
      unfold Pos.From at hf; unfold Pos.Before at hb; omega
    obtain ⟨c', rfl, hs⟩ := inb p hp hin
    simp only [Pos.From, Pos.Before, Pos.part, Pos.place, Pos.element] at hf hb
    have := seekFrom_first h c' (by unfold SubCh.index; omega) (by unfold SubCh.index; omega)
    simp [hs] at this
  · next h =>
    have hn : ∀ p : Pos, p.part = 0 → n ≤ p.place → ¬ State.HasElementAt u p := by
      intro p hp hpl hin
      obtain ⟨c', rfl, hs⟩ := inb p hp hin
      have := seekFrom_none h c' hpl
      simp [hs] at this
    split
    · exact State.Scan.ofNextPart (State.seekScfsi_scan u 0) hn
    · next hk =>
      refine State.Scan.ofNextPart (State.Scan.ofNextPart (State.seekScf_scan u 0) ?_) hn
      intro p hp _ hin
      cases p with
      | scfsi c => exact hk hin.1
      | _ => simp [Pos.part] at hp <;> omega

/-- A later position is at a later place or at a later element of the same place. -/
theorem Pos.Before.from_or_same {q p : Pos} (h : q.Before p) :
    Pos.From q.part (q.place + 1) p ∨ (p.part = q.part ∧ p.place = q.place ∧ q.element < p.element) := by
  unfold Pos.Before at h; unfold Pos.From; omega

/-- Two subband-channels at one place of the order are the same. -/
theorem SubCh.ext_index {c d : SubCh} (h : c.index = d.index) : c = d := by
  rw [← SubCh.ofIndex_index c, h, SubCh.ofIndex_index]

end Sys2Proof.Machine
end

