-- ==== Sys2Proof/Tests/Slice0.lean ====
section
/-! SUPPORT. Tests on fixed values, their expected results from spec/95_test_vectors.md or from the rules by hand, and for every
obligation with hypotheses a concrete case that meets them. -/

namespace Sys2Proof.Tests

open Sys2Proof Sys2Proof.Machine

set_option Elab.async false

/-! ## Helpers -/

/-- The state an outcome goes on in; the reset state where it stops. -/
def nextOf (o : Host.Outcome State Fault Refusal) : State :=
  match o with
  | .next t => t
  | _ => State.reset

/-- The outcome is a next state. -/
def ran (o : Host.Outcome State Fault Refusal) : Bool :=
  match o with
  | .next _ => true
  | _ => false

/-- The bits of a string of `0` and `1`. -/
def bitsOf (s : String) : List Bool := s.toList.map (· == '1')

/-- A state inside a frame body, on an input, before any element. Layer II bodies use table set 1. -/
def body (kind : LayerKind) (nch bound : Nat) (pos : Pos) (input : List Byte) : State :=
  { State.start input with
    fsm := .layerDecode, pos := pos
    hdr := { HeaderRegs.reset with kind := kind, bound := bound, fs := 44100, nch := nch }
    latch := ⟨true, 44100, nch⟩
    work := { WorkRegs.reset with l2Set := 1, sbLimit := 30 } }

/-- The same with an allocation code in channel 0 and in channel 1 of a subband. -/
def coded (s : State) (sb : Fin 32) (a : BitVec 4) : State :=
  s.withWork ((s.work.setAlloc 0 sb a).setAlloc 1 sb a)

/-- The same with a first scale-factor index for each channel of a subband. -/
def scaled (s : State) (sb : Fin 32) (x y : BitVec 6) : State :=
  s.withWork ((s.work.setScfIdx 0 sb 0 x).setScfIdx 1 sb 0 y)

/-- The number of a binary32 pattern, as spec/95_test_vectors.md prints results. -/
def f32 (bits : BitVec 32) : NumVal :=
  let e := (bits.extractLsb' 23 8).toNat
  let m := (bits.extractLsb' 0 23).toNat
  .finite (bits.getLsbD 31) (if e = 0 then m else (2 ^ 23 + m) * 2 ^ (e - 1))

/-- The sample after an outcome. -/
def sampleOf (o : Host.Outcome State Fault Refusal) (ch : Fin 2) (sb : Fin 32) (t : Fin 36) : NumVal :=
  (nextOf o).work.sampleAt ch sb t

/-- The value a bit read answers. -/
def valueOf (o : Host.Outcome (Nat × State) ErrCode Refusal) : Option Nat :=
  match o with
  | .next p => some p.1
  | _ => none

/-- What a bit read raises. -/
def raised (o : Host.Outcome (Nat × State) ErrCode Refusal) : Option ErrCode :=
  match o with
  | .fault e => some e
  | _ => none

/-- The outcome is a refusal by this name. -/
def refusedBy (r : Refusal) (o : Host.Outcome State Fault Refusal) : Bool :=
  match o with
  | .refused r' => decide (r' = r)
  | _ => false

/-- A decidable form of `State.PositionInBody`. -/
def positionCheck (s : State) : Bool :=
  match s.pos with
  | .alloc c => s.hasAlloc c
  | .scfsi c => decide (s.hdr.kind = .l2) && s.coded c
  | .scf c got =>
    s.coded c && (if s.hdr.kind = .l2 then decide (got.length < scfsiCount (s.work.scfsiAt c.ch c.sb)) else decide (got = []))
  | .sample _ c k => s.hasSample c && (decide (s.hdr.kind = .l2 ∧ (s.classOf c).grouped = false) || decide (k = 0))
  | .idle => false
  | .slot _ => false

theorem positionCheck_sound {s : State} (h : positionCheck s = true) : s.PositionInBody := by
  unfold positionCheck at h
  unfold State.PositionInBody
  cases hp : s.pos with
  | alloc c => rw [hp] at h; exact h
  | scfsi c => rw [hp] at h; simpa using h
  | scf c got =>
    rw [hp] at h
    simp only [Bool.and_eq_true] at h
    refine ⟨h.1, ?_⟩
    have := h.2
    split at this
    · next hk => rw [if_pos hk]; simpa using this
    · next hk => rw [if_neg hk]; simpa using this
  | sample t c k => rw [hp] at h; simpa using h
  | idle => rw [hp] at h; cases h
  | slot t => rw [hp] at h; cases h

/-- A decidable form of `State.InFrame`. -/
def inFrameCheck (s : State) : Bool :=
  decide (s.latch.latched = true ∧ s.hdr.kind ≠ .l3 ∧
    (s.hdr.bound = 4 ∨ s.hdr.bound = 8 ∨ s.hdr.bound = 12 ∨ s.hdr.bound = 16 ∨ s.hdr.bound = 32) ∧
    (s.hdr.kind = .l2 → s.work.sbLimit = l2SbLimit s.work.l2Set))

/-- A decidable form of `Consistent`. -/
def consistentCheck (s : State) : Bool :=
  s.cfg.wf && s.input.wf && s.out.wf && decide (s.bp ≤ s.endBit) && decide (s.fsm = .seekSync ∨ s.fsm = .header → s.bp % 8 = 0) &&
    decide (s.ahead = true → s.fsm = .seekSync ∧ s.byteIndex < s.input.size) &&
    decide (∀ ch : Fin 2, (s.synth.get ch).voff.toNat % 64 = 0) && decide (s.out.size = 2 * s.latch.nch * s.nsamp) &&
    decide (s.latch.latched = true → (s.latch.fs = 44100 ∨ s.latch.fs = 48000 ∨ s.latch.fs = 32000) ∧
      (s.latch.nch = 1 ∨ s.latch.nch = 2)) &&
    decide (s.latch.latched = false → s.nsamp = 0 ∧ s.frames = 0) && decide (s.errCode = .none ↔ s.fsm ≠ .error) &&
    decide (s.fsm = .header → (s.hdr.fs = 44100 ∨ s.hdr.fs = 48000 ∨ s.hdr.fs = 32000) ∧ (s.hdr.nch = 1 ∨ s.hdr.nch = 2) ∧
      (s.hdr.bound = 4 ∨ s.hdr.bound = 8 ∨ s.hdr.bound = 12 ∨ s.hdr.bound = 16 ∨ s.hdr.bound = 32)) &&
    decide (s.fsm = .layerDecode → inFrameCheck s = true ∧ positionCheck s = true) &&
    decide (s.fsm = .synth → inFrameCheck s = true ∧
      ∃ t : Fin 36, s.pos = .slot t ∧ t.val < s.slotCount ∧ 384 * s.frames + 32 * t.val ≤ s.nsamp) &&
    decide (s.fsm = .align → inFrameCheck s = true ∧ 384 * (s.frames + 1) ≤ s.nsamp) && decide (384 * s.frames ≤ s.nsamp)

theorem inFrameCheck_sound {s : State} (h : inFrameCheck s = true) : s.InFrame := by
  unfold inFrameCheck at h
  have h := of_decide_eq_true h
  exact h

theorem consistentCheck_sound {s : State} (h : consistentCheck s = true) : Consistent s := by
  simp only [consistentCheck, Bool.and_eq_true, decide_eq_true_eq] at h
  obtain ⟨⟨⟨⟨⟨⟨⟨⟨⟨⟨⟨⟨⟨⟨⟨h0, h1⟩, h2⟩, h3⟩, h4⟩, ha⟩, h5⟩, h6⟩, h7⟩, h8⟩, h9⟩, h10⟩, h11⟩, h12⟩, h13⟩, h14⟩ := h
  exact ⟨h0, h1, h2, h3, h4, ha, h5, h6, h7, h8, h9, h10, fun hf => (h11 hf).imp inFrameCheck_sound positionCheck_sound,
    fun hf => (h12 hf).imp inFrameCheck_sound id, fun hf => (h13 hf).imp inFrameCheck_sound id, h14⟩

/-! ## Ill-formed terms are refused (30_encoding.md R90) -/

theorem test_wf_l1Sample_width : (Instr.l1Sample 1 0).wf = false ∧ (Instr.l1Sample 17 0).wf = false := by decide
theorem test_wf_l1Sample_fits : (Instr.l1Sample 2 4).wf = false ∧ (Instr.l1Sample 2 3).wf = true := by decide
theorem test_wf_l2Alloc_width : (Instr.l2Alloc 1 0).wf = false ∧ (Instr.l2Alloc 5 0).wf = false := by decide
theorem test_wf_l2Alloc_fits : (Instr.l2Alloc 3 8).wf = false ∧ (Instr.l2Alloc 3 7).wf = true := by decide
theorem test_wf_l2Sample_width : (Instr.l2Sample 2 0).wf = false ∧ (Instr.l2Sample 17 0).wf = false := by decide
theorem test_wf_l2Sample_fits : (Instr.l2Sample 3 8).wf = false ∧ (Instr.l2Sample 3 7).wf = true := by decide
theorem test_wf_l2Group_width : (Instr.l2Group 6 0).wf = false ∧ (Instr.l2Group 9 0).wf = false := by decide
theorem test_wf_l2Group_fits : (Instr.l2Group 5 32).wf = false ∧ (Instr.l2Group 5 31).wf = true := by decide
theorem test_wf_padBits_width : (Instr.padBits 8 0).wf = false := by decide
theorem test_wf_padBits_fits : (Instr.padBits 2 4).wf = false ∧ (Instr.padBits 0 0).wf = true := by decide

/-! ## Words written out from the encodings (30_encoding.md R82 to R90; headers from 95_test_vectors.md section 2.3) -/

theorem test_decode_skip : decode .skip (bitsOf "01001001") = .ok (.skip 0x49) := by decide +kernel
theorem test_decode_frameL1 :
    decode .header (bitsOf "11111111111101110100001111001111") = .ok (.frameL1 ⟨0, 1, 4, 0, 1, 1, 3, 0, 15⟩) := by decide +kernel
theorem test_decode_frameL2 :
    decode .header (bitsOf "11111111111111010001100011000000") = .ok (.frameL2 ⟨1, 1, 1, 2, 0, 0, 3, 0, 0⟩) := by decide +kernel
theorem test_decode_frameL3 :
    decode .header (bitsOf "11111111111110111001000000000000") = .ok (.frameL3 ⟨1, 1, 9, 0, 0, 0, 0, 0, 0⟩) := by decide +kernel
theorem test_decode_frameRsv :
    decode .header (bitsOf "11111111111110010100000011010000") = .ok (.frameRsv ⟨1, 1, 4, 0, 0, 0, 3, 1, 0⟩) := by decide +kernel
theorem test_decode_crc16 : decode .crc16 (bitsOf "1010101111001101") = .ok (.crc16 0xABCD) := by decide +kernel
theorem test_decode_l1Alloc : decode .l1Alloc (bitsOf "0001") = .ok (.l1Alloc 1) := by decide +kernel
theorem test_decode_l1Scf : decode .l1Scf (bitsOf "000011") = .ok (.l1Scf 3) := by decide +kernel
theorem test_decode_l1Sample : decode (.l1Sample 2) (bitsOf "10") = .ok (.l1Sample 2 2) := by decide +kernel
theorem test_decode_l2Alloc : decode (.l2Alloc 3) (bitsOf "110") = .ok (.l2Alloc 3 6) := by decide +kernel
theorem test_decode_l2Scfsi : decode .l2Scfsi (bitsOf "11") = .ok (.l2Scfsi 3) := by decide +kernel
theorem test_decode_l2Scf : decode .l2Scf (bitsOf "000110") = .ok (.l2Scf 6) := by decide +kernel
theorem test_decode_l2Sample : decode (.l2Sample 3) (bitsOf "110") = .ok (.l2Sample 3 6) := by decide +kernel
theorem test_decode_l2Group : decode (.l2Group 7) (bitsOf "0111110") = .ok (.l2Group 7 62) := by decide +kernel
theorem test_decode_padBits : decode (.padBits 2) (bitsOf "01") = .ok (.padBits 2 1) := by decide +kernel

/-- A header word without the sync pattern, a width no row has and a wrong number of bits are refused by name. -/
theorem test_decode_refuses :
    decode .header (bitsOf "11111111111001110100001111001111") = .error .noSyncPattern ∧
      decode (.l2Group 6) (bitsOf "000000") = .error .widthNotAllowed ∧ decode .crc16 (bitsOf "0") = .error .wrongLength := by
  decide +kernel

/-- `FF` then a byte below `F0` is one skipped byte (95_test_vectors.md section 2.2). -/
theorem test_decode_seek_skips_marker : decodeSeek [0xFF, 0xEF, 0xFF, 0xF0] = .ok (.skip 0xFF, [0xEF, 0xFF, 0xF0]) := by
  decide +kernel

theorem test_fetchWord_frame :
    (nextOf (step (State.reset.withFetchWord 32 0xFFFF40C0))).fsm = .layerDecode ∧
      (nextOf (step (State.reset.withFetchWord 32 0xFFFF40C0))).hdr.bitrate = 128 := by decide +kernel
theorem test_fetchWord_crc : ran (step (State.reset.withFetchWord 16 0xABCD)) = true ∧
    (nextOf (step (State.reset.withFetchWord 16 0xABCD))).bp = 16 := by decide +kernel
theorem test_fetchWord_skip : (nextOf (step (State.reset.withFetchWord 8 0x49))).bp = 8 := by decide +kernel

/-! ## One step of each unit -/

theorem test_skip : (nextOf (step (State.start [0x00, 0xFF, 0xFF]))).bp = 8 := by decide +kernel
/-- `F0 FF`: the marker as last byte is passed over, no error (41_frame_sync.md R124). -/
theorem test_skip_last_marker : (nextOf (step { State.start [0xF0, 0xFF] with bp := 8 })).bp = 16 ∧
    (nextOf (step { State.start [0xF0, 0xFF] with bp := 8 })).fsm = .seekSync := by decide +kernel

/-- `FF FF 44 40`: 128 kbps, 48000 Hz, joint stereo, 2 channels, bound 4. -/
theorem test_frameL1 :
    let t := nextOf (step (State.start [0xFF, 0xFF, 0x44, 0x40]))
    t.bp = 32 ∧ t.hdr.bitrate = 128 ∧ t.hdr.fs = 48000 ∧ t.hdr.nch = 2 ∧ t.hdr.bound = 4 ∧ t.latch = ⟨true, 48000, 2⟩ ∧
      t.fsm = .layerDecode := by decide +kernel
/-- `FF FE 40 C0`: the `CRC16` follows. -/
theorem test_frameL1_crc :
    let t := nextOf (step (State.start [0xFF, 0xFE, 0x40, 0xC0]))
    t.fsm = .header ∧ t.bp = 32 ∧ t.latch.latched = false := by decide +kernel
/-- `FF FD 28 C0`: 32000 Hz, 48 kbps, one channel: table set 3, 12 subbands. -/
theorem test_frameL2 :
    let t := nextOf (step (State.start [0xFF, 0xFD, 0x28, 0xC0]))
    t.hdr.bitrate = 48 ∧ t.hdr.fs = 32000 ∧ t.work.l2Set = 3 ∧ t.work.sbLimit = 12 := by decide +kernel
/-- `FF FD 24 C0`: 48000 Hz: table set 1, 30 subbands. -/
theorem test_frameL2_48k :
    let t := nextOf (step (State.start [0xFF, 0xFD, 0x24, 0xC0]))
    t.hdr.fs = 48000 ∧ t.work.l2Set = 1 ∧ t.work.sbLimit = 30 := by decide +kernel
/-- `FF FB 90 00`: the stub. -/
theorem test_frameL3 :
    let t := nextOf (step (State.start [0xFF, 0xFB, 0x90, 0x00]))
    t.fsm = .seekSync ∧ t.bp = 32 ∧ t.latch.latched = false ∧ t.hdr.kind = .l3 ∧ t.hdr.bitrate = 128 := by decide +kernel
/-- `FF F9 FC C0`: all three fields invalid. -/
theorem test_frameRsv :
    let t := nextOf (step (State.start [0xFF, 0xF9, 0xFC, 0xC0]))
    t.fsm = .error ∧ t.errCode = .invalidField := by decide +kernel
/-- `FF FF 40`: three bytes do not hold a header. -/
theorem test_frame_truncated :
    (nextOf (step (State.start [0xFF, 0xFF, 0x40]))).errCode = .midFrameEof := by decide +kernel
/-- `FF FA 90 00 AB CD`: after the stub's `CRC16` the block seeks sync at byte 6. -/
theorem test_crc16 :
    let t := nextOf (step (nextOf (step (State.start [0xFF, 0xFA, 0x90, 0x00, 0xAB, 0xCD]))))
    t.fsm = .seekSync ∧ t.bp = 48 := by decide +kernel

/-- An independent subband: channel 1 alone. -/
theorem test_l1Alloc :
    let t := nextOf (step (body .l1 2 4 (.alloc ⟨3, 1⟩) [0x90]))
    t.work.allocAt 1 3 = 9 ∧ t.work.allocAt 0 3 = 0 ∧ t.pos = .alloc ⟨4, 0⟩ ∧ t.bp = 4 := by decide +kernel
/-- A joint subband: both channels, and the next element is in the next subband. -/
theorem test_l1Alloc_joint :
    let t := nextOf (step (body .l1 2 4 (.alloc ⟨4, 0⟩) [0x90]))
    t.work.allocAt 0 4 = 9 ∧ t.work.allocAt 1 4 = 9 ∧ t.pos = .alloc ⟨5, 0⟩ := by decide +kernel
theorem test_l1Scf :
    let t := nextOf (step (coded (body .l1 1 32 (.scf ⟨0, 0⟩ []) [0xF8]) 0 1))
    t.work.scfIdxAt 0 0 0 = 62 ∧ t.pos = .sample 0 ⟨0, 0⟩ 0 := by decide +kernel
theorem test_l1Scf_63 :
    (nextOf (step (coded (body .l1 1 32 (.scf ⟨0, 0⟩ []) [0xFC]) 0 1))).errCode = .invalidField := by decide +kernel
/-- `n = 1`, code 2, index 3: `2/3` (43_layer1.md R154). -/
theorem test_l1Sample :
    sampleOf (step (scaled (coded (body .l1 1 32 (.sample 0 ⟨0, 0⟩ 0) [0x80]) 0 1) 0 3 3)) 0 0 0 = f32 0x3F2AAAAB := by
  decide +kernel
/-- Joint subband, code 0, indices 3 and 0: `-2/3` and `-4/3`. -/
theorem test_l1Sample_joint :
    let o := step (scaled (coded (body .l1 2 4 (.sample 11 ⟨31, 0⟩ 0) [0x00]) 31 1) 31 3 0)
    sampleOf o 0 31 11 = f32 0xBF2AAAAB ∧ sampleOf o 1 31 11 = f32 0xBFAAAAAB ∧ (nextOf o).fsm = .synth := by decide +kernel

theorem test_l2Alloc :
    let t := nextOf (step (body .l2 1 32 (.alloc ⟨11, 0⟩) [0xC0]))
    t.work.allocAt 0 11 = 6 ∧ t.bp = 3 := by decide +kernel
/-- The last subband of set 1 has a code of 2 bits; then the SCFSI part begins. -/
theorem test_l2Alloc_last :
    let t := nextOf (step (body .l2 1 32 (.alloc ⟨29, 0⟩) [0xC0]))
    t.work.allocAt 0 29 = 3 ∧ t.bp = 2 ∧ t.pos = .scfsi ⟨29, 0⟩ := by decide +kernel
theorem test_l2Scfsi :
    let t := nextOf (step (coded (body .l2 1 32 (.scfsi ⟨0, 0⟩) [0xC0]) 0 1))
    t.work.scfsiAt 0 0 = 3 ∧ t.pos = .scf ⟨0, 0⟩ [] := by decide +kernel
/-- `SCFSI = 3`, elements 3 and 6: indices `(3, 6, 6)` (44_layer2.md R177). -/
theorem test_l2Scf :
    let s := coded (body .l2 1 32 (.scf ⟨0, 0⟩ [3]) [0x18]) 0 1
    let t := nextOf (step (s.withWork (s.work.setScfsi 0 0 3)))
    t.work.scfIdxAt 0 0 0 = 3 ∧ t.work.scfIdxAt 0 0 1 = 6 ∧ t.work.scfIdxAt 0 0 2 = 6 := by decide +kernel
/-- A 63 among the elements raises once the last of them is read. -/
theorem test_l2Scf_63 :
    let s := coded (body .l2 1 32 (.scf ⟨0, 0⟩ [63]) [0x18]) 0 1
    (nextOf (step (s.withWork (s.work.setScfsi 0 0 3)))).errCode = .invalidField := by decide +kernel
/-- Set 1, subband 0, allocation 2: class 2 (7 levels, 3 bits), code 7, scale factor 1: `8/7` in slot `3 × 4 + 1`. -/
theorem test_l2Sample :
    let s := coded (body .l2 1 32 (.sample 4 ⟨0, 0⟩ 1) [0xE0]) 0 2
    let o := step (s.withWork (s.work.setScfIdx 0 0 1 3))
    sampleOf o 0 0 13 = f32 0x3F924925 ∧ (nextOf o).pos = .sample 4 ⟨0, 0⟩ 2 := by decide +kernel
/-- Class 0, code 5: `(+2/3, 0, -2/3)`, scale factor 1 of slot 2 for group 8 (44_layer2.md R180). -/
theorem test_l2Group :
    let s := coded (body .l2 1 32 (.sample 8 ⟨0, 0⟩ 0) [0x28]) 0 1
    let o := step (s.withWork (s.work.setScfIdx 0 0 2 3))
    sampleOf o 0 0 24 = f32 0x3F2AAAAB ∧ sampleOf o 0 0 25 = NumVal.zero ∧ sampleOf o 0 0 26 = f32 0xBF2AAAAB := by decide +kernel
/-- `BP = 190` of 24 bytes (40_bit_reader.md R114). -/
theorem test_padBits :
    let t := nextOf (step { State.start (List.replicate 24 0xFF) with fsm := .align, bp := 190 })
    t.bp = 192 ∧ t.frames = 1 ∧ t.fsm = .seekSync := by decide +kernel

/-! ## Operations and tables -/

/-- `A5 C3` (40_bit_reader.md R110). -/
theorem test_readBits :
    let s := State.start [0xA5, 0xC3]
    valueOf (s.readBits 3) = some 5 ∧ valueOf ((s.advance 3).readBits 7) = some 23 ∧
      valueOf ((s.advance 10).readBits 6) = some 3 ∧ raised ((s.advance 16).readBits 1) = some .midFrameEof := by decide +kernel

/-- `deq1` (95_test_vectors.md section 2.4): `n = 2`, codes 7 and 3; `n = 15`, code 0. -/
theorem test_deq1 :
    deq1 .binary32 7 2 = f32 0x3F924925 ∧ deq1 .binary32 3 2 = NumVal.zero ∧ deq1 .binary32 0 15 = f32 0xBF7FFF00 := by decide +kernel

/-- Grouped codes (95_test_vectors.md section 2.6). -/
theorem test_demux : demux 3 31 = (1, 1, 0) ∧ demux 5 127 = (2, 0, 0) ∧ demux 9 1023 = (6, 5, 3) := by decide

/-- Table sets (95_test_vectors.md section 2.6). -/
theorem test_selectSet :
    let select := Config.default.selectSet
    select 44100 128 = 1 ∧ select 44100 64 = 0 ∧ select 44100 48 = 2 ∧ select 32000 48 = 3 ∧ select 48000 48 = 1 := by decide

/-- Class lookup: level counts and code widths by allocation code (95_test_vectors.md section 2.6). -/
theorem test_classOf :
    let q := fun set sb n => ((Config.default.classOf set sb n).levels, (Config.default.classOf set sb n).bits)
    q 1 0 1 = (3, 5) ∧ q 1 0 2 = (7, 3) ∧ q 1 0 15 = (65535, 16) ∧ q 1 3 2 = (5, 7) ∧ q 1 3 4 = (9, 10) ∧ q 1 11 7 = (65535, 16) ∧
      q 1 23 3 = (65535, 16) ∧ q 2 2 7 = (127, 7) := by decide

/-- Scale factors (95_test_vectors.md section 2.5). -/
theorem test_scf : scf .binary32 0 = f32 0x40000000 ∧ scf .binary32 61 = f32 0x35CB2FF5 ∧ scf .binary32 62 = f32 0x35A14518 := by decide +kernel

/-- Matrixing ROM (95_test_vectors.md section 2.7). -/
theorem test_nik :
    nik .binary32 0 1 = f32 0xBF3504F3 ∧ nik .binary32 1 0 = f32 0x3F2BEB4A ∧ nik .binary32 4 4 = f32 0xBF54DB31 ∧ nik .binary32 16 7 = NumVal.zero ∧
      nik .binary32 47 0 = f32 0xBF7FB10F ∧ nik .binary32 48 31 = f32 0xBF800000 ∧ nik .binary32 63 31 = f32 0x3F3DAEF9 := by decide +kernel

/-- The impulse `2/3` in subband 0 (95_test_vectors.md section 2.7). -/
theorem test_matrixing_impulse :
    let c := SynthChannel.reset.cursorStep.matrixing .binary32 (fun k => if k = 0 then f32 0x3F2AAAAB else NumVal.zero)
    c.voff = 960 ∧ c.read 960 = f32 0x3EF15BEF ∧ c.read 1023 = f32 0xBEFCE94C ∧ c.read 976 = NumVal.zero := by
  decide +kernel

/-- `pcm16` (46_pcm.md R220): a half, minus one, one and four thirds. -/
theorem test_pcm16 :
    let pcm := fun bits => pcm16 Config.default (f32 bits)
    pcm 0x3F000000 = 16384 ∧ pcm 0xBF800000 = -32768 ∧ pcm 0x3F800000 = 32767 ∧ pcm 0x3FAAAAAB = 32767 := by
  decide +kernel

/-- `00 40 00 80`: left 0.5, right -1.0 (46_pcm.md R221). -/
theorem test_slotBytes :
    let s := body .l1 2 32 .idle []
    let s := s.withWork { s.work with sout := (s.work.sout.set 0 (Bank.fill 32 (f32 0x3F000000))).set 1 (Bank.fill 32 (f32 0xBF800000)) }
    s.slotBytes.take 4 = [0x00, 0x40, 0x00, 0x80] := by decide +kernel

/-! ## Configurations other than the default (00_scope.md R6, 93_implementation_defined.md) -/

/-- The default, and each of the configurations below that the rules can run on. -/
theorem test_configWf :
    Config.default.wf = true ∧ { Config.default with crcPresentWhen := 1 }.wf = true ∧
      { Config.default with num := ⟨31, 15, 0, .nearestEven⟩ }.wf = true ∧ { Config.default with readMax := 15 }.wf = false := by
  decide +kernel
/-- `CRC_PRESENT_WHEN = 1`: `FF FF 40 C0` waits for a `CRC16`, `FF FE 40 C0` does not. -/
theorem test_crcPresentWhen_one :
    let start := State.startWith { Config.default with crcPresentWhen := 1 }
    (nextOf (step (start [0xFF, 0xFF, 0x40, 0xC0]))).fsm = .header ∧
      (nextOf (step (start [0xFF, 0xFE, 0x40, 0xC0]))).fsm = .layerDecode := by decide +kernel
/-- `LAYER_OF = (l1, l2, l3, reserved)`: code 3 raises, code 0 is Layer I. -/
theorem test_layerOf_reversed :
    let start := State.startWith { Config.default with layerOf := ⟨[some .l1, some .l2, some .l3, none], rfl⟩ }
    (nextOf (step (start [0xFF, 0xFF, 0x40, 0xC0]))).errCode = .invalidField ∧
      (nextOf (step (start [0xFF, 0xF9, 0x40, 0xC0]))).hdr.kind = .l1 := by decide +kernel
/-- `READ_MAX = 15`: the sixteen bits of a `CRC16` are refused, a read of fifteen is not. -/
theorem test_readMax :
    let s := { State.startWith { Config.default with readMax := 15 } [0xAB, 0xCD] with fsm := .header }
    refusedBy .readTooWide (step s) = true ∧ valueOf (s.readBits 16) = none ∧ valueOf (s.readBits 15) = some 0x55E6 := by
  decide +kernel
/-- `PCM_ROUND`: exact halves of both signs. -/
theorem test_pcmRound :
    let r := fun p : PcmRound => [p.apply 1 2, p.apply 3 2, p.apply (-1) 2, p.apply (-3) 2]
    r .halfUp = [1, 2, 0, -1] ∧ r .halfEven = [0, 2, 0, -2] ∧ r .halfAwayFromZero = [1, 2, -1, -2] := by decide
/-- A fixed-point `NUM` of 15 fraction bits: a third, and the first scale factors 2 and 1.5874. -/
theorem test_fixedPoint :
    let f := NumFormat.mk 31 15 0 .nearestEven
    f.ofRatio 1 3 = .finite false 10923 ∧ scf f 0 = .finite false 65536 ∧ scf f 1 = .finite false 52016 ∧
      f.mul (.finite false 10923) (.finite true 65536) = .finite true 21846 := by decide +kernel

/-! ## Every obligation with hypotheses has a case that meets them -/

theorem ran_next {o : Host.Outcome State Fault Refusal} (h : ran o = true) : ∃ t, o = .next t := by
  cases o with
  | next t => exact ⟨t, rfl⟩
  | fault _ => cases h
  | refused _ => cases h

/-- A candidate at the start of the input. -/
theorem atCandidate_start (rest : List Byte) (b : Byte) (hb : 0xF0#8 ≤ b)
    (h0 : (State.start (0xFF :: b :: rest)).input.read (State.start (0xFF :: b :: rest)).byteIndex = some 0xFF#8)
    (h1 : (State.start (0xFF :: b :: rest)).input.read ((State.start (0xFF :: b :: rest)).byteIndex + 1) = some b) : (State.start (0xFF :: b :: rest)).AtCandidate :=
  ⟨rfl, h0, b, h1, hb⟩

theorem witness_DecodeOfEncodeIsTheUnit : (Instr.l2Group 10 0x3FF).wf = true ∧ (Instr.padBits 0 0).wf = true := by decide
theorem witness_EncodeOfDecodeIsTheBits :
    decode (.padBits 0) [] = .ok (.padBits 0 0) ∧
      decode .header (List.replicate 32 true) = .ok (.frameL1 ⟨1, 1, 15, 3, 1, 1, 3, 3, 15⟩) := by decide +kernel
/-- The least and the greatest word of each row, and the words on both sides of the sync pattern. -/
theorem witness_MaskAndMatchSelectTheUnit :
    0xFFF60000 &&& 0xFFF60000 = 0xFFF60000 ∧ 0xFFFFFFFF &&& 0xFFF60000 = 0xFFF60000 ∧
    0xFFF40000 &&& 0xFFF60000 = 0xFFF40000 ∧ 0xFFFDFFFF &&& 0xFFF60000 = 0xFFF40000 ∧
    0xFFF20000 &&& 0xFFF60000 = 0xFFF20000 ∧ 0xFFFBFFFF &&& 0xFFF60000 = 0xFFF20000 ∧
    0xFFF00000 &&& 0xFFF60000 = 0xFFF00000 ∧ 0xFFF9FFFF &&& 0xFFF60000 = 0xFFF00000 ∧
    0xFFEFFFFF &&& 0xFFF00000 ≠ 0xFFF00000 ∧ 0 &&& 0xFFF00000 ≠ 0xFFF00000 := by decide

theorem witness_InputBitsAreMostSignificantFirst :
    let s := State.start [0xA5, 0xC3]
    s.input.read 0 = some 0xA5 ∧ s.input.read 1 = some 0xC3 ∧ s.bp = 8 * 0 ∧
      16 ≤ s.cfg.readMax ∧ valueOf (s.readBits 16) = some 0xA5C3 ∧ s.input.bit 0 = true ∧ s.input.bit 15 = true := by decide +kernel
/-- The request that ends at the end of the input, and the one that is one bit longer. -/
theorem witness_ReadBitsAnswersTheFieldOrRaises :
    let s := { State.start [0xA5, 0xC3] with bp := 9 }
    8 ≤ s.cfg.readMax ∧ (valueOf (s.readBits 7)).isSome = true ∧ 8 * s.input.size < s.bp + 8 ∧ raised (s.readBits 8) = some .midFrameEof ∧
      s.cfg.readMax < 17 := by decide +kernel

theorem witness_UnitRunsExactlyWhereSelected :
    let s := State.start [0x49]
    s.cfg.wf = true ∧ s.selected = some (Instr.skip 0x49).shape ∧ s.selected ≠ some (Instr.crc16 0).shape := by decide +kernel
theorem witness_StepRunsTheDecodedUnit :
    let s := body .l1 1 32 (.alloc ⟨0, 0⟩) [0x90]
    s.stage.isNone = true ∧ s.fetch = some (.l1Alloc 9) := by decide +kernel
/-- One bit short, in the first and in the last unit of a frame body, and for the `CRC16`. -/
theorem witness_OverrunningElementTakesMidFrameEof :
    let s := { body .l1 1 32 (.alloc ⟨0, 0⟩) [0x90] with bp := 5 }
    let u := { State.start [0xFF, 0xFA] with fsm := .header, bp := 1 }
    s.cfg.wf = true ∧ u.cfg.wf = true ∧ s.selected = some (Instr.l1Alloc 0).shape ∧ s.endBit < s.bp + 4 ∧ s.endBit = s.bp + 3 ∧
      u.selected = some (Instr.crc16 0).shape ∧ u.endBit < u.bp + 16 := by decide +kernel
theorem witness_OverrunningHeaderTakesMidFrameEof :
    (State.start [0xFF, 0xF0, 0xFF]).cfg.wf = true ∧ (State.start [0xFF, 0xF0, 0xFF]).AtCandidate ∧
      (State.start [0xFF, 0xF0, 0xFF]).endBit < 8 * (State.start [0xFF, 0xF0, 0xFF]).byteIndex + 32 :=
  ⟨by decide +kernel, atCandidate_start _ 0xF0 (by decide) (by decide +kernel) (by decide +kernel), by decide +kernel⟩

/-- The input of one header, whole, at a candidate: what the statements on the frame units ask of the state. -/
theorem witness_header : let s := State.start [0xFF, 0xF0, 0x00, 0x00]
    s.cfg.wf = true ∧ s.AtCandidate ∧ 8 * s.byteIndex + 32 ≤ s.endBit :=
  ⟨by decide +kernel, atCandidate_start _ 0xF0 (by decide) (by decide +kernel) (by decide +kernel), by decide +kernel⟩
/-- The two invalid fields, each alone, and fields next to them with and without a `CRC16`. -/
theorem witness_headerFields :
    (HdrFields.mk 1 1 15 2 0 0 3 0 0).br = 15#4 ∧ (HdrFields.mk 1 1 14 3 0 0 3 0 0).fs = 3#2 ∧
    (let h := HdrFields.mk 1 0 14 2 0 0 3 0 0; h.br ≠ 15#4 ∧ h.fs ≠ 3#2 ∧ h.prot = Config.default.crcPresentWhen) ∧
    (let h := HdrFields.mk 1 1 0 0 0 0 1 3 0; h.br ≠ 15#4 ∧ h.fs ≠ 3#2 ∧ h.prot ≠ Config.default.crcPresentWhen) := by decide
theorem witness_InvalidHeaderFieldTakesInvalidField :
    ∃ (h : HdrFields) (s : State), s.cfg.wf = true ∧ s.AtCandidate ∧ 8 * s.byteIndex + 32 ≤ s.endBit ∧ (h.br = 15#4 ∨ h.fs = 3#2) :=
  ⟨⟨1, 1, 15, 2, 0, 0, 3, 0, 0⟩, _, witness_header.1, witness_header.2.1, witness_header.2.2, .inl rfl⟩
theorem witness_FrameL1EntersTheLayer1Body :
    ∃ (h : HdrFields) (s : State), s.cfg.wf = true ∧ s.AtCandidate ∧ 8 * s.byteIndex + 32 ≤ s.endBit ∧ h.br ≠ 15#4 ∧ h.fs ≠ 3#2 ∧
      s.cfg.layerKind 3#2 = some .l1 ∧ h.prot ≠ s.cfg.crcPresentWhen :=
  ⟨⟨1, 1, 0, 0, 0, 0, 1, 3, 0⟩, _, witness_header.1, witness_header.2.1, witness_header.2.2, by decide, by decide, rfl, by decide⟩
theorem witness_FrameL2EntersTheLayer2Body :
    ∃ (h : HdrFields) (s : State), s.cfg.wf = true ∧ s.AtCandidate ∧ 8 * s.byteIndex + 32 ≤ s.endBit ∧ h.br ≠ 15#4 ∧ h.fs ≠ 3#2 ∧
      s.cfg.layerKind 2#2 = some .l2 ∧ h.prot = s.cfg.crcPresentWhen :=
  ⟨⟨1, 0, 14, 2, 0, 0, 3, 0, 0⟩, _, witness_header.1, witness_header.2.1, witness_header.2.2, by decide, by decide, rfl, by decide⟩
theorem witness_FrameL3IsTheStub :
    ∃ (h : HdrFields) (s : State), s.cfg.wf = true ∧ s.AtCandidate ∧ 8 * s.byteIndex + 32 ≤ s.endBit ∧ h.br ≠ 15#4 ∧ h.fs ≠ 3#2 ∧
      s.cfg.layerKind 1#2 = some .l3 :=
  ⟨⟨1, 1, 9, 0, 0, 0, 0, 0, 0⟩, _, witness_header.1, witness_header.2.1, witness_header.2.2, by decide, by decide, rfl⟩
theorem witness_FrameRsvTakesInvalidField :
    ∃ s : State, s.cfg.wf = true ∧ s.AtCandidate ∧ 8 * s.byteIndex + 32 ≤ s.endBit ∧ s.cfg.layerKind 0#2 = none :=
  ⟨_, witness_header.1, witness_header.2.1, witness_header.2.2, rfl⟩
/-- A byte below the candidate's second byte, and the marker as last byte of the input. -/
theorem witness_SkipMovesTheCursorAlone :
    let s := State.start [0xFF, 0xEF]
    let u := State.start [0xFF]
    s.fsm = .seekSync ∧ s.input.read s.byteIndex = some 0xFF ∧ s.input.read (s.byteIndex + 1) = some 0xEF ∧
      ¬ (0xFF#8 = 0xFF#8 ∧ 0xF0#8 ≤ 0xEF#8) ∧ u.fsm = .seekSync ∧ u.input.read u.byteIndex = some 0xFF ∧
      u.input.read (u.byteIndex + 1) = none := by decide +kernel
/-- The `CRC16` that ends the input, behind a stub and behind a supported header. -/
theorem witness_Crc16IsDroppedAndTheFrameGoesOn :
    let s := { State.start [0xAB, 0xCD] with fsm := .header }
    s.cfg.wf = true ∧ s.fsm = .header ∧ s.bp + 16 ≤ s.endBit ∧ s.hdr.kind ≠ .l3 ∧
      { s with hdr := { s.hdr with kind := .l3 } }.hdr.kind = .l3 := by decide +kernel

/-- Behind the `SKIP` of a marker byte whose successor was tested, `PULLED` counts the successor; behind a frame that ends in a
marker byte it does not, and at the end of the input there is none (40_bit_reader.md R113, by hand). -/
theorem test_pulled_after_marker : (nextOf (step (State.start [0xFF, 0xEF]))).pulled = 2 ∧
    (nextOf (step (State.start [0xFF]))).pulled = 1 ∧
    (nextOf (step { State.start [0xFF, 0xEF] with fsm := .align, bp := 8 })).pulled = 1 := by decide +kernel
/-- Reset in the middle of a run keeps the parameters and nothing else (70_reset_and_hazards.md R281, by hand). -/
theorem test_applyReset :
    let s := (State.startWith { Config.default with crcPresentWhen := 1 } [0]).raise .midFrameEof
    s.applyReset.cfg.crcPresentWhen = 1 ∧ s.applyReset.errCode = .none ∧ s.applyReset.fsm = .seekSync ∧
      s.applyReset.input.size = 0 := by decide +kernel

/-- Independent, last independent, first joint and last subband. -/
theorem witness_L1AllocWritesTheCode :
    let s := fun c => body .l1 2 4 (.alloc c) [0x90]
    ∀ c ∈ [SubCh.mk 0 0, SubCh.mk 3 1, SubCh.mk 4 0, SubCh.mk 31 0],
      (s c).cfg.wf = true ∧ (s c).fsm = .layerDecode ∧ (s c).hdr.kind = .l1 ∧ (s c).pos = .alloc c ∧ ((s c).latch.nch = 1 ∨ (s c).latch.nch = 2) ∧
        (s c).bp + 4 ≤ (s c).endBit := by decide +kernel
theorem witness_L1ScfWritesTheIndexOrFaults :
    let s := body .l1 1 32 (.scf ⟨31, 0⟩ []) [0xF8]
    s.cfg.wf = true ∧ s.fsm = .layerDecode ∧ s.hdr.kind = .l1 ∧ s.pos = .scf ⟨31, 0⟩ [] ∧ s.bp + 6 ≤ s.endBit ∧ (62#6 ≠ 63#6) := by decide +kernel
/-- Samples of two and of sixteen bits, in the first and the last time slot. -/
theorem witness_L1SampleWritesTheScaledFraction :
    let s := coded (body .l1 1 32 (.sample 0 ⟨0, 0⟩ 0) [0x80]) 0 1
    let u := coded (body .l1 2 4 (.sample 11 ⟨31, 0⟩ 0) [0x80, 0x01]) 31 15
    s.cfg.wf = true ∧ s.fsm = .layerDecode ∧ s.hdr.kind = .l1 ∧ s.pos = .sample 0 ⟨0, 0⟩ 0 ∧ (s.latch.nch = 1 ∨ s.latch.nch = 2) ∧
      s.bp + ((s.work.allocAt 0 0).toNat + 1) ≤ s.endBit ∧
    u.cfg.wf = true ∧ u.fsm = .layerDecode ∧ u.hdr.kind = .l1 ∧ u.pos = .sample 11 ⟨31, 0⟩ 0 ∧ (u.latch.nch = 1 ∨ u.latch.nch = 2) ∧
      u.bp + ((u.work.allocAt 0 31).toNat + 1) ≤ u.endBit := by decide +kernel
theorem witness_Layer1AllocationPartLength :
    let s := body .l1 2 16 (.alloc ⟨0, 0⟩) []
    s.hdr.kind = .l1 ∧ (s.latch.nch = 1 ∨ s.latch.nch = 2) ∧ s.latch.nch * min s.hdr.bound 32 + (32 - min s.hdr.bound 32) = 48 := by
  decide +kernel
/-- The widest and the narrowest code. -/
theorem witness_Deq1RoundsOnlyFactorAndProduct :
    let f := NumFormat.binary32
    (15 ≤ f.precision ∧ 15 ≤ f.scale ∧ 2 ^ f.scale ≤ f.largest ∧ 65535 < 2 ^ (15 + 1)) ∧
      (1 ≤ f.precision ∧ 1 ≤ f.scale ∧ 3 < 2 ^ (1 + 1)) := by decide +kernel
/-- The formats of the scale-factor clause: the default and a fixed-point one, a number on each side of the real value. -/
theorem witness_scaleFactorFormats :
    NumFormat.binary32.wf = true ∧ (NumFormat.mk 31 15 0 .nearestEven).wf = true ∧
      (let f := NumFormat.mk 31 15 0 .nearestEven
       f.isNumber (.finite false 52015) = true ∧ 52015 ^ 3 * 2 ^ 1 ≤ 2 ^ (3 + 3 * f.scale) ∧
         f.isNumber (.finite false 52016) = true ∧ 2 ^ (3 + 3 * f.scale) ≤ 52016 ^ 3 * 2 ^ 1) := by decide +kernel

/-- Codes of four, three and two bits: the first and last subbands of each width. -/
theorem witness_L2AllocWritesTheCode :
    let s := fun c => body .l2 2 4 (.alloc c) [0x90]
    ∀ c ∈ [SubCh.mk 0 0, SubCh.mk 3 1, SubCh.mk 10 0, SubCh.mk 11 0, SubCh.mk 23 0, SubCh.mk 29 0],
      (s c).cfg.wf = true ∧ (s c).fsm = .layerDecode ∧ (s c).hdr.kind = .l2 ∧ (s c).pos = .alloc c ∧ ((s c).latch.nch = 1 ∨ (s c).latch.nch = 2) ∧
        (s c).bp + (s c).cfg.nbal (s c).work.l2Set c.sb ≤ (s c).endBit := by decide +kernel
theorem witness_L2ScfsiWritesTheCode :
    let s := coded (body .l2 1 32 (.scfsi ⟨0, 0⟩) [0xC0]) 0 1
    s.cfg.wf = true ∧ s.fsm = .layerDecode ∧ s.hdr.kind = .l2 ∧ s.pos = .scfsi ⟨0, 0⟩ ∧ s.bp + 2 ≤ s.endBit := by decide +kernel
/-- The first of two elements, the last of two, and the last of two with a 63 among them. -/
theorem witness_L2ScfWritesThePatternOrFaults :
    let s := fun got => (fun u => u.withWork (u.work.setScfsi 0 0 3)) (coded (body .l2 1 32 (.scf ⟨0, 0⟩ got) [0x18]) 0 1)
    (∀ got ∈ [[], [3#6], [63#6]], (s got).cfg.wf = true ∧ (s got).fsm = .layerDecode ∧ (s got).hdr.kind = .l2 ∧ (s got).pos = .scf ⟨0, 0⟩ got ∧
      (s got).bp + 6 ≤ (s got).endBit) ∧
    ([] ++ [6#6]).length < scfsiCount ((s []).work.scfsiAt 0 0) ∧
    (scfsiCount ((s [3]).work.scfsiAt 0 0) ≤ ([3#6] ++ [6#6]).length ∧ 63#6 ∉ [3#6] ++ [6#6]) ∧
    (scfsiCount ((s [63]).work.scfsiAt 0 0) ≤ ([63#6] ++ [6#6]).length ∧ 63#6 ∈ [63#6] ++ [6#6]) := by decide +kernel
/-- The first and the last element of a triple. -/
theorem witness_L2SampleWritesTheScaledFraction :
    let s := fun k => coded (body .l2 1 32 (.sample 11 ⟨0, 0⟩ k) [0xC0]) 0 2
    ∀ k ∈ [(0 : Fin 3), 2], (s k).cfg.wf = true ∧ (s k).fsm = .layerDecode ∧ (s k).hdr.kind = .l2 ∧ (s k).pos = .sample 11 ⟨0, 0⟩ k ∧
      ((s k).latch.nch = 1 ∨ (s k).latch.nch = 2) ∧
      (let q := (s k).cfg.classOf (s k).work.l2Set 0 ((s k).work.allocAt 0 0)
       q.grouped = false ∧ (s k).bp + q.bits ≤ (s k).endBit) := by decide +kernel
theorem witness_L2GroupWritesThreeScaledFractions :
    let s := coded (body .l2 1 32 (.sample 11 ⟨0, 0⟩ 0) [0x28]) 0 1
    s.cfg.wf = true ∧ s.fsm = .layerDecode ∧ s.hdr.kind = .l2 ∧ s.pos = .sample 11 ⟨0, 0⟩ 0 ∧ (s.latch.nch = 1 ∨ s.latch.nch = 2) ∧
      (let q := s.cfg.classOf s.work.l2Set 0 (s.work.allocAt 0 0)
       q.grouped = true ∧ s.bp + q.bits ≤ s.endBit) := by decide +kernel

/-- The requantization clause: the least and the greatest threshold, codes on both sides of it and the greatest code. -/
theorem witness_requantization :
    let f := NumFormat.binary32
    ∀ i ∈ [(0 : Fin 17), 16], let q := Config.default.quantClasses.get i
      ∃ j ≤ 15, q.T = 2 ^ j ∧ j ≤ f.precision ∧ j ≤ f.scale ∧ 2 ^ f.scale ≤ f.largest ∧ q.T - 1 < 2 * q.T ∧ q.levels - 1 < 2 * q.T := by
  decide +kernel

/-- A cursor at a byte boundary and one right behind it. -/
theorem witness_PadBitsAlignAndCountTheFrame :
    let s := fun b => { State.start [0, 0] with fsm := .align, bp := b }
    ∀ b ∈ [16, 9], 7 ≤ (s b).cfg.readMax ∧ (s b).fsm = .align ∧ (s b).bp ≤ (s b).endBit := by decide +kernel
theorem witness_EndOfInputWhileSeekingEndsCleanly :
    let s := { State.start [0] with bp := 8 }
    s.fsm = .seekSync ∧ s.input.size ≤ s.byteIndex ∧ { s with fsm := .done }.fsm = .done := by decide +kernel

theorem witness_CursorDecreasesBySixtyFour : SynthChannel.reset.voff = 0 := by decide +kernel
/-- The entry before the cursor and the one behind the sixty-fourth are outside the vector, the cursor at the wrap. -/
theorem witness_MatrixingWritesSixtyFourDotProducts :
    let c := { SynthChannel.reset with voff := 960 }
    (∀ i < 64, 959 % 1024 ≠ (c.voff.toNat + i) % 1024) ∧ (∀ i < 64, 1024 % 1024 ≠ (c.voff.toNat + i) % 1024) := by
  decide +kernel
theorem witness_HistoryHoldsTheLastSixteenVectors (x : Nat → NumVal) :
    15 < 16 ∧ 63 < 64 ∧ (List.replicate 16 x)[15]? = some x := by simp
theorem witness_SilentSlotIsSilentForEveryWindow :
    State.reset.cfg.num.wf = true ∧ State.reset.out.wf = true ∧ (∀ ch sb, State.reset.work.sampleAt ch sb 35 = NumVal.zero) ∧
      (∀ ch a, (State.reset.synth.get ch).v.get a = NumVal.zero) := by
  refine ⟨by decide +kernel, by decide +kernel, by decide +kernel, ?_⟩
  intro ch a
  show ((Bank.fill 2 SynthChannel.reset).get ch).v.get a = NumVal.zero
  rw [Bank.get_fill]
  exact Bank.get_fill _ _
theorem witness_ChannelsOfASlotDoNotInteract : (1 : Fin 2) ≠ 0 := by decide
theorem witness_EmissionInterleavesLittleEndianPairs :
    let s := { body .l1 2 32 .idle [] with nsamp := 32, out := ⟨128, []⟩ }
    s.out.wf = true ∧ (s.latch.nch = 1 ∨ s.latch.nch = 2) ∧ s.out.size = 2 * s.latch.nch * s.nsamp := by decide +kernel
/-- The greatest number, the least one and the smallest above zero; an exact half and the two roundings. -/
theorem witness_PcmIsTheClampedRoundedSample :
    let f := NumFormat.binary32
    Config.default.wf = true ∧ { Config.default with pcmRound := .halfEven }.wf = true ∧
      [0x7F7FFFFF, 0xFF7FFFFF, 1].all (fun b => f.isNumber (f32 b)) = true ∧ 2 * |(1 : Int) - (2 : Nat) * PcmRound.halfEven.apply 1 2| = 2 := by
  decide +kernel
/-- An inner slot and the last slot of a frame, of one and of two channels. -/
theorem witness_SynthStepRunsOneSlot :
    let s := fun k n t => { body k n 32 (.slot t) [] with fsm := .synth }
    ∀ x ∈ [(LayerKind.l1, 1, (10 : Fin 36)), (.l1, 2, 11), (.l2, 2, 34), (.l2, 1, 35)],
      (s x.1 x.2.1 x.2.2).fsm = .synth ∧ (s x.1 x.2.1 x.2.2).pos = .slot x.2.2 ∧
        ((s x.1 x.2.1 x.2.2).latch.nch = 1 ∨ (s x.1 x.2.1 x.2.2).latch.nch = 2) := by decide +kernel
theorem witness_FrameContributesItsSamples :
    let s := fun k => { body k 1 32 (.slot 0) [] with fsm := .synth }
    (s .l1).fsm = .synth ∧ (s .l1).pos = .slot 0 ∧ (s .l2).fsm = .synth ∧ (s .l2).pos = .slot 0 := by decide +kernel

/-- Every rounding of a third, and a number each statement can compare it with. -/
theorem witness_RoundingAnswersANearestNumber :
    let f := fun r => NumFormat.mk 24 149 253 r
    (∀ r ∈ [Rounding.nearestEven, .nearestAway, .towardZero, .upward, .downward], 1 ≤ (f r).precision ∧
      ((f r).round false 1 3).isFinite = true ∧ ((f r).round true 1 3).isFinite = true ∧ 1 ≤ 3 * (f r).largest) ∧
    (f .upward).isNumber (f32 0x7F7FFFFF) = true ∧ Rounding.towardZero.keepsLargest true = true := by decide +kernel
/-- Three numbers; and two values of one sign, a third below a half, with their answers. -/
theorem witness_RoundingKeepsEveryNumber :
    let f := NumFormat.binary32
    [0x80000000, 1, 0x7F7FFFFF].all (fun b => f.isNumber (f32 b)) = true ∧
      (1 ≤ f.precision ∧ 1 * 2 ≤ 1 * 3 ∧ f.ofRatio 1 3 = f32 0x3EAAAAAB ∧ f.ofRatio 1 2 = f32 0x3F000000) := by decide +kernel

/-! A consistent state for every value of `FSM`, each with a step: what the statements on every step ask for. -/

theorem witness_seekSync :
    let s := State.start [0xFF, 0xFF, 0x40, 0xC0]
    Consistent s ∧ s.fsm = .seekSync ∧ ¬ s.Terminal ∧ ∃ t, step s = .next t :=
  ⟨consistentCheck_sound (by decide +kernel), rfl, by simp [State.Terminal, State.start, State.startWith, State.reset], ran_next (by decide +kernel)⟩
theorem witness_headerState :
    let s := { body .l1 1 32 .idle [0xAB, 0xCD] with fsm := .header, latch := ⟨false, 0, 0⟩ }
    Consistent s ∧ s.fsm = .header ∧ ∃ t, step s = .next t :=
  ⟨consistentCheck_sound (by decide +kernel), rfl, ran_next (by decide +kernel)⟩
/-- In a body, with a step that stays in it and one that ends it. -/
theorem witness_ElementsAreReadInTheOrderOfTheFormat :
    let s := body .l1 1 32 (.alloc ⟨0, 0⟩) [0x90]
    let u := coded (body .l1 1 32 (.sample 11 ⟨31, 0⟩ 0) [0x80]) 31 1
    (Consistent s ∧ s.fsm = .layerDecode ∧ (∃ t, step s = .next t) ∧ (nextOf (step s)).fsm = .layerDecode) ∧
      (Consistent u ∧ u.fsm = .layerDecode ∧ (∃ t, step u = .next t) ∧ (nextOf (step u)).fsm = .synth) :=
  ⟨⟨consistentCheck_sound (by decide +kernel), rfl, ran_next (by decide +kernel), by decide +kernel⟩,
    ⟨consistentCheck_sound (by decide +kernel), rfl, ran_next (by decide +kernel), by decide +kernel⟩⟩
theorem witness_synthState :
    let s := { body .l1 1 32 (.slot 11) [0] with fsm := .synth, bp := 8, nsamp := 352, out := ⟨704, []⟩ }
    Consistent s ∧ s.fsm = .synth ∧ s.out.wf = true ∧ ∃ t, step s = .next t :=
  ⟨consistentCheck_sound (by decide +kernel), rfl, by decide +kernel, ran_next (by decide +kernel)⟩
theorem witness_alignState :
    let s := { body .l1 1 32 .idle [0] with fsm := .align, bp := 3, nsamp := 384, out := ⟨768, []⟩ }
    Consistent s ∧ s.fsm = .align ∧ (nextOf (step s)).fsm = .seekSync ∧ ∃ t, step s = .next t :=
  ⟨consistentCheck_sound (by decide +kernel), rfl, by decide +kernel, ran_next (by decide +kernel)⟩
theorem witness_doneState :
    let s := { body .l1 1 32 .idle [0] with fsm := .done, bp := 8, nsamp := 384, frames := 1, out := ⟨768, []⟩ }
    Consistent s ∧ s.Terminal ∧ s.result = .present ⟨⟨768, []⟩, 44100, false, 384⟩ ∧ ∃ t, step s = .next t :=
  ⟨consistentCheck_sound (by decide +kernel), .inl rfl, by decide +kernel, ran_next (by decide +kernel)⟩
theorem witness_errorState :
    let s := (State.start [0xFF]).raise .midFrameEof
    Consistent s ∧ s.Terminal ∧ s.result = .error 1 ∧ ∃ t, step s = .next t :=
  ⟨consistentCheck_sound (by decide +kernel), .inr rfl, by decide +kernel, ran_next (by decide +kernel)⟩

/-- Before and behind the `SKIP` of a marker byte with a successor, and at one that ends the input. -/
theorem witness_CursorNeverGoesBack :
    let s := State.start [0xFF, 0xEF]
    let t := { State.start [0xFF, 0xEF] with bp := 8, ahead := true }
    let u := State.start [0xFF]
    (Consistent s ∧ ran (step s) = true ∧ (nextOf (step s)).bp = 8 * (s.byteIndex + 1) ∧ (nextOf (step s)).ahead = true) ∧
      (Consistent t ∧ ran (step t) = true ∧ t.pulled = 2 ∧ (nextOf (step t)).pulled = 2) ∧
      (Consistent u ∧ ran (step u) = true ∧ (nextOf (step u)).ahead = false) :=
  ⟨⟨consistentCheck_sound (by decide +kernel), by decide +kernel⟩, ⟨consistentCheck_sound (by decide +kernel), by decide +kernel⟩,
    ⟨consistentCheck_sound (by decide +kernel), by decide +kernel⟩⟩
/-- A state in the middle of a run with well-formed parameters that are not the defaults. -/
theorem witness_EveryRunStartsConsistent :
    let s := { body .l1 1 32 (.alloc ⟨0, 0⟩) [0x90] with cfg := { Config.default with pcmRound := .halfEven } }
    s.cfg.wf = true ∧ s.cfg ≠ Config.default ∧ s.fsm = .layerDecode := by decide +kernel

/-- The latch is not set and is set by the step; and it is set already. -/
theorem witness_LatchIsWrittenOnce :
    let s := State.start [0xFF, 0xFF, 0x40, 0xC0]
    ran (step s) = true ∧ (nextOf (step s)).latch ≠ s.latch ∧ (body .l1 1 32 (.alloc ⟨0, 0⟩) [0x90]).latch.latched = true := by
  decide +kernel
/-- A step that writes the code. -/
theorem witness_ErrorCodeIsWrittenOnce :
    let s := State.start [0xFF, 0xFB]
    Consistent s ∧ ran (step s) = true ∧ (nextOf (step s)).errCode ≠ s.errCode :=
  ⟨consistentCheck_sound (by decide +kernel), by decide +kernel, by decide +kernel⟩
theorem witness_HistoryChangesOnlyInSynthesis :
    let s := body .l1 1 32 (.alloc ⟨0, 0⟩) [0x90]
    ran (step s) = true ∧ s.fsm ≠ .synth ∧ s.latch.nch ≠ 2 := by decide +kernel
theorem witness_StepDoesNotSeeThePrefix :
    ShiftedBy 1 (State.start [0x49]) { State.start [0x00, 0x49] with bp := 8 } ∧ ∃ t, step (State.start [0x49]) = .next t :=
  ⟨⟨by decide +kernel, fun p => by
      rcases p with _ | p
      · decide +kernel
      · simp [State.start, State.startWith, Memory.read, Memory.ofBytes, Memory.appendAll, Memory.append, Memory.empty], rfl, rfl⟩,
    ran_next (by decide +kernel)⟩
/-- A prefix whose last byte is the marker, in front of a stream that does not begin with `F0` or above. -/
theorem witness_GarbagePrefixDoesNotChangeTheDecoding :
    (∀ p < 2, ∀ b0 ∈ ([0x49, 0xFF] ++ [0x00, 0x01] : List Byte)[p]?, ∀ b1 ∈ ([0x49, 0xFF] ++ [0x00, 0x01] : List Byte)[p + 1]?,
      isCandidate b0 b1 = false) ∧
    ∃ t, Sys2Proof.core.run 1 (State.start [0x00, 0x01]) = .next t := by
  refine ⟨by decide, ?_⟩
  have h : step (State.start [0x00, 0x01]) = .next (nextOf (step (State.start [0x00, 0x01]))) := by
    obtain ⟨t, ht⟩ := ran_next (o := step (State.start [0x00, 0x01])) (by decide +kernel)
    rw [ht]; rfl
  exact ⟨_, h⟩

end Sys2Proof.Tests
end

section
/-! The order in which input bits are consumed (20_memory.md R50): what a `ReadBits` that answers has read, and the big-endian
value of two bytes in a row. -/

namespace Sys2Proof.Machine

/-- `ReadBits(n)` answers exactly when its width is allowed and it stays inside the input. -/
theorem State.readBits_eq_next {s : State} {n v : Nat} {t : State} :
    s.readBits n = .next (v, t) ↔
      n ≤ s.cfg.readMax ∧ s.bp + n ≤ s.endBit ∧ v = bitsToNat (s.input.bits s.bp n) ∧ t = s.advance n := by
  obtain ⟨hwide, hrefused⟩ | ⟨_, hover, hfault⟩ | ⟨hwidth, hinside, hnext⟩ := s.readBits_cases n
  · rw [hrefused]; simp [hwide]
  · rw [hfault]; simp [hover]
  · rw [hnext]; simp [hwidth, hinside, eq_comm]

/-- The `i`-th bit consumed is bit `n - 1 - i` of the field. -/
theorem Memory.testBit_bits_rev (m : Memory) (b : Nat) {n i : Nat} (h : i < n) :
    (bitsToNat (m.bits b n)).testBit (n - 1 - i) = m.bit (b + i) := by
  rw [Memory.testBit_bits, if_pos (by omega), show n - 1 - (n - 1 - i) = i by omega]

/-- Sixteen stream bits on a byte boundary spell the two bytes big-endian. -/
theorem Memory.bitsToNat_two_bytes {m : Memory} {p : Nat} {b0 b1 : Byte} (h0 : m.read p = some b0)
    (h1 : m.read (p + 1) = some b1) : bitsToNat (m.bits (8 * p) 16) = 256 * b0.toNat + b1.toNat := by
  have hsplit : m.bits (8 * p) 16 = m.bits (8 * p) 8 ++ m.bits (8 * (p + 1)) 8 := m.bits_add (8 * p) 8 8
  rw [hsplit, bitsToNat_append, Memory.bitsToNat_byte h0, Memory.bitsToNat_byte h1, Memory.bits_length]
  omega

theorem Memory.lt_size_of_read {m : Memory} {p : Nat} {b : Byte} (h : m.read p = some b) : p < m.size :=
  (m.read_isSome_iff p).mp (by rw [h]; rfl)

/-- Settles O5: the first clause is `Memory.bit_eq`; the others read the answer of `ReadBits` as the number its bits spell. -/
theorem inputBitsAreMostSignificantFirst : Obligations.InputBitsAreMostSignificantFirst := by
  refine fun s => ⟨fun p byte k hread hk => Memory.bit_eq hread k hk, ?fieldBits, ?fieldBound, ?bigEndian⟩
  case fieldBits =>
    intro n v t hnext i hi
    obtain ⟨_, _, rfl, _⟩ := State.readBits_eq_next.mp hnext
    exact s.input.testBit_bits_rev s.bp hi
  case fieldBound =>
    intro n v t hnext
    obtain ⟨_, _, rfl, _⟩ := State.readBits_eq_next.mp hnext
    simpa using bitsToNat_lt (s.input.bits s.bp n)
  case bigEndian =>
    intro p b0 b1 hmax h0 h1 hbp
    have hinside : s.bp + 16 ≤ s.endBit := by
      have := Memory.lt_size_of_read h1
      unfold State.endBit
      omega
    refine State.readBits_eq_next.mpr ⟨hmax, hinside, ?_, ?_⟩
    · rw [hbp, Memory.bitsToNat_two_bytes h0 h1]
    · rw [State.advance, hbp]

end Sys2Proof.Machine
end

section
/-! The scale-factor select code (30_encoding.md R89, 44_layer2.md R177): for each of its four values, how many elements are read
and which of them the three indices take. The elements read are any list, so that an equation serves a list of any length. -/

namespace Sys2Proof.Machine

theorem scfsiCount_allDistinct : scfsiCount 0 = 3 := rfl
theorem scfsiCount_firstTwoShared : scfsiCount 1 = 2 := rfl
theorem scfsiCount_allShared : scfsiCount 2 = 1 := rfl
theorem scfsiCount_lastTwoShared : scfsiCount 3 = 2 := rfl

variable (got : List (BitVec 6))

theorem scfsiPattern_allDistinct : scfsiPattern 0 got = (got.getD 0 0, got.getD 1 0, got.getD 2 0) := rfl
theorem scfsiPattern_firstTwoShared : scfsiPattern 1 got = (got.getD 0 0, got.getD 0 0, got.getD 1 0) := rfl
theorem scfsiPattern_allShared : scfsiPattern 2 got = (got.getD 0 0, got.getD 0 0, got.getD 0 0) := rfl
theorem scfsiPattern_lastTwoShared : scfsiPattern 3 got = (got.getD 0 0, got.getD 1 0, got.getD 1 0) := rfl

/-- Settles O27: one count and one pattern equation for each select code, at the list of exactly the elements the code reads. -/
theorem scfsiPatternSharesTheElements : Obligations.ScfsiPatternSharesTheElements := fun a b c =>
  ⟨⟨scfsiCount_allDistinct, scfsiPattern_allDistinct [a, b, c]⟩,
    ⟨scfsiCount_firstTwoShared, scfsiPattern_firstTwoShared [a, b]⟩,
    ⟨scfsiCount_allShared, scfsiPattern_allShared [a]⟩,
    ⟨scfsiCount_lastTwoShared, scfsiPattern_lastTwoShared [a, b]⟩⟩

end Sys2Proof.Machine
end

section
/-! The end of a frame (40_bit_reader.md R114, 47_orchestrator.md R238): in `ALIGN` the position selects `PADBITS` of the width that
reaches the next byte boundary, and every such unit leads to the same state, whatever bits it drops. -/

namespace Sys2Proof.Machine

variable {s : State}

@[refl] theorem SameBytes.refl (m : Memory) : SameBytes m m := ⟨rfl, fun _ => rfl⟩

theorem State.selected_of_align (h : s.fsm = .align) : s.selected = some (.padBits s.padWidth) := by
  simp only [State.selected, h]

theorem State.padWidth_le (s : State) : s.padWidth ≤ 7 := by
  simp only [State.padWidth]; omega

theorem State.padWidth_aligns (s : State) : (s.bp + s.padWidth) % 8 = 0 := by
  simp only [State.padWidth]; omega

theorem Instr.eq_padBits_of_shape {i : Instr} {w : Nat} (h : i.shape = .padBits w) : ∃ z, i = .padBits w z := by
  cases i with
  | padBits v z => cases h; exact ⟨z, rfl⟩
  | _ => cases h

/-- Where the position selects a unit of an allowed width, the step is the meaning of a unit of that shape, in any configuration. -/
theorem step_eq_exec_of_selected {sh : UnitShape} (h : s.selected = some sh) (hw : sh.widthOk = true) :
    ∃ i : Instr, i.shape = sh ∧ step s = exec i s := by
  obtain ⟨i, hfetch, hshape⟩ := State.fetch_isSome h hw
  exact ⟨i, hshape, step_of_fetch (State.stage_eq_none h) hfetch⟩

/-- Padding inside the input cannot raise, as the input ends on a byte boundary. -/
theorem unitEffect_padBits (z : BitVec 7) (h : s.bp ≤ s.endBit) :
    unitEffect (.padBits s.padWidth z) s = (s.advance s.padWidth).completeFrame :=
  State.consume_of_le State.completeFrame (State.padWidth_fits h)

theorem exec_padBits_of_align (z : BitVec 7) (hmax : 7 ≤ s.cfg.readMax) (halign : s.fsm = .align)
    (hinside : s.bp ≤ s.endBit) :
    exec (.padBits s.padWidth z) s = .next (s.advance s.padWidth).completeFrame :=
  exec_eq_next.mpr ⟨State.selected_of_align halign, s.padWidth_le.trans hmax, (unitEffect_padBits z hinside).symm⟩

/-- Settles O31: the meaning and the step both run a `PADBITS` of the selected width, and the state it leads to does not depend
on the bits it drops. -/
theorem padBitsAlignAndCountTheFrame : Obligations.PadBitsAlignAndCountTheFrame := by
  intro z s hmax halign hinside
  have hexec := fun dropped => exec_padBits_of_align dropped hmax halign hinside
  have hstep : step s = .next (s.advance s.padWidth).completeFrame := by
    obtain ⟨i, hshape, hrun⟩ := step_eq_exec_of_selected (State.selected_of_align halign) (UnitShape.widthOk_padBits s)
    obtain ⟨dropped, rfl⟩ := Instr.eq_padBits_of_shape hshape
    rw [hrun, hexec dropped]
  exact ⟨_, hexec z, hstep, rfl, s.padWidth_aligns, State.padWidth_fits hinside, rfl, rfl, rfl, rfl, rfl, rfl, rfl, rfl, rfl, rfl,
    SameBytes.refl _, SameBytes.refl _⟩

end Sys2Proof.Machine
end

section
/-! Decoding and encoding are inverse (30_encoding.md R82, R86, R90): the payload of a well-formed unit fits in the width of its shape
and is the number that its shape decodes back to the unit. -/

namespace Sys2Proof.Machine

theorem Instr.wf_parts {i : Instr} (h : i.wf = true) : i.shape.widthOk = true ∧ i.fits = true := by
  simpa [Instr.wf] using h

theorem Instr.payload_lt {i : Instr} (h : i.fits = true) : i.payload < 2 ^ i.shape.width := by
  cases i with
  | skip v | crc16 v | l1Alloc v | l1Scf v | l2Scfsi v | l2Scf v => exact v.isLt
  | frameL1 f | frameL2 f | frameL3 f | frameRsv f => exact headerWord_lt _ f
  | l1Sample | l2Alloc | l2Sample | l2Group | padBits => exact of_decide_eq_true h

theorem decodeValue_payload {i : Instr} (h : i.shape.widthOk = true) : decodeValue i.shape i.payload = .ok i := by
  unfold decodeValue
  rw [if_neg (by simp [h])]
  cases i with
  | frameL1 f => exact decodeHeader_headerWord 3#2 f
  | frameL2 f => exact decodeHeader_headerWord 2#2 f
  | frameL3 f => exact decodeHeader_headerWord 1#2 f
  | frameRsv f => exact decodeHeader_headerWord 0#2 f
  | _ => simp [Instr.shape, Instr.payload]

/-- Settles O1: the bits of the payload spell the payload, as it fits in the width, and the shape decodes it to the unit. -/
theorem decodeOfEncodeIsTheUnit : Obligations.DecodeOfEncodeIsTheUnit := by
  intro i hwf
  obtain ⟨hwidth, hfits⟩ := Instr.wf_parts hwf
  have hspell : bitsToNat (encode i) = i.payload := by
    rw [encode, bitsToNat_natToBits, Nat.mod_eq_of_lt (Instr.payload_lt hfits)]
  rw [decode, if_neg (by simp [encode]), hspell, decodeValue_payload hwidth]

theorem layer_eq_zero {layer : BitVec 2} (h3 : layer ≠ 3#2) (h2 : layer ≠ 2#2) (h1 : layer ≠ 1#2) : layer = 0#2 := by
  revert layer; decide

theorem payload_of_decodeHeader {v : Nat} {i : Instr} (hv : v < 2 ^ 32) (h : decodeHeader v = .ok i) : i.payload = v := by
  unfold decodeHeader at h
  split at h
  · cases h
  · next hsync =>
    have hword := fun l => headerWord_headerFields v hv l (by simpa using hsync)
    dsimp only at h
    split at h
    · next hl => cases h; exact hword _ hl
    · next h3 =>
      split at h
      · next hl => cases h; exact hword _ hl
      · next h2 =>
        split at h
        · next hl => cases h; exact hword _ hl
        · next h1 =>
          cases h
          exact hword _ (layer_eq_zero h3 h2 h1)

theorem payload_of_decodeValue {sh : UnitShape} {v : Nat} {i : Instr} (hv : v < 2 ^ sh.width)
    (h : decodeValue sh v = .ok i) : i.payload = v := by
  unfold decodeValue at h
  split at h
  · cases h
  · next hwidth =>
    have hvalue : ∀ n, sh.width ≤ n → v % 2 ^ n = v := fun n hn =>
      Nat.mod_eq_of_lt (hv.trans_le (Nat.pow_le_pow_right (by omega) hn))
    cases sh with
    | header => exact payload_of_decodeHeader hv h
    | _ =>
      cases h
      simp only [UnitShape.widthOk, Bool.and_eq_false_iff, Bool.or_eq_false_iff, decide_eq_false_iff_not] at hwidth
      exact (BitVec.toNat_ofNat ..).trans (hvalue _ (by simp only [UnitShape.width]; omega))

/-- Settles O2: a decoded unit is well formed and of the selected shape, and its payload is the number that the bits spell. -/
theorem encodeOfDecodeIsTheBits : Obligations.EncodeOfDecodeIsTheBits := by
  intro sh bits i h
  have hshape := decode_shape h
  refine ⟨decode_wf h, hshape, ?_⟩
  unfold decode at h
  split at h
  · cases h
  · next hlen =>
    have hlen : bits.length = sh.width := by simpa using hlen
    have hpayload : i.payload = bitsToNat bits := payload_of_decodeValue (hlen ▸ bitsToNat_lt bits) h
    rw [encode, hshape, hpayload, ← hlen, natToBits_bitsToNat]

end Sys2Proof.Machine
end

section
/-! Seeking sync: the four bytes at the position as one big-endian word, and what the masks of the unit table say of its sync pattern
and its layer bits (30_encoding.md R90). -/

namespace Sys2Proof.Machine

/-- The 32-bit word of four bytes in a row, the first one most significant (20_memory.md R50). -/
def wordOfBytes (b0 b1 b2 b3 : Byte) : Nat := b0.toNat * 2 ^ 24 + b1.toNat * 2 ^ 16 + b2.toNat * 2 ^ 8 + b3.toNat

variable (b0 b1 b2 b3 : Byte)

theorem wordOfBytes_lt : wordOfBytes b0 b1 b2 b3 < 2 ^ 32 := by
  have h0 := b0.isLt; have h1 := b1.isLt; have h2 := b2.isLt; have h3 := b3.isLt
  unfold wordOfBytes
  omega

theorem bitsToNat_four_bytes : bitsToNat ([b0, b1, b2, b3].flatMap byteToBits) = wordOfBytes b0 b1 b2 b3 := by
  simp only [List.flatMap_cons, List.flatMap_nil, List.append_nil, bitsToNat_append, bitsToNat_byteToBits, List.length_append,
    byteToBits_length, wordOfBytes]
  omega

/-- The bytes begin a sync candidate exactly when the word begins with twelve ones. -/
theorem isCandidate_iff_syncPattern :
    isCandidate b0 b1 = true ↔ headerField 12 20 (wordOfBytes b0 b1 b2 b3) = 0xFFF#12 := by
  have h0 := b0.isLt; have h1 := b1.isLt; have h2 := b2.isLt; have h3 := b3.isLt
  have hcandidate : isCandidate b0 b1 = true ↔ b0.toNat = 255 ∧ 240 ≤ b1.toNat := by
    simp [isCandidate, ← BitVec.toNat_inj, BitVec.le_def]
  rw [hcandidate, headerField, ← BitVec.toNat_inj, BitVec.toNat_ofNat, Nat.shiftRight_eq_div_pow, wordOfBytes, BitVec.toNat_ofNat]
  omega

theorem decodeValue_header (v : Nat) : decodeValue .header v = decodeHeader v := rfl

variable {b0 b1 b2 b3} (rest : List Byte)

theorem decodeSeek_of_candidate (h : isCandidate b0 b1 = true) {i : Instr}
    (hi : decodeHeader (wordOfBytes b0 b1 b2 b3) = .ok i) : decodeSeek (b0 :: b1 :: b2 :: b3 :: rest) = .ok (i, rest) := by
  have hdecode : decode .header ([b0, b1, b2, b3].flatMap byteToBits) = .ok i := by
    rw [decode, if_neg (by simp [byteToBits_length, UnitShape.width]), bitsToNat_four_bytes, decodeValue_header, hi]
  have hshape : seekShape b0 (b1 :: b2 :: b3 :: rest).head? = .header := by simp [seekShape, h]
  unfold decodeSeek
  dsimp only
  simp only [hshape, List.take_succ_cons, List.take_zero, hdecode, List.drop_succ_cons, List.drop_zero]

theorem decodeSeek_of_not_candidate (h : isCandidate b0 b1 = false) :
    decodeSeek (b0 :: b1 :: rest) = .ok (.skip b0, b1 :: rest) := by
  have hshape : seekShape b0 (b1 :: rest).head? = .skip := by simp [seekShape, h]
  unfold decodeSeek
  dsimp only
  rw [hshape]

theorem syncPattern_of_mask {w : Nat} {l : BitVec 2} (h : w &&& 0xFFF60000 = 0xFFF00000 + l.toNat * 2 ^ 17) :
    headerField 12 20 w = 0xFFF#12 ∧ headerField 2 17 w = l := by
  rw [headerField_and_mask 12 20 w 0xFFF60000 (by decide), headerField_and_mask 2 17 w 0xFFF60000 (by decide), h]
  clear h
  revert l; decide

theorem and_syncMask_of_syncPattern {w : Nat} (hw : w < 2 ^ 32) (h : headerField 12 20 w = 0xFFF#12) :
    w &&& 0xFFF00000 = 0xFFF00000 := by
  have hfield : w / 2 ^ 20 = 0xFFF := by
    have := congrArg BitVec.toNat h
    rw [headerField, BitVec.toNat_ofNat, BitVec.toNat_ofNat, Nat.shiftRight_eq_div_pow] at this
    omega
  have hhigh : ∀ k, w.testBit (20 + k) = Nat.testBit 0xFFF k := fun k => by
    rw [← hfield, Nat.testBit_div_two_pow, Nat.add_comm]
  rw [show 0xFFF00000 = 0xFFF <<< 20 from rfl]
  refine Nat.eq_of_testBit_eq fun i => ?_
  rw [Nat.testBit_and, Nat.testBit_shiftLeft]
  by_cases hi : 20 ≤ i
  · obtain ⟨k, rfl⟩ := Nat.exists_eq_add_of_le hi
    simp [hhigh]
  · simp [hi]

/-- A word with the layer code `l` in the masked bits is the frame of that code, whose header word it is. -/
theorem decodeSeek_of_mask (l : BitVec 2) (h : wordOfBytes b0 b1 b2 b3 &&& 0xFFF60000 = 0xFFF00000 + l.toNat * 2 ^ 17) :
    ∃ f, decodeSeek (b0 :: b1 :: b2 :: b3 :: rest) =
        .ok (if l = 3#2 then .frameL1 f else if l = 2#2 then .frameL2 f else if l = 1#2 then .frameL3 f else .frameRsv f, rest) ∧
      headerWord l f = wordOfBytes b0 b1 b2 b3 := by
  obtain ⟨hsync, hlayer⟩ := syncPattern_of_mask h
  have hword := headerWord_headerFields _ (wordOfBytes_lt b0 b1 b2 b3) l hsync hlayer
  refine ⟨headerFields (wordOfBytes b0 b1 b2 b3), decodeSeek_of_candidate rest ?_ ?_, hword⟩
  · exact (isCandidate_iff_syncPattern b0 b1 b2 b3).mpr hsync
  · conv_lhs => rw [← hword]
    exact decodeHeader_headerWord l _

/-- Settles O3: each match of the table is one layer code under the mask, and without the twelve ones there is no candidate. -/
theorem maskAndMatchSelectTheUnit : Obligations.MaskAndMatchSelectTheUnit := by
  intro b0 b1 b2 b3 rest
  refine ⟨decodeSeek_of_mask rest 3#2, decodeSeek_of_mask rest 2#2, decodeSeek_of_mask rest 1#2, decodeSeek_of_mask rest 0#2,
    fun hmask => decodeSeek_of_not_candidate _ (Bool.eq_false_iff.mpr fun hcandidate => hmask ?_)⟩
  exact and_syncMask_of_syncPattern (wordOfBytes_lt b0 b1 b2 b3) ((isCandidate_iff_syncPattern b0 b1 b2 b3).mp hcandidate)

/-- Settles O4: nine closed words and bit strings, evaluated. -/
theorem writtenWordsDecode : Obligations.WrittenWordsDecode := by
  unfold Obligations.WrittenWordsDecode
  decide +kernel

end Sys2Proof.Machine
end

section
/-! The history of a channel (45_synthesis.md R201 to R203, R206): a synthesis step writes the vector of age 0 and makes every other
vector one step older. -/

namespace Sys2Proof.Machine

variable (c : SynthChannel) (f : NumFormat) (x : Nat → NumVal)

theorem SynthChannel.push_voff : (c.push f x).voff = c.cursorStep.voff := SynthChannel.matrixing_voff ..

theorem SynthChannel.push_aged_zero {m : Nat} (hm : m < 64) : (c.push f x).aged 0 m = f.dot 32 (nik f m) x := by
  have hplace : (c.cursorStep.voff.toNat + 64 * 0 + m + 1024 - c.cursorStep.voff.toNat) % 1024 = m := by omega
  rw [SynthChannel.aged, SynthChannel.push_voff, SynthChannel.push, SynthChannel.matrixing_read, hplace, if_pos hm]

theorem SynthChannel.push_aged_succ {a m : Nat} (ha : a + 1 < 16) (hm : m < 64) :
    (c.push f x).aged (a + 1) m = c.aged a m := by
  have hvoff := c.cursorStep_voff
  rw [SynthChannel.aged, SynthChannel.push_voff, SynthChannel.push, SynthChannel.matrixing_read, if_neg (by omega),
    SynthChannel.cursorStep_read]
  exact SynthChannel.read_mod c _ _ (by omega)

/-- Settles O35, by induction on the columns, the newest one first. -/
theorem historyHoldsTheLastSixteenVectors : Obligations.HistoryHoldsTheLastSixteenVectors := by
  intro c f xs a m x ha hm hx
  induction xs generalizing a with
  | nil => simp at hx
  | cons y ys ih =>
    cases a with
    | zero =>
      obtain rfl : y = x := Option.some.inj hx
      simp only [List.foldr_cons, SynthChannel.push_aged_zero _ f y hm]
    | succ a =>
      simp only [List.foldr_cons, SynthChannel.push_aged_succ _ f y ha hm]
      exact ih a (by omega) hx

theorem SynthChannel.iterate_cursorStep_voff (n : Nat) :
    (Nat.iterate SynthChannel.cursorStep n c).voff.toNat = (c.voff.toNat + 960 * n) % 1024 := by
  induction n generalizing c with
  | zero => exact (Nat.mod_eq_of_lt c.voff.isLt).symm
  | succ n ih =>
    rw [Function.iterate_succ_apply, ih, SynthChannel.cursorStep_voff]
    omega

/-- Settles O33: `n` cursor steps add `960 n` modulo 1024. -/
theorem cursorDecreasesBySixtyFour : Obligations.CursorDecreasesBySixtyFour := by
  have hzero : ∀ c : SynthChannel, c.voff = 0 → ∀ n,
      (Nat.iterate SynthChannel.cursorStep n c).voff.toNat = 960 * n % 1024 := by
    intro c hc n
    simp [SynthChannel.iterate_cursorStep_voff, hc]
  refine ⟨fun c => ⟨c.cursorStep_voff, rfl⟩, fun c n hc => ?_, fun c hc => ⟨?_, ?_, ?_⟩⟩
  · rw [hzero c hc]; omega
  all_goals exact BitVec.eq_of_toNat_eq (hzero c hc _)

/-- Settles O34: what every address reads as after matrixing, at the 64 addresses behind the cursor and at any other. -/
theorem matrixingWritesSixtyFourDotProducts : Obligations.MatrixingWritesSixtyFourDotProducts := by
  intro c f x
  refine ⟨c.matrixing_voff f x, fun i hi => ?_, fun a ha => ?_⟩
  · rw [SynthChannel.matrixing_read, show (c.voff.toNat + i + 1024 - c.voff.toNat) % 1024 = i by omega, if_pos hi]
  · rw [SynthChannel.matrixing_read, if_neg fun hlt => ha _ hlt ?_]
    have := c.voff.isLt
    omega

/-- A term of windowing reads the low half of the vector of its age when the age is even, else the high half. -/
theorem SynthChannel.read_windowAddress (j i : Nat) :
    c.read (windowAddress c.voff.toNat j i) = c.aged i (j + if i % 2 = 1 then 32 else 0) := by
  rw [SynthChannel.aged, windowAddress]
  congr 1
  split <;> omega

theorem SynthChannel.windowing_get (win : Nat → NumVal) (j : Fin 32) :
    (c.windowing f win).get j =
      f.dot 16 (fun i => win (j.val + 32 * i)) (fun i => c.aged i (j.val + if i % 2 = 1 then 32 else 0)) := by
  simp only [SynthChannel.windowing, Bank.get_tabulate, SynthChannel.read_windowAddress]

/-- Settles O36. -/
theorem windowingReadsOneHalfOfEachVector : Obligations.WindowingReadsOneHalfOfEachVector :=
  fun c f win j => c.windowing_get f win j

end Sys2Proof.Machine
end

section
/-! A slot of silence (45_synthesis.md R209): zeros in, zeros in the history, zeros out. -/

namespace Sys2Proof.Machine

/-- An all-zero history. -/
def SynthChannel.Silent (c : SynthChannel) : Prop := ∀ a, c.v.get a = NumVal.zero

theorem SynthChannel.Silent.read {c : SynthChannel} (h : c.Silent) (a : Nat) : c.read a = NumVal.zero := h _

theorem SynthChannel.silent_of_read {c : SynthChannel} (h : ∀ a, c.read a = NumVal.zero) : c.Silent := by
  intro a
  have := h a.val
  rwa [SynthChannel.read, show Fin.ofNat 1024 a.val = a from Fin.ext (Nat.mod_eq_of_lt a.isLt)] at this

theorem SynthChannel.Silent.push {c : SynthChannel} (h : c.Silent) {f : NumFormat} (hf : f.wf = true) {x : Nat → NumVal}
    (hx : ∀ k, x k = NumVal.zero) : (c.push f x).Silent := by
  refine SynthChannel.silent_of_read fun a => ?_
  rw [SynthChannel.push, SynthChannel.matrixing_read]
  split
  · exact NumFormat.dot_of_zeros _ _ _ (nik_finite hf _) fun k _ => hx k
  · exact h.read a

theorem SynthChannel.Silent.windowing {c : SynthChannel} (h : c.Silent) (f : NumFormat) {win : Nat → NumVal}
    (hwin : ∀ k, (win k).isFinite = true) (j : Fin 32) : (c.windowing f win).get j = NumVal.zero := by
  rw [SynthChannel.windowing_get]
  exact NumFormat.dot_of_zeros _ _ _ (fun _ => hwin _) fun _ _ => h.read _

theorem pcmBytes_zero : pcmBytes 0 = [0#8, 0#8] := by decide

theorem State.slotBytes_eq_zero {s : State} (hf : s.cfg.num.wf = true)
    (h : ∀ ch ∈ s.channels, ∀ j, (s.work.sout.get ch).get j = NumVal.zero) : ∀ b ∈ s.slotBytes, b = 0#8 := by
  intro b hb
  obtain ⟨j, _, hb⟩ := List.mem_flatMap.mp hb
  obtain ⟨ch, hch, hb⟩ := List.mem_flatMap.mp hb
  rw [h ch hch, pcm16_zero hf, pcmBytes_zero] at hb
  simpa using hb

theorem State.synthChannels_channels (win : Nat → NumVal) (s : State) (t : Fin 36) :
    (s.synthChannels win t).channels = s.channels := by
  obtain ⟨_, _, e⟩ := s.synthChannels_same win t
  rw [e]; rfl

theorem State.synthChannels_cfg (win : Nat → NumVal) (s : State) (t : Fin 36) : (s.synthChannels win t).cfg = s.cfg := by
  obtain ⟨_, _, e⟩ := s.synthChannels_same win t
  rw [e]

theorem State.synthChannels_out (win : Nat → NumVal) (s : State) (t : Fin 36) : (s.synthChannels win t).out = s.out := by
  obtain ⟨_, _, e⟩ := s.synthChannels_same win t
  rw [e]

/-- Settles O37: the histories stay silent, so windowing answers zeros for any window of numbers, and zeros format to zero bytes. -/
theorem silentSlotIsSilentForEveryWindow : Obligations.SilentSlotIsSilentForEveryWindow := by
  intro s t hf hout hsample hsynth
  have hpush : ∀ ch, ((s.synth.get ch).push s.cfg.num fun k => s.work.sampleAt ch (Fin.ofNat 32 k) t).Silent := fun ch =>
    SynthChannel.Silent.push (hsynth ch) hf fun k => hsample ch _
  have hsout : ∀ ch ∈ s.channels, ∀ j, ((s.synthChannels (window s.cfg.num) t).work.sout.get ch).get j = NumVal.zero := by
    intro ch hch j
    rw [(s.synthChannels_get (window s.cfg.num) t ch).2, if_pos hch]
    exact (hpush ch).windowing _ (window_finite _) j
  refine ⟨fun ch a => ?_, hsout, fun a hle hlt => ?_⟩
  · show ((s.synthChannels (window s.cfg.num) t).synth.get ch).v.get a = _
    rw [(s.synthChannels_get (window s.cfg.num) t ch).1]
    split
    · exact hpush ch a
    · exact hsynth ch a
  · have hzero := State.slotBytes_eq_zero (s := s.synthChannels (window s.cfg.num) t) (by rwa [State.synthChannels_cfg])
      (by rwa [State.synthChannels_channels])
    rw [State.synthSlot, State.emitSlot_out, State.synthChannels_out] at hlt ⊢
    rw [Memory.size_appendAll] at hlt
    rw [Memory.read_appendAll hout, if_neg (by omega)]
    have hin : a - s.out.size < (s.synthChannels (window s.cfg.num) t).slotBytes.length := by omega
    rw [List.getElem?_eq_getElem hin, hzero _ (List.getElem_mem hin)]

end Sys2Proof.Machine
end

section
/-! The two channels of a slot, its emission, and the steps of `SYNTH` (45_synthesis.md R200, 46_pcm.md R221, R222,
47_orchestrator.md R237). -/

namespace Sys2Proof.Machine

theorem Bank.set_comm {α : Type} {n : Nat} (b : Bank α n) {i j : Fin n} (h : i ≠ j) (x y : α) :
    (b.set i x).set j y = (b.set j y).set i x := by
  refine Bank.ext_get fun k => ?_
  simp only [Bank.get_set]
  by_cases hi : k = i
  · simp [hi, h]
  · simp [hi]

/-- Settles O38: what each channel computes reads its own part of the state alone, and writes to two cells of a bank commute. -/
theorem channelsOfASlotDoNotInteract : Obligations.ChannelsOfASlotDoNotInteract := by
  intro win t s
  have h10 : (1 : Fin 2) ≠ 0 := by decide
  have h01 : (0 : Fin 2) ≠ 1 := by decide
  refine ⟨?_, fun ch ch' hne => ⟨?_, ?_⟩⟩
  · simp only [State.synthChannel_eq, Bank.get_set_of_ne _ _ h10, Bank.get_set_of_ne _ _ h01, WorkRegs.sampleAt]
    rw [Bank.set_comm s.synth h01, Bank.set_comm s.work.sout h01]
  · rw [(s.synthChannel_get win t ch ch').1, if_neg hne]
  · rw [(s.synthChannel_get win t ch ch').2.1, if_neg hne]

theorem State.channels_length {s : State} (h : IsChannelCount s.latch.nch) : s.channels.length = s.latch.nch := by
  obtain h | h := h <;> simp [State.channels, h]

/-- Settles O39: what an address reads as after the appends, at the place of a sample in the bytes of its slot. -/
theorem emissionInterleavesLittleEndianPairs : Obligations.EmissionInterleavesLittleEndianPairs := by
  intro s hwf hn hsize
  have hread := Memory.read_appendAll hwf s.slotBytes
  refine ⟨rfl, ?_, fun a ha => ?_, fun j ch hch => ?_⟩
  · rw [State.emitSlot_out, Memory.size_appendAll, State.slotBytes_length, State.channels_length hn, hsize]
    ring
  · rw [State.emitSlot_out, hread, if_pos ha]
  · have hbyte : ∀ b : Fin 2, s.emitSlot.out.read (2 * (s.latch.nch * (s.nsamp + j.val) + ch.val) + b.val) =
        (pcmBytes (pcm16 s.cfg ((s.work.sout.get ch).get j)))[b.val]? := by
      intro b
      have hplace : 2 * (s.latch.nch * (s.nsamp + j.val) + ch.val) + b.val =
          s.out.size + (2 * (s.latch.nch * j.val + ch.val) + b.val) := by rw [hsize]; ring
      rw [State.emitSlot_out, hread, hplace, if_neg (by omega), Nat.add_sub_cancel_left,
        s.slotBytes_getElem? j.val j.isLt ch hn hch b, show Fin.ofNat 32 j.val = j from Fin.ext (Nat.mod_eq_of_lt j.isLt)]
    exact ⟨hbyte 0, hbyte 1⟩

variable {s : State} {t : Fin 36}

theorem step_of_slot (hfsm : s.fsm = .synth) (hpos : s.pos = .slot t) :
    step s = .next ((s.synthSlot (window s.cfg.num) t).nextSlot t) := by
  have hstage : s.stage = some (.next ((s.synthSlot (window s.cfg.num) t).nextSlot t)) := by
    simp only [State.stage, hfsm, State.synthStage, hpos]
  rw [step, hstage]

theorem State.synthSlot_slotCount (win : Nat → NumVal) : (s.synthSlot win t).slotCount = s.slotCount := by
  obtain ⟨_, _, _, _, hhdr, _⟩ := s.synthSlot_same win t
  rw [State.slotCount, State.slotCount, hhdr]

/-- What follows a time slot changes `FSM` and the position alone. -/
theorem State.nextSlot_eq_goto (s : State) (t : Fin 36) : ∃ f p, s.nextSlot t = s.goto f p := by
  obtain ⟨_, _, e⟩ | ⟨_, e⟩ := s.nextSlot_cases t
  · exact ⟨_, _, e⟩
  · exact ⟨_, _, e⟩

theorem State.synthSlot_out (win : Nat → NumVal) :
    (s.synthSlot win t).out = ({ s with work := (s.synthSlot win t).work }.emitSlot).out := by
  have hbytes : (s.synthChannels win t).slotBytes = { s with work := (s.synthSlot win t).work }.slotBytes := by
    obtain ⟨_, _, e⟩ := s.synthChannels_same win t
    refine State.slotBytes_congr (s := { s with work := (s.synthSlot win t).work }) ?_ ?_ rfl
    · rw [e]
    · rw [e]
  rw [State.synthSlot, State.emitSlot_out, State.synthChannels_out, hbytes]
  rfl

/-- Settles O41: a step is the synthesis of the slot, its emission, and the move to the next slot or to `ALIGN`. -/
theorem synthStepRunsOneSlot : Obligations.SynthStepRunsOneSlot := by
  intro s t hfsm hpos hn
  have hget := s.synthChannels_get (window s.cfg.num) t
  obtain ⟨hinput, hbp, _, _, hhdr, hlatch, hframes, herr, hnsamp, hwork, hsynth, hsout, _⟩ :=
    s.synthSlot_same (window s.cfg.num) t
  have hmoves := (s.synthSlot (window s.cfg.num) t).nextSlot_cases t
  rw [State.synthSlot_slotCount] at hmoves
  obtain ⟨f, p, e⟩ := (s.synthSlot (window s.cfg.num) t).nextSlot_eq_goto t
  refine ⟨_, step_of_slot hfsm hpos, ?_⟩
  rw [e] at hmoves ⊢
  refine ⟨State.synthSlot_cfg .., hbp, State.synthSlot_ahead .., ?_, hhdr, hlatch, hframes, herr, hnsamp, hwork,
    fun ch hch => ?_, fun ch hch => ?_, State.synthSlot_out _, fun hmore => ?_, fun hlast => ?_⟩
  · rw [State.goto_input, hinput]
  · have hmem := (s.mem_channels hn ch).mpr hch
    rw [State.goto_synth, State.goto_work, hsynth, hsout, (hget ch).1, (hget ch).2, if_pos hmem, if_pos hmem]
    exact ⟨rfl, rfl⟩
  · have hmem : ch ∉ s.channels := fun h => absurd ((s.mem_channels hn ch).mp h) (by omega)
    rw [State.goto_synth, State.goto_work, hsynth, hsout, (hget ch).1, (hget ch).2, if_neg hmem, if_neg hmem]
    exact ⟨rfl, rfl⟩
  · obtain ⟨h36, _, e'⟩ | ⟨hge, _⟩ := hmoves
    · rw [e']; exact ⟨rfl, _, rfl, rfl⟩
    · exact absurd hmore hge
  · obtain ⟨h36, hlt, _⟩ | ⟨_, e'⟩ := hmoves
    · exact absurd ⟨hlt, h36⟩ hlast
    · rw [e']; rfl

theorem State.slotCount_le (s : State) : s.slotCount ≤ 36 := by
  unfold State.slotCount; split <;> omega

/-- A time slot that is not the last of its frame. -/
theorem step_of_inner_slot (hfsm : s.fsm = .synth) (hpos : s.pos = .slot t) (hmore : t.val + 1 < s.slotCount) :
    ∃ u t', step s = .next u ∧ u.fsm = .synth ∧ u.pos = .slot t' ∧ t'.val = t.val + 1 ∧ u.slotCount = s.slotCount ∧
      u.nsamp = s.nsamp + 32 := by
  obtain ⟨_, _, _, _, _, _, _, _, hnsamp, _⟩ := s.synthSlot_same (window s.cfg.num) t
  have hcount := s.synthSlot_slotCount (t := t) (window s.cfg.num)
  have hle := s.slotCount_le
  obtain ⟨h36, _, e⟩ | ⟨hge, _⟩ := (s.synthSlot (window s.cfg.num) t).nextSlot_cases t
  · exact ⟨_, _, (step_of_slot hfsm hpos).trans (congrArg _ e), rfl, rfl, rfl, hcount, hnsamp⟩
  · omega

theorem step_of_last_slot (hfsm : s.fsm = .synth) (hpos : s.pos = .slot t) (hlast : t.val + 1 = s.slotCount) :
    ∃ u, step s = .next u ∧ u.fsm = .align ∧ u.nsamp = s.nsamp + 32 := by
  obtain ⟨_, _, _, _, _, _, _, _, hnsamp, _⟩ := s.synthSlot_same (window s.cfg.num) t
  have hcount := s.synthSlot_slotCount (t := t) (window s.cfg.num)
  obtain ⟨h36, hlt, _⟩ | ⟨_, e⟩ := (s.synthSlot (window s.cfg.num) t).nextSlot_cases t
  · omega
  · exact ⟨_, (step_of_slot hfsm hpos).trans (congrArg _ e), rfl, hnsamp⟩

/-- From slot `t` of a frame with `k` more slots behind it, `k + 1` steps run the frame to its end. -/
theorem run_slots (k : Nat) (hfsm : s.fsm = .synth) (hpos : s.pos = .slot t) (hk : t.val + (k + 1) = s.slotCount) :
    ∃ u, Sys2Proof.core.run (k + 1) s = .next u ∧ u.fsm = .align ∧ u.nsamp = s.nsamp + 32 * (k + 1) := by
  induction k generalizing s t with
  | zero =>
    obtain ⟨u, hstep, halign, hnsamp⟩ := step_of_last_slot hfsm hpos hk
    exact ⟨u, run_succ 0 hstep, halign, hnsamp⟩
  | succ k ih =>
    obtain ⟨u, t', hstep, hfsm', hpos', ht', hcount, hnsamp⟩ := step_of_inner_slot hfsm hpos (by omega)
    obtain ⟨v, hrun, halign, hnsamp'⟩ := ih hfsm' hpos' (by omega)
    exact ⟨v, (run_succ (k + 1) hstep).trans hrun, halign, by omega⟩

/-- Settles O42: the frame has as many slots left at slot 0 as it has slots. -/
theorem frameContributesItsSamples : Obligations.FrameContributesItsSamples := by
  intro s hfsm hpos
  have hn : ∃ k, s.slotCount = k + 1 := ⟨s.slotCount - 1, by unfold State.slotCount; split <;> rfl⟩
  obtain ⟨k, hk⟩ := hn
  obtain ⟨u, hrun, hfsm, hnsamp⟩ := run_slots k hfsm hpos (by simp [hk])
  refine ⟨u, ?_, hfsm, ?_, fun h => by rw [h], fun h => by rw [h]⟩
  · rw [← hrun, ← hk]; rfl
  · rw [hnsamp, ← hk]; rfl

end Sys2Proof.Machine
end

section
/-! Rounding to a format (00_scope.md R6, R8): the grid point below the exact value and the one above it, which of the two a rounding
answers, and that rounding is monotone. -/

namespace Sys2Proof

variable {f : NumFormat} {neg : Bool} {n d n' d' : Nat}

/-- The greatest grid point at or below `n / d`. -/
def NumFormat.unitsBelow (f : NumFormat) (n d : Nat) : Nat := n / (d * 2 ^ f.exponent (n / d)) * 2 ^ f.exponent (n / d)

/-- The grid point behind it. -/
def NumFormat.unitsAbove (f : NumFormat) (n d : Nat) : Nat := (n / (d * 2 ^ f.exponent (n / d)) + 1) * 2 ^ f.exponent (n / d)

theorem NumFormat.mul_unitsBelow_le : d * f.unitsBelow n d ≤ n := by
  rw [NumFormat.unitsBelow, Nat.mul_comm (n / _), ← Nat.mul_assoc]
  exact Nat.mul_div_le ..

theorem NumFormat.le_mul_unitsAbove (hd : 0 < d) : n ≤ d * f.unitsAbove n d := by
  rw [NumFormat.unitsAbove, Nat.mul_comm (n / _ + 1), ← Nat.mul_assoc]
  exact (Nat.lt_mul_div_succ n (by positivity)).le

theorem NumFormat.roundUnits_eq_below
    (h : f.rounding.apply neg n (d * 2 ^ f.exponent (n / d)) = n / (d * 2 ^ f.exponent (n / d))) :
    f.roundUnits neg n d = f.unitsBelow n d := by rw [NumFormat.roundUnits, h, NumFormat.unitsBelow]

theorem NumFormat.roundUnits_eq_above
    (h : f.rounding.apply neg n (d * 2 ^ f.exponent (n / d)) = n / (d * 2 ^ f.exponent (n / d)) + 1) :
    f.roundUnits neg n d = f.unitsAbove n d := by rw [NumFormat.roundUnits, h, NumFormat.unitsAbove]

/-- Rounding toward zero answers the grid point below, so every number at or below the exact value is at or below that. -/
theorem NumFormat.le_unitsBelow (hp : 1 ≤ f.precision) (hd : 0 < d) {y : Nat} (hy : f.isNumber (.finite neg y) = true)
    (h : d * y ≤ n) : y ≤ f.unitsBelow n d :=
  NumFormat.le_roundUnits (f := { f with rounding := .towardZero }) (neg := neg) hp hd (NumFormat.isNumber_iff.mp hy).2 h

theorem Rounding.upward_apply (hrest : n % d ≠ 0) : Rounding.upward.apply false n d = n / d + 1 := by
  simp [Rounding.apply, hrest]

/-- Rounding upward answers the grid point above where the exact value is no grid point. -/
theorem NumFormat.unitsAbove_le (hp : 1 ≤ f.precision) (hd : 0 < d) {y : Nat} (hy : f.isNumber (.finite neg y) = true)
    (hrest : n % (d * 2 ^ f.exponent (n / d)) ≠ 0) (h : n ≤ d * y) : f.unitsAbove n d ≤ y := by
  have := NumFormat.roundUnits_le (f := { f with rounding := .upward }) (neg := false) hp hd (NumFormat.isNumber_iff.mp hy).2 h
  have hup : NumFormat.roundUnits { f with rounding := .upward } false n d = f.unitsAbove n d :=
    NumFormat.roundUnits_eq_above (f := { f with rounding := .upward }) (Rounding.upward_apply hrest)
  rwa [hup] at this

/-- A rounding that keeps the largest number goes down in magnitude. -/
theorem Rounding.apply_of_keepsLargest {r : Rounding} (h : r.keepsLargest neg = true) : r.apply neg n d = n / d := by
  cases r <;> simp_all [Rounding.keepsLargest, Rounding.apply]

/-- A rounding that goes up in magnitude is at or above the exact value. -/
theorem Rounding.le_mul_apply_of_up {r : Rounding} (h : r = .upward ∧ neg = false ∨ r = .downward ∧ neg = true) (hd : 0 < d) :
    n ≤ d * r.apply neg n d := by
  have hdm := Nat.div_add_mod n d
  have hlt := Nat.lt_mul_div_succ n hd
  by_cases hrest : n % d = 0
  · rw [(r.apply_cases neg n d hd).2 hrest]; omega
  · have hup : r.apply neg n d = n / d + 1 := by
      obtain ⟨rfl, rfl⟩ | ⟨rfl, rfl⟩ := h <;> simp [Rounding.apply, hrest]
    rw [hup]; exact hlt.le

/-- Rounding to nearest goes to the side the rest is nearer to. -/
theorem Rounding.apply_of_nearest {r : Rounding} (h : r = .nearestEven ∨ r = .nearestAway) (neg : Bool) (n d : Nat) :
    (r.apply neg n d = n / d ∧ 2 * (n % d) ≤ d) ∨ (r.apply neg n d = n / d + 1 ∧ d ≤ 2 * (n % d)) := by
  obtain rfl | rfl := h <;> simp only [Rounding.apply, Bool.or_eq_true, Bool.and_eq_true, decide_eq_true_eq] <;> split <;> omega

/-- Rounding to nearest answers the nearer of the grid points below and above, and no number is nearer than both. -/
theorem NumFormat.roundUnits_nearest (hp : 1 ≤ f.precision) (hd : 0 < d)
    (hr : f.rounding = .nearestEven ∨ f.rounding = .nearestAway) {y : Nat} (hy : f.isNumber (.finite neg y) = true) :
    |(n : Int) - d * f.roundUnits neg n d| ≤ |(n : Int) - d * y| := by
  have hbelow := NumFormat.mul_unitsBelow_le (f := f) (n := n) (d := d)
  have habove := NumFormat.le_mul_unitsAbove (f := f) (n := n) hd
  have hgap : d * f.unitsAbove n d = d * f.unitsBelow n d + d * 2 ^ f.exponent (n / d) := by
    rw [NumFormat.unitsAbove, NumFormat.unitsBelow]; ring
  have hrest : n = d * f.unitsBelow n d + n % (d * 2 ^ f.exponent (n / d)) := by
    conv_lhs => rw [← Nat.div_add_mod n (d * 2 ^ f.exponent (n / d))]
    rw [NumFormat.unitsBelow]; ring
  have hlow : d * y ≤ n → d * y ≤ d * f.unitsBelow n d := fun h =>
    Nat.mul_le_mul_left d (NumFormat.le_unitsBelow hp hd hy h)
  have hhigh : n % (d * 2 ^ f.exponent (n / d)) ≠ 0 → n ≤ d * y → d * f.unitsAbove n d ≤ d * y := fun h0 h =>
    Nat.mul_le_mul_left d (NumFormat.unitsAbove_le hp hd hy h0 h)
  have hchoice := Rounding.apply_of_nearest hr neg n (d * 2 ^ f.exponent (n / d))
  have habs : ∀ m : Nat, |(n : Int) - d * m| = ((n : Int) - (d * m : Nat)).natAbs := fun m => by
    rw [← Int.abs_eq_natAbs, Nat.cast_mul]
  rw [habs, habs]
  obtain ⟨e, hhalf⟩ | ⟨e, hhalf⟩ := hchoice
  · rw [NumFormat.roundUnits_eq_below e]; omega
  · rw [NumFormat.roundUnits_eq_above e]; omega

/-- No number lies between the exact value and a finite answer. -/
theorem NumFormat.round_between (hp : 1 ≤ f.precision) (hd : 0 < d) {m : Nat} (h : f.round neg n d = .finite neg m) {y : Nat}
    (hy : f.isNumber (.finite neg y) = true) : (d * y ≤ n → y ≤ m) ∧ (n ≤ d * y → m ≤ y) := by
  obtain ⟨hlargest, hgrid⟩ := NumFormat.isNumber_iff.mp hy
  have hlow : d * y ≤ n → y ≤ f.roundUnits neg n d := NumFormat.le_roundUnits hp hd hgrid
  have hhigh : n ≤ d * y → f.roundUnits neg n d ≤ y := NumFormat.roundUnits_le hp hd hgrid
  obtain ⟨rfl, _⟩ | ⟨rfl, hbeyond, _⟩ := NumFormat.round_finite h
  · exact ⟨hlow, hhigh⟩
  · exact ⟨fun _ => hlargest, fun h => by have := hhigh h; omega⟩

theorem NumFormat.isNumber_of_round (hp : 1 ≤ f.precision) (hd : 0 < d) {m : Nat} (h : f.round neg n d = .finite neg m) :
    f.isNumber (.finite neg m) = true := by
  obtain ⟨rfl, hle⟩ | ⟨rfl, _⟩ := NumFormat.round_finite h
  · exact NumFormat.roundUnits_isNumber hp hd hle neg
  · exact NumFormat.isNumber_largest hp neg

/-- Settles O43: a finite answer is the grid point below or above the exact value, or the largest number below both. -/
theorem roundingAnswersANearestNumber : Obligations.RoundingAnswersANearestNumber := by
  intro f neg n d hp hd
  refine ⟨fun m h => ⟨NumFormat.isNumber_of_round hp hd h, fun y hy => NumFormat.round_between hp hd h hy, ?nearest, ?down, ?up⟩,
    fun hle => ⟨_, NumFormat.round_isFinite hp hd hle⟩⟩
  case nearest =>
    intro hr y hy
    obtain ⟨rfl, _⟩ | ⟨_, _, hkeeps⟩ := NumFormat.round_finite h
    · exact NumFormat.roundUnits_nearest hp hd hr hy
    · obtain hr | hr := hr <;> simp [hr, Rounding.keepsLargest] at hkeeps
  case down =>
    intro hkeeps
    have hunits := NumFormat.roundUnits_eq_below (f := f) (n := n) (d := d) (Rounding.apply_of_keepsLargest hkeeps)
    have hbelow := NumFormat.mul_unitsBelow_le (f := f) (n := n) (d := d)
    obtain ⟨rfl, _⟩ | ⟨rfl, hbeyond, _⟩ := NumFormat.round_finite h
    · rwa [hunits]
    · exact (Nat.mul_le_mul_left d (hunits ▸ hbeyond.le)).trans hbelow
  case up =>
    intro hup
    obtain ⟨rfl, _⟩ | ⟨_, _, hkeeps⟩ := NumFormat.round_finite h
    · have := Rounding.le_mul_apply_of_up (n := n) hup (show 0 < d * 2 ^ f.exponent (n / d) by positivity)
      rwa [Nat.mul_assoc, Nat.mul_comm (2 ^ _)] at this
    · obtain ⟨hr, hneg⟩ | ⟨hr, hneg⟩ := hup <;> simp [hr, hneg, Rounding.keepsLargest] at hkeeps

/-- Rounding to an integer is monotone in the fraction. -/
theorem Rounding.apply_mono (r : Rounding) (neg : Bool) (hd : 0 < d) (hd' : 0 < d') (h : n * d' ≤ n' * d) :
    r.apply neg n d ≤ r.apply neg n' d' := by
  have hquot : n / d ≤ n' / d' := by
    rw [Nat.le_div_iff_mul_le hd', ← Nat.mul_le_mul_left_iff hd]
    calc d * (n / d * d') = d * (n / d) * d' := by ring
      _ ≤ n * d' := Nat.mul_le_mul_right _ (Nat.mul_div_le n d)
      _ ≤ d * n' := by rwa [Nat.mul_comm d]
  obtain hlt | heq := hquot.lt_or_eq
  · have h1 := (r.apply_cases neg n d hd).1
    have h2 := (r.apply_cases neg n' d' hd').1
    omega
  · have hrest : n % d * d' ≤ n' % d' * d := by
      have e := Nat.div_add_mod n d
      have e' := Nat.div_add_mod n' d'
      rw [← heq] at e'
      have : (d * (n / d) + n % d) * d' ≤ (d' * (n / d) + n' % d') * d := by rwa [e, e']
      nlinarith
    have hmore : d < 2 * (n % d) → d' < 2 * (n' % d') := fun h => by nlinarith
    have hhalf : d ≤ 2 * (n % d) → d' ≤ 2 * (n' % d') := fun h => by nlinarith
    have hsome : n % d ≠ 0 → n' % d' ≠ 0 := fun h h0 => by
      rw [h0, Nat.zero_mul, Nat.le_zero, Nat.mul_eq_zero] at hrest
      omega
    unfold Rounding.apply
    cases r with
    | towardZero => exact heq.le
    | nearestEven | nearestAway =>
      simp only [Bool.or_eq_true, Bool.and_eq_true, decide_eq_true_eq]
      split <;> split <;> omega
    | upward | downward =>
      simp only [Bool.and_eq_true, decide_eq_true_eq]
      split <;> split <;> simp_all

theorem NumFormat.exponent_mono {m m' : Nat} (h : m ≤ m') : f.exponent m ≤ f.exponent m' := by
  unfold NumFormat.exponent
  have : m.log2 ≤ m'.log2 := by
    simpa [Nat.log2_eq_log_two] using Nat.log_mono_right h
  omega

/-- Rounded magnitudes are monotone: of one exponent by their integers, else the end of one binade lies between them. -/
theorem NumFormat.roundUnits_mono (hp : 1 ≤ f.precision) (hd : 0 < d) (hd' : 0 < d') (h : n * d' ≤ n' * d) :
    f.roundUnits neg n d ≤ f.roundUnits neg n' d' := by
  have hquot : n / d ≤ n' / d' := by
    have := Rounding.apply_mono .towardZero neg hd hd' h
    simpa [Rounding.apply_of_keepsLargest (r := .towardZero) rfl] using this
  obtain hlt | heq := (NumFormat.exponent_mono (f := f) hquot).lt_or_eq
  · have hr := (f.rounding.apply_cases neg n (d * 2 ^ f.exponent (n / d)) (by positivity)).1
    have hr' := (f.rounding.apply_cases neg n' (d' * 2 ^ f.exponent (n' / d')) (by positivity)).1
    have hbelow := (NumFormat.quotient_bounds (f := f) (n := n) (d := d) hp).1
    have habove := (NumFormat.quotient_bounds (f := f) (n := n') (d := d') hp).2
    calc f.roundUnits neg n d ≤ 2 ^ f.precision * 2 ^ f.exponent (n / d) := Nat.mul_le_mul_right _ (by omega)
      _ = 2 ^ (f.precision - 1) * 2 ^ (f.exponent (n / d) + 1) := by rw [← pow_add, ← pow_add]; congr 1; omega
      _ ≤ 2 ^ (f.precision - 1) * 2 ^ f.exponent (n' / d') := Nat.mul_le_mul_left _ (Nat.pow_le_pow_right (by omega) hlt)
      _ ≤ f.roundUnits neg n' d' := Nat.mul_le_mul_right _ (by omega)
  · unfold NumFormat.roundUnits
    rw [heq]
    refine Nat.mul_le_mul_right _ (Rounding.apply_mono _ _ (by positivity) (by positivity) ?_)
    calc n * (d' * 2 ^ f.exponent (n' / d')) = n * d' * 2 ^ f.exponent (n' / d') := by ring
      _ ≤ n' * d * 2 ^ f.exponent (n' / d') := Nat.mul_le_mul_right _ h
      _ = n' * (d * 2 ^ f.exponent (n' / d')) := by ring

/-- Settles O44. -/
theorem roundingKeepsEveryNumber : Obligations.RoundingKeepsEveryNumber := by
  refine fun f neg => ⟨fun m hm => NumFormat.round_exact Nat.one_pos (Nat.mul_one m).symm hm, ?_⟩
  intro n d n' d' m m' hp hd hd' hle h h'
  have hmono := NumFormat.roundUnits_mono (f := f) (neg := neg) hp hd hd' hle
  obtain ⟨rfl, hm⟩ | ⟨rfl, hm, _⟩ := NumFormat.round_finite h <;>
    obtain ⟨rfl, hm'⟩ | ⟨rfl, hm', _⟩ := NumFormat.round_finite h' <;> omega

end Sys2Proof
end

section
/-! Requantization (43_layer1.md R153, 44_layer2.md R179): the fraction before the rounded constants is a multiple of a power of two
that the format has, so that every operation on it is exact. -/

namespace Sys2Proof

variable {f : NumFormat} {j : Nat}

/-- The format has the multiples of `2^-j` of magnitude at most 1. -/
structure NumFormat.HasFractions (f : NumFormat) (j : Nat) : Prop where
  precision : j ≤ f.precision
  scale : j ≤ f.scale
  one : 2 ^ f.scale ≤ f.largest

/-- `z × 2^-j`. -/
def NumFormat.fraction (f : NumFormat) (j : Nat) (z : Int) : NumVal := NumVal.ofUnits (z * 2 ^ (f.scale - j))

theorem NumFormat.fraction_zero : f.fraction j 0 = NumVal.zero := by simp [NumFormat.fraction]

theorem NumFormat.HasFractions.isNumber (h : f.HasFractions j) {z : Int} (hz : z.natAbs ≤ 2 ^ j) :
    f.isNumber (f.fraction j z) = true := NumFormat.isNumber_ofUnits_mul h.precision h.scale h.one hz

theorem NumFormat.HasFractions.units (h : f.HasFractions j) (z : Int) : (f.fraction j z).units * 2 ^ j = z * 2 ^ f.scale := by
  rw [NumFormat.fraction, NumVal.units_ofUnits, Int.mul_assoc, ← pow_add, Nat.sub_add_cancel h.scale]

/-- A quotient that is a multiple of `2^-j` of magnitude at most 1 is exact. -/
theorem NumFormat.HasFractions.ofRatio (h : f.HasFractions j) {z a : Int} {b : Nat} (hz : z.natAbs ≤ 2 ^ j) (hb : 0 < b)
    (hab : a * 2 ^ j = z * b) : f.ofRatio a b = f.fraction j z := by
  refine NumFormat.ofRatio_exact hb ?_ (h.isNumber hz)
  have hscale : (2 : Int) ^ f.scale = 2 ^ (f.scale - j) * 2 ^ j := by rw [← pow_add, Nat.sub_add_cancel h.scale]
  calc a * 2 ^ f.scale = a * 2 ^ j * 2 ^ (f.scale - j) := by rw [hscale]; ring
    _ = z * 2 ^ (f.scale - j) * b := by rw [hab]; ring

theorem NumFormat.HasFractions.add (h : f.HasFractions j) {x y : Int} (hxy : (x + y).natAbs ≤ 2 ^ j) :
    f.add (f.fraction j x) (f.fraction j y) = f.fraction j (x + y) := by
  have hsum : x * 2 ^ (f.scale - j) + y * 2 ^ (f.scale - j) = (x + y) * 2 ^ (f.scale - j) := (Int.add_mul ..).symm
  have := h.isNumber hxy
  unfold NumFormat.fraction at *
  rw [← hsum] at *
  exact NumFormat.add_ofUnits this

/-- The sign by the threshold `T = 2^j` and the rest over `T`: exactly `(v - T) / T`. -/
theorem NumFormat.HasFractions.signed (h : f.HasFractions j) {v : Nat} (hv : v < 2 * 2 ^ j) :
    f.add (if 2 ^ j ≤ v then NumVal.zero else f.ofInt (-1)) (f.ofRatio (v % 2 ^ j : Nat) (2 ^ j)) =
      f.fraction j ((v : Int) - 2 ^ j) := by
  have hpos : 0 < 2 ^ j := by positivity
  have hmod := Nat.mod_lt v hpos
  have hcast : ((2 ^ j : Nat) : Int) = 2 ^ j := by push_cast; rfl
  have hrest : f.ofRatio (v % 2 ^ j : Nat) (2 ^ j) = f.fraction j (v % 2 ^ j : Nat) :=
    h.ofRatio (by omega) hpos (by rw [hcast])
  have hone : f.ofInt (-1) = f.fraction j (-2 ^ j) := h.ofRatio (by simp [Int.natAbs_pow]) Nat.one_pos (by simp)
  rw [hrest, hone, ← NumFormat.fraction_zero (j := j)]
  split
  · next hle =>
    have hv' : v % 2 ^ j = v - 2 ^ j := by rw [Nat.mod_eq_sub_mod hle, Nat.mod_eq_of_lt (by omega)]
    rw [h.add (by omega)]
    congr 1
    omega
  · next hlt =>
    have hv' : v % 2 ^ j = v := Nat.mod_eq_of_lt (by omega)
    rw [h.add (by omega)]
    congr 1
    omega

end Sys2Proof

namespace Sys2Proof.Machine

theorem testBit_iff_of_lt {v n : Nat} (hv : v < 2 ^ (n + 1)) : v.testBit n = true ↔ 2 ^ n ≤ v := by
  rw [Nat.testBit_eq_decide_div_mod_eq, decide_eq_true_eq]
  have hdiv : v / 2 ^ n < 2 := (Nat.div_lt_iff_lt_mul (by positivity)).mpr (by rwa [← pow_succ'])
  have hone : 1 ≤ v / 2 ^ n ↔ 2 ^ n ≤ v := Nat.one_le_div_iff (by positivity)
  generalize v / 2 ^ n = k at *
  omega

/-- Settles O24: after the sign and the rest, `2^-n` is added, all of them multiples of `2^-n`. -/
theorem deq1RoundsOnlyFactorAndProduct : Obligations.Deq1RoundsOnlyFactorAndProduct := by
  intro f n v hp hs hl hv
  have h : f.HasFractions n := ⟨hp, hs, hl⟩
  have hpow : (2 : Int) ^ (n + 1) = 2 * 2 ^ n := pow_succ' ..
  have hcast : ((2 ^ n : Nat) : Int) = 2 ^ n := by push_cast; rfl
  have hv2 : v < 2 * 2 ^ n := by rwa [← pow_succ']
  have hz : ((v : Int) - 2 ^ n + 1).natAbs ≤ 2 ^ n := by omega
  have hx : f.ofRatio (2 * (v : Int) - 2 ^ (n + 1) + 2) (2 ^ (n + 1)) = f.fraction n ((v : Int) - 2 ^ n + 1) :=
    h.ofRatio hz (by positivity) (by push_cast; rw [hpow]; ring)
  have hone : f.ofRatio 1 (2 ^ n) = f.fraction n 1 := h.ofRatio (by simpa using Nat.one_le_two_pow) (by positivity) (by simp)
  refine ⟨?_, ?_, ?_⟩
  · have hsigned := h.signed hv2
    simp only [deq1, testBit_iff_of_lt hv]
    rw [hsigned, hone, h.add hz, hx]
    norm_cast
  · rw [hx]; exact h.isNumber hz
  · rw [hx]
    have := h.units ((v : Int) - 2 ^ n + 1)
    rw [hpow]
    linear_combination 2 * this

theorem deq2_of_power {f : NumFormat} {q : QuantClass} {j v : Nat} (hT : q.T = 2 ^ j) (h : f.HasFractions j) (hv : v < 2 * q.T) :
    deq2 f v q = f.mul (f.add (f.fraction j ((v : Int) - q.T)) (q.D.toNum f)) (q.C.toNum f) := by
  rw [hT] at hv
  have hsigned := h.signed hv
  simp only [deq2, hT]
  rw [hsigned]
  norm_cast

end Sys2Proof.Machine
end

section
/-! `PCM_ROUND` and `pcm16` (46_pcm.md R220): a nearest integer, and beyond the 16-bit range the end of it. -/

namespace Sys2Proof

variable (r : PcmRound) {u : Int} {d : Nat}

/-- How far the two integers around `u / d` are from it. -/
theorem PcmRound.distances (u : Int) (hd : 0 < d) :
    0 ≤ u % d ∧ u % d < d ∧ |u - d * (u / d)| = u % d ∧ |u - d * (u / d + 1)| = d - u % d := by
  have hdm := Int.mul_ediv_add_emod u d
  have hlt := Int.emod_lt_of_pos u (show (0 : Int) < d by omega)
  have hnonneg := Int.emod_nonneg u (show (d : Int) ≠ 0 by omega)
  refine ⟨hnonneg, hlt, ?_, ?_⟩
  · rw [show u - d * (u / d) = u % d by omega, abs_of_nonneg hnonneg]
  · rw [show u - d * (u / d + 1) = -(d - u % d) by rw [Int.mul_add]; omega, abs_neg, abs_of_nonneg (by omega)]

theorem PcmRound.apply_nearest (u : Int) (hd : 0 < d) : 2 * |u - d * r.apply u d| ≤ d := by
  obtain ⟨_, _, hbelow, habove⟩ := PcmRound.distances u hd
  obtain ⟨e, hhalf⟩ | ⟨e, hhalf⟩ := r.apply_cases u d
  · rw [e, hbelow]; exact hhalf
  · rw [e, habove]; omega

theorem PcmRound.halfUp_apply (u : Int) (hd : 0 < d) : PcmRound.halfUp.apply u d = (2 * u + d) / (2 * d) := by
  obtain ⟨hnonneg, hlt, _⟩ := PcmRound.distances u hd
  have hsum : 2 * u + d = (2 * (u % d) + d) + 2 * d * (u / d) := by
    linear_combination (-2) * Int.mul_ediv_add_emod u d
  have hcarry : (2 * (u % d) + d) / (2 * (d : Int)) = if 2 * (u % d) < d then 0 else 1 := by
    split
    · exact Int.ediv_eq_zero_of_lt (by omega) (by omega)
    · exact (Int.ediv_eq_iff_of_pos (by omega)).mpr ⟨by omega, by omega⟩
  rw [hsum, Int.add_mul_ediv_left _ _ (by omega), hcarry]
  unfold PcmRound.apply
  dsimp only
  split_ifs <;> omega

theorem PcmRound.halfEven_apply (hd : 0 < d) (hhalf : 2 * |u - d * PcmRound.halfEven.apply u d| = d) :
    PcmRound.halfEven.apply u d % 2 = 0 := by
  obtain ⟨_, _, hbelow, habove⟩ := PcmRound.distances u hd
  unfold PcmRound.apply at *
  dsimp only at *
  split_ifs at hhalf ⊢ with hless hmore heven
  · rw [hbelow] at hhalf; omega
  · rw [habove] at hhalf; omega
  · exact heven
  · omega

/-- What is at most -32768 or at least 32768 stays so. -/
theorem PcmRound.apply_le_of_le (hd : 0 < d) (h : u ≤ -(32768 * d)) : r.apply u d ≤ -32768 := by
  have := abs_le.mp (show |u - d * r.apply u d| ≤ d / 2 by have := r.apply_nearest u hd; omega)
  by_contra hc
  have : (d : Int) * -32767 ≤ d * r.apply u d := Int.mul_le_mul_of_nonneg_left (by omega) (by omega)
  omega

theorem PcmRound.le_apply_of_le (hd : 0 < d) (h : 32768 * d ≤ u) : 32768 ≤ r.apply u d := by
  have := abs_le.mp (show |u - d * r.apply u d| ≤ d / 2 by have := r.apply_nearest u hd; omega)
  by_contra hc
  have : (d : Int) * r.apply u d ≤ d * 32767 := Int.mul_le_mul_of_nonneg_left (by omega) (by omega)
  omega

end Sys2Proof

namespace Sys2Proof.Machine

theorem clamp16_bounds (q : Int) : -32768 ≤ clamp16 q ∧ clamp16 q ≤ 32767 := by
  unfold clamp16; split_ifs <;> omega

theorem clamp16_of_le {q : Int} (h : q ≤ -32768) : clamp16 q = -32768 := by
  unfold clamp16; split_ifs <;> omega

theorem clamp16_of_ge {q : Int} (h : 32768 ≤ q) : clamp16 q = 32767 := by
  unfold clamp16; split_ifs <;> omega

/-- The end of the 16-bit range on the side of a sign. -/
def pcmEnd (neg : Bool) : Int := if neg then -32768 else 32767

/-- A magnitude of 1 or more is clamped to the end of the range. -/
theorem clamp16_apply_of_large (r : PcmRound) (neg : Bool) {m d : Nat} (hd : 0 < d) (hm : 32768 * d ≤ m) :
    clamp16 (r.apply (NumVal.finite neg m).units d) = pcmEnd neg := by
  cases neg with
  | false => exact clamp16_of_ge (r.le_apply_of_le hd (show (32768 : Int) * d ≤ m by omega))
  | true => exact clamp16_of_le (r.apply_le_of_le hd (show -(m : Int) ≤ -(32768 * d) by omega))

theorem pcm16_bounds (c : Config) (x : NumVal) : -32768 ≤ pcm16 c x ∧ pcm16 c x ≤ 32767 := by
  unfold pcm16
  split
  · exact clamp16_bounds _
  · split <;> omega
  · have h1 := BitVec.toInt_lt (x := Config.pcmOfNaN x)
    have h2 := BitVec.le_toInt (x := Config.pcmOfNaN x)
    omega

/-- A number times 32768 rounds to that product, which is on the grid of its own exponent, up to the largest number. -/
theorem mul_32768 {f : NumFormat} (hf : f.wf = true) {neg : Bool} {m : Nat} (hm : f.isNumber (.finite neg m) = true) :
    f.mul (.finite neg m) (f.ofInt 32768) =
      if m * 2 ^ 15 ≤ f.largest then .finite neg (m * 2 ^ 15)
      else if f.rounding.keepsLargest neg then .finite neg f.largest else .infinity neg := by
  have hgrid : 2 ^ f.exponent (m * 2 ^ 15) ∣ m * 2 ^ 15 := by
    have hlog : (m * 2 ^ 15).log2 ≤ m.log2 + 15 := by
      by_cases h0 : m = 0
      · subst h0; simp
      · refine Nat.le_of_lt_succ ((Nat.log2_lt (by positivity)).mpr ?_)
        rw [show (m.log2 + 15).succ = m.log2 + 1 + 15 by omega, pow_add]
        exact Nat.mul_lt_mul_of_pos_right Nat.lt_log2_self (by positivity)
    have hexp : f.exponent (m * 2 ^ 15) ≤ f.exponent m + 15 := by unfold NumFormat.exponent; omega
    refine (pow_dvd_pow 2 hexp).trans ?_
    rw [pow_add]
    exact Nat.mul_dvd_mul_right (NumFormat.isNumber_iff.mp hm).2 _
  have hunits : f.roundUnits neg (m * 2 ^ (15 + f.scale)) (2 ^ f.scale) = m * 2 ^ 15 :=
    NumFormat.roundUnits_exact (by positivity) (by rw [pow_add, Nat.mul_assoc]) hgrid
  rw [NumFormat.ofInt_32768 hf]
  simp only [NumFormat.mul, Bool.bne_false]
  rw [NumFormat.round_eq, hunits]

/-- Settles O40: inside the format the product with 32768 is exact, and beyond it the value is clamped whatever the product is. -/
theorem pcmIsTheClampedRoundedSample : Obligations.PcmIsTheClampedRoundedSample := by
  intro c hc
  have hf := (Config.wf_parts hc).1
  refine ⟨fun x hx => ?_, pcm16_bounds c, fun u d hd => ⟨c.pcmRound.apply_nearest u hd, fun h => ?_, fun h => ?_⟩⟩
  · cases x with
    | infinity | nan => cases hx
    | finite neg m =>
      have hscale : 0 < 2 ^ c.num.scale := by positivity
      have hone : 2 ^ (15 + c.num.scale) = 32768 * 2 ^ c.num.scale := by rw [pow_add]; norm_num
      have hlargest := (NumFormat.wf_parts hf).2
      have hunits : (NumVal.finite neg m).units * 32768 = (NumVal.finite neg (m * 2 ^ 15)).units := by
        cases neg <;> simp only [NumVal.units] <;> omega
      rw [hunits, pcm16, mul_32768 hf hx]
      split_ifs with hle hkeeps
      · rfl
      · rw [clamp16_apply_of_large _ _ hscale (by omega)]
        exact clamp16_apply_of_large _ _ hscale (by omega)
      · rw [clamp16_apply_of_large _ _ hscale (by omega)]
        rfl
  · rw [h]; exact PcmRound.halfUp_apply u hd
  · rw [h]; exact PcmRound.halfEven_apply hd

end Sys2Proof.Machine
end

section
/-! The scale factors (10_state.md R31): the table entry is a number next to the real number `2^(1 - i/3)`. -/

namespace Sys2Proof

variable {f : NumFormat}

/-- The real number `2^(1 - i/3)` in half units is the cube root of a fraction; its integer part. -/
def NumFormat.scaleHalves (f : NumFormat) (i : Nat) : Nat := cubeRoot (2 ^ (6 + 3 * f.scale) / 2 ^ i)

/-- The quarter units that `scaleFactor` rounds. -/
def NumFormat.scaleQuarters (f : NumFormat) (i : Nat) : Nat :=
  if f.scaleHalves i ^ 3 * 2 ^ i = 2 ^ (6 + 3 * f.scale) then 2 * f.scaleHalves i else 2 * f.scaleHalves i + 1

theorem NumFormat.scaleFactor_eq (i : Nat) : f.scaleFactor i = f.round false (f.scaleQuarters i) 4 := rfl

theorem eight_cubed (y k : Nat) : (2 * y) ^ 3 * k = 8 * (y ^ 3 * k) := by ring

/-- A whole number of half units at or below the real number is at or below its integer part. -/
theorem NumFormat.le_scaleHalves {i y : Nat} (h : y ^ 3 * 2 ^ i ≤ 2 ^ (6 + 3 * f.scale)) : y ≤ f.scaleHalves i := by
  have hlt := (cubeRoot_spec (2 ^ (6 + 3 * f.scale) / 2 ^ i)).2
  have hle : y ^ 3 ≤ 2 ^ (6 + 3 * f.scale) / 2 ^ i := (Nat.le_div_iff_mul_le (by positivity)).mpr h
  exact Nat.le_of_lt_succ (lt_of_pow_lt_pow_left₀ 3 (by positivity) (hle.trans_lt hlt))

theorem NumFormat.scaleHalves_cubed_le (i : Nat) : f.scaleHalves i ^ 3 * 2 ^ i ≤ 2 ^ (6 + 3 * f.scale) :=
  (Nat.le_div_iff_mul_le (by positivity)).mp (cubeRoot_spec _).1

/-- Four times a number of units at or above the real number is at or above the quarter units rounded. -/
theorem NumFormat.scaleQuarters_le {i y : Nat} (h : 2 ^ (6 + 3 * f.scale) ≤ (2 * y) ^ 3 * 2 ^ i) : f.scaleQuarters i ≤ 4 * y := by
  have hle := f.scaleHalves_cubed_le i
  unfold NumFormat.scaleQuarters
  split
  · next he =>
    rw [← he] at h
    have : f.scaleHalves i ≤ 2 * y := le_of_pow_le_pow_left₀ (n := 3) (by omega) (Nat.zero_le _) (Nat.le_of_mul_le_mul_right h (by positivity))
    omega
  · next hne =>
    have hlt : f.scaleHalves i ^ 3 < (2 * y) ^ 3 := Nat.lt_of_mul_lt_mul_right (lt_of_lt_of_le (lt_of_le_of_ne hle hne) h)
    have : f.scaleHalves i < 2 * y := lt_of_pow_lt_pow_left₀ 3 (by positivity) hlt
    omega

theorem NumFormat.le_scaleQuarters {i y : Nat} (h : (2 * y) ^ 3 * 2 ^ i ≤ 2 ^ (6 + 3 * f.scale)) : 4 * y ≤ f.scaleQuarters i := by
  have := NumFormat.le_scaleHalves h
  unfold NumFormat.scaleQuarters
  split <;> omega

theorem NumFormat.scaleQuarters_le_largest (h : f.wf = true) (i : Nat) : f.scaleQuarters i ≤ 4 * f.largest := by
  have hlargest := (NumFormat.wf_parts h).2
  refine NumFormat.scaleQuarters_le ?_
  calc 2 ^ (6 + 3 * f.scale) ≤ (2 * 2 ^ (15 + f.scale)) ^ 3 := by
        rw [← pow_succ', ← pow_mul]; exact Nat.pow_le_pow_right (by omega) (by omega)
    _ ≤ (2 * f.largest) ^ 3 := Nat.pow_le_pow_left (by omega) 3
    _ ≤ (2 * f.largest) ^ 3 * 2 ^ i := Nat.le_mul_of_pos_right _ (by positivity)

/-- A scale factor is a number of the format with none between it and `2^(1 - i/3)`. -/
theorem NumFormat.scaleFactor_spec (h : f.wf = true) (i : Nat) :
    ∃ m, f.scaleFactor i = .finite false m ∧ f.isNumber (.finite false m) = true ∧
      ∀ y, f.isNumber (.finite false y) = true →
        (y ^ 3 * 2 ^ i ≤ 2 ^ (3 + 3 * f.scale) → y ≤ m) ∧ (2 ^ (3 + 3 * f.scale) ≤ y ^ 3 * 2 ^ i → m ≤ y) := by
  have hp := (NumFormat.wf_parts h).1
  have hround := NumFormat.round_isFinite (neg := false) hp (show 0 < 4 by omega) (f.scaleQuarters_le_largest h i)
  have hpow : 2 ^ (6 + 3 * f.scale) = 8 * 2 ^ (3 + 3 * f.scale) := by
    rw [show 6 + 3 * f.scale = 3 + (3 + 3 * f.scale) by omega, pow_add]; rfl
  rw [NumFormat.scaleFactor_eq]
  refine ⟨_, hround, NumFormat.isNumber_of_round hp (by omega) hround, fun y hy => ⟨fun hle => ?_, fun hge => ?_⟩⟩
  · exact (NumFormat.round_between hp (by omega) hround hy).1 (NumFormat.le_scaleQuarters (by rw [eight_cubed, hpow]; omega))
  · exact (NumFormat.round_between hp (by omega) hround hy).2 (NumFormat.scaleQuarters_le (by rw [eight_cubed, hpow]; omega))

end Sys2Proof
end

section
/-! `ReadBits` and the units of the byte and frame levels: where each is selected, and the state it leads to (40_bit_reader.md R110 to
R112, 41_frame_sync.md R120, R121, 42_frame_header.md R130 to R140). -/

namespace Sys2Proof.Machine

/-- A field is the sum of its bits by their places. -/
theorem Memory.bitsToNat_eq_sum (m : Memory) (b n : Nat) :
    bitsToNat (m.bits b n) = ∑ i ∈ Finset.range n, (m.bit (b + i)).toNat * 2 ^ (n - 1 - i) := by
  induction n with
  | zero => rfl
  | succ n ih =>
    have hlast : bitsToNat (m.bits (b + n) 1) = (m.bit (b + n)).toNat := by simp [Memory.bits, bitsToNat]
    rw [Memory.bits_add, bitsToNat_append, ih, hlast, Memory.bits_length, Finset.sum_range_succ, Finset.sum_mul]
    congr 1
    · refine Finset.sum_congr rfl fun i hi => ?_
      have hi := Finset.mem_range.mp hi
      rw [Nat.mul_assoc, ← pow_add]
      congr 2
      omega
    · simp

/-- Settles O6: the answer of `ReadBits` is one of three, told apart by the width and the end of the input. -/
theorem readBitsAnswersTheFieldOrRaises : Obligations.ReadBitsAnswersTheFieldOrRaises := by
  refine ⟨fun s n hmax => ⟨?raises, fun k hover => State.consume_of_lt k hover, fun hinside => ?answers⟩, ?refuses, ?example_⟩
  case raises =>
    obtain ⟨hwide, _⟩ | ⟨_, hover, e⟩ | ⟨_, hinside, e⟩ := s.readBits_cases n
    · omega
    · exact ⟨fun _ => hover, fun _ => e⟩
    · rw [e]
      exact ⟨nofun, fun h => absurd hinside (not_le.mpr h)⟩
  case answers =>
    have hlt := bitsToNat_lt (s.input.bits s.bp n)
    rw [Memory.bits_length] at hlt
    exact ⟨_, State.readBits_eq_next.mpr ⟨hmax, hinside, rfl, rfl⟩, hlt, Memory.bitsToNat_eq_sum ..⟩
  case refuses =>
    intro s n hwide
    exact if_pos hwide
  case example_ =>
    refine ⟨_, _, _, State.readBits_eq_next.mpr ⟨by decide, by decide, ?_, rfl⟩,
      State.readBits_eq_next.mpr ⟨by decide, by decide, ?_, rfl⟩, State.readBits_eq_next.mpr ⟨by decide, by decide, ?_, rfl⟩, rfl⟩ <;>
    decide +kernel

variable {s : State}

/-! ### Where the units are selected -/

theorem State.AtCandidate.selected (h : s.AtCandidate) : s.selected = some .header := by
  obtain ⟨hfsm, h0, b, h1, hb⟩ := h
  simp [State.selected, hfsm, State.seekSelected, h0, h1, seekShape, isCandidate, hb]

theorem State.selected_of_no_candidate {b : Byte} (hfsm : s.fsm = .seekSync) (h0 : s.input.read s.byteIndex = some b)
    (hnone : ∀ b1, s.input.read (s.byteIndex + 1) = some b1 → ¬ (b = 0xFF#8 ∧ 0xF0#8 ≤ b1)) : s.selected = some .skip := by
  have hshape : seekShape b (s.input.read (s.byteIndex + 1)) = .skip := by
    cases h1 : s.input.read (s.byteIndex + 1) with
    | none => rfl
    | some b1 =>
      have := hnone b1 h1
      simp only [seekShape, isCandidate, Bool.and_eq_true, decide_eq_true_eq, if_neg this]
  simp only [State.selected, hfsm, State.seekSelected, h0, hshape]

theorem State.selected_of_header (hfsm : s.fsm = .header) : s.selected = some .crc16 := by
  simp only [State.selected, hfsm]

theorem State.selected_of_layerDecode (hfsm : s.fsm = .layerDecode) : s.selected = s.bodySelected := by
  simp only [State.selected, hfsm]

theorem unitEffect_of_header {i : Instr} (h : i.shape = .header) : ∃ layer f, unitEffect i s = s.frame layer f := by
  cases i with
  | frameL1 f | frameL2 f | frameL3 f | frameRsv f => exact ⟨_, f, rfl⟩
  | _ => cases h

theorem exec_of_candidate {i : Instr} (hc : s.cfg.wf = true) (h : s.AtCandidate) (hi : i.shape = .header) :
    exec i s = .next (unitEffect i s) := exec_of_selected hc (hi ▸ h.selected)

/-! ### The frame units -/

/-- Settles O11: the test of the twenty header bits comes before the header stage. -/
theorem overrunningHeaderTakesMidFrameEof : Obligations.OverrunningHeaderTakesMidFrameEof := by
  intro i s hc hcandidate hi hover
  obtain ⟨layer, f, heffect⟩ := unitEffect_of_header (s := s) hi
  refine ⟨_, exec_of_candidate hc hcandidate hi, ?_⟩
  obtain ⟨_, e⟩ | ⟨hfit, _⟩ := s.frame_cases layer f
  · rw [heffect, e]; exact ⟨rfl, rfl⟩
  · omega

theorem exec_frame_faults {i : Instr} {layer : BitVec 2} {f : HdrFields} (hc : s.cfg.wf = true) (h : s.AtCandidate)
    (hi : i.shape = .header) (heffect : unitEffect i s = s.frame layer f) (hfit : 8 * s.byteIndex + 32 ≤ s.endBit)
    (hbad : s.cfg.layerKind layer = none ∨ f.br = 15#4 ∨ f.fs = 3#2) : ∃ t, exec i s = .next t ∧ FaultsInHeader layer f s t :=
  ⟨_, exec_of_candidate hc h hi, heffect ▸ State.frame_faults layer f s hfit hbad⟩

/-- Settles O12: an invalid index faults in the header stage of every layer code. -/
theorem invalidHeaderFieldTakesInvalidField : Obligations.InvalidHeaderFieldTakesInvalidField := by
  intro f s hc hcandidate hfit hbad i hi
  have hfault : ∃ layer t, exec i s = .next t ∧ FaultsInHeader layer f s t := by
    obtain rfl | rfl | rfl | rfl := hi <;> exact ⟨_, exec_frame_faults hc hcandidate rfl rfl hfit (.inr hbad)⟩
  obtain ⟨layer, t, hexec, hfsm, herr, _, hahead, _, hlatch, hframes, hnsamp, hsynth, hwork, hcfg, hin, hout⟩ := hfault
  exact ⟨t, hexec, hfsm, herr, hahead, hcfg, hlatch, hframes, hnsamp, hsynth, hwork, hin, hout⟩

theorem exec_frame_outcome {i : Instr} {layer : BitVec 2} {f : HdrFields} (hc : s.cfg.wf = true) (h : s.AtCandidate)
    (hi : i.shape = .header) (heffect : unitEffect i s = s.frame layer f) (hfit : 8 * s.byteIndex + 32 ≤ s.endBit)
    (hbr : f.br ≠ 15#4) (hfs : f.fs ≠ 3#2) : ∃ t, exec i s = .next t ∧ FrameOutcome layer f s t :=
  ⟨_, exec_of_candidate hc h hi, heffect ▸ State.frame_outcome layer f s hfit hbr hfs⟩

theorem FrameOutcome.entersFrame_l1 {layer : BitVec 2} {f : HdrFields} {t : State} (h : FrameOutcome layer f s t)
    (hk : s.cfg.layerKind layer = some .l1) : EntersFrame layer .l1 f s t := by simpa only [FrameOutcome, hk] using h

theorem FrameOutcome.entersFrame_l2 {layer : BitVec 2} {f : HdrFields} {t : State} (h : FrameOutcome layer f s t)
    (hk : s.cfg.layerKind layer = some .l2) : EntersFrame layer .l2 f s t := by simpa only [FrameOutcome, hk] using h

theorem FrameOutcome.entersStub {layer : BitVec 2} {f : HdrFields} {t : State} (h : FrameOutcome layer f s t)
    (hk : s.cfg.layerKind layer = some .l3) : EntersStub layer f s t := by simpa only [FrameOutcome, hk] using h

/-- Settles O14. -/
theorem frameL1EntersTheLayer1Body : Obligations.FrameL1EntersTheLayer1Body := by
  intro f s hc hcandidate hfit hbr hfs
  obtain ⟨t, hexec, hout⟩ := exec_frame_outcome hc hcandidate (i := .frameL1 f) rfl rfl hfit hbr hfs
  exact ⟨t, hexec, hout.entersFrame_l1, hout⟩

/-- Settles O15. -/
theorem frameL2EntersTheLayer2Body : Obligations.FrameL2EntersTheLayer2Body := by
  intro f s hc hcandidate hfit hbr hfs
  obtain ⟨t, hexec, hout⟩ := exec_frame_outcome hc hcandidate (i := .frameL2 f) rfl rfl hfit hbr hfs
  exact ⟨t, hexec, hout.entersFrame_l2, hout⟩

/-- Settles O16. -/
theorem frameL3IsTheStub : Obligations.FrameL3IsTheStub := by
  intro f s hc hcandidate hfit hbr hfs
  obtain ⟨t, hexec, hout⟩ := exec_frame_outcome hc hcandidate (i := .frameL3 f) rfl rfl hfit hbr hfs
  exact ⟨t, hexec, hout.entersStub, hout⟩

/-- Settles O17: a reserved layer faults whatever the other fields are. -/
theorem frameRsvTakesInvalidField : Obligations.FrameRsvTakesInvalidField := by
  intro f s hc hcandidate hfit
  exact ⟨_, exec_of_candidate hc hcandidate rfl, fun hl => State.frame_faults _ f s hfit (.inl hl),
    State.frame_outcome _ f s hfit⟩

/-! ### `CRC16` and `SKIP` -/

/-- Settles O18: behind the sixteen bits the header stage ends as it does without them. -/
theorem crc16IsDroppedAndTheFrameGoesOn : Obligations.Crc16IsDroppedAndTheFrameGoesOn := by
  intro c s hc hfsm hfit
  have hexec : ∀ c', exec (.crc16 c') s = .next (s.advance 16).finishHeader := fun c' => by
    rw [exec_of_selected (i := .crc16 c') hc (State.selected_of_header hfsm)]
    exact congrArg _ (State.consume_of_le _ hfit)
  obtain ⟨hbp, hinput, hframes, hnsamp, hout, hsynth, herr⟩ := (s.advance 16).finishHeader_same
  refine ⟨_, hexec c, hbp, State.finishHeader_ahead _, ?_, ⟨State.finishHeader_cfg _, ?_, ?_, hframes, hnsamp, herr, hsynth⟩,
    fun c' => (hexec c').trans (hexec c).symm, fun hstub => ?_, fun hbody => ?_⟩
  · obtain ⟨_, e⟩ | ⟨_, e⟩ := (s.advance 16).finishHeader_cases <;> rw [e] <;> simp
  · rw [hinput]; exact SameBytes.refl _
  · rw [hout]; exact SameBytes.refl _
  · obtain ⟨_, e⟩ | ⟨hne, _⟩ := (s.advance 16).finishHeader_cases
    · rw [e]; exact ⟨rfl, rfl, rfl⟩
    · exact absurd hstub hne
  · exact (State.finishHeader_entersBody s (s.advance 16) hbody rfl rfl rfl).1

theorem Instr.eq_skip_of_shape {i : Instr} (h : i.shape = .skip) : ∃ x, i = .skip x := by
  cases i with
  | skip x => exact ⟨x, rfl⟩
  | _ => cases h

/-- Settles O13: a skipped byte needs no read, so it runs in any configuration. -/
theorem skipMovesTheCursorAlone : Obligations.SkipMovesTheCursorAlone := by
  intro s b hfsm h0 hnone
  have hsel := State.selected_of_no_candidate hfsm h0 hnone
  have htests : s.testsSuccessor = decide (b = 0xFF#8 ∧ s.byteIndex + 1 < s.input.size) := by
    simp only [State.testsSuccessor, h0, Option.some.injEq, Bool.decide_and]
  have hexec : ∀ x, exec (.skip x) s =
      .next { s with bp := 8 * (s.byteIndex + 1), ahead := decide (b = 0xFF#8 ∧ s.byteIndex + 1 < s.input.size) } := by
    intro x
    rw [exec_of_readWidth hsel (Nat.zero_le _), ← htests]
    rfl
  refine ⟨hexec, ?_, ?_⟩
  · obtain ⟨i, hi, hstep⟩ := step_eq_exec_of_selected hsel rfl
    obtain ⟨x, rfl⟩ := Instr.eq_skip_of_shape hi
    rw [hstep, hexec]
  · have hbyte : (8 * (s.byteIndex + 1) + 7) / 8 = s.byteIndex + 1 := by omega
    by_cases hmark : b = 0xFF#8 ∧ s.byteIndex + 1 < s.input.size
    · simp [State.pulled, hbyte, hmark]
    · simp only [State.pulled, hbyte, decide_eq_false hmark, if_neg hmark]
      simp

/-! ### Every unit -/

/-- Settles O7. -/
theorem unitRunsExactlyWhereSelected : Obligations.UnitRunsExactlyWhereSelected := by
  intro i s
  refine ⟨fun hc hsel => ⟨_, exec_of_selected hc hsel⟩, fun hne => ?_⟩
  rw [exec_eq_whenSelected]
  exact whenSelected_of_ne _ hne

/-- Settles O8: the fetch decodes the bits at the cursor in the selected shape, and bits that decode are the unit's encoding. -/
theorem stepRunsTheDecodedUnit : Obligations.StepRunsTheDecodedUnit := by
  intro s i hstage hfetch
  obtain ⟨hsel, hdecode⟩ := State.fetch_eq_some hfetch
  obtain ⟨hwf, _, hbits⟩ := encodeOfDecodeIsTheBits _ _ _ hdecode
  exact ⟨step_of_fetch hstage hfetch, hwf, hsel, hbits⟩

/-- Settles O10: outside the scan every unit tests its own bits against the end of the input first. -/
theorem overrunningElementTakesMidFrameEof : Obligations.OverrunningElementTakesMidFrameEof := by
  intro i s hc hsel hskip hheader hover
  rw [exec_of_selected hc hsel]
  congr 1
  obtain ⟨_, hscan | hscan, _⟩ | ⟨_, hcrc⟩ | ⟨_, hbody⟩ | ⟨_, hpad⟩ := State.selected_cases hsel
  · exact absurd hscan hskip
  · exact absurd hscan hheader
  · cases i with
    | crc16 c => exact State.consume_of_lt _ hover
    | _ => cases hcrc
  · obtain ⟨_, e⟩ | ⟨hfit, _⟩ := unitEffect_body hbody
    · exact e
    · omega
  · obtain ⟨z, rfl⟩ := Instr.eq_padBits_of_shape hpad
    exact State.consume_of_lt _ hover

theorem step_of_terminal (h : s.fsm = .done ∨ s.fsm = .error) : step s = .next s := by
  have hstage : s.stage = some (.next s) := by obtain h | h := h <;> simp only [State.stage, h]
  rw [step, hstage]

/-- Settles O9. -/
theorem raiseWritesCodeAndStops : Obligations.RaiseWritesCodeAndStops :=
  fun _ _ => ⟨rfl, step_of_terminal (.inr rfl), rfl⟩

/-- Settles O32. -/
theorem endOfInputWhileSeekingEndsCleanly : Obligations.EndOfInputWhileSeekingEndsCleanly := by
  intro s hfsm hend
  have hstage : s.stage = some (.next s.endRun) := by simp only [State.stage, hfsm, if_neg (not_lt.mpr hend)]
  exact ⟨by rw [step, hstage]; rfl, fun t ht => step_of_terminal ht⟩

end Sys2Proof.Machine
end

section
/-! The elements of a frame body (43_layer1.md, 44_layer2.md): where each is selected, the state it leads to when the input holds its
bits, and what it writes. -/

namespace Sys2Proof.Machine

variable {s : State} {c : SubCh} {gr : Fin 12} {k : Fin 3} {got : List (BitVec 6)}

/-! ### The part of the body at a position -/

section Consume

variable {n : Nat} (hfit : s.bp + n ≤ s.endBit)
include hfit

theorem State.consume_atAlloc {f : State → SubCh → State} (h : s.pos = .alloc c) :
    s.consume n (fun s => s.atAlloc (f s)) = f (s.advance n) c := by
  simp only [State.consume_of_le _ hfit, State.atAlloc, State.advance_pos, h]

theorem State.consume_atScfsi {f : State → SubCh → State} (h : s.pos = .scfsi c) :
    s.consume n (fun s => s.atScfsi (f s)) = f (s.advance n) c := by
  simp only [State.consume_of_le _ hfit, State.atScfsi, State.advance_pos, h]

theorem State.consume_atScf {f : State → SubCh → List (BitVec 6) → State} (h : s.pos = .scf c got) :
    s.consume n (fun s => s.atScf (f s)) = f (s.advance n) c got := by
  simp only [State.consume_of_le _ hfit, State.atScf, State.advance_pos, h]

theorem State.consume_atSample {f : State → Fin 12 → SubCh → Fin 3 → State} (h : s.pos = .sample gr c k) :
    s.consume n (fun s => s.atSample (f s)) = f (s.advance n) gr c k := by
  simp only [State.consume_of_le _ hfit, State.atSample, State.advance_pos, h]

end Consume

theorem exec_of_bodySelected {i : Instr} {t : State} (hc : s.cfg.wf = true) (hfsm : s.fsm = .layerDecode)
    (hsel : s.bodySelected = some i.shape) (ht : unitEffect i s = t) : exec i s = .next t := by
  rw [exec_of_selected hc ((State.selected_of_layerDecode hfsm).trans hsel), ht]

/-! ### The searches leave the working registers -/

theorem State.seekScf_work (s : State) (n : Nat) : (s.seekScf n).work = s.work := by
  obtain ⟨_, _, e⟩ := s.seekScf_goto n
  rw [e]; rfl

theorem State.seekScfsi_work (s : State) (n : Nat) : (s.seekScfsi n).work = s.work := by
  obtain ⟨_, _, e⟩ := s.seekScfsi_goto n
  rw [e]; rfl

theorem State.seekSample_work (s : State) (gr : Fin 12) (n : Nat) : (s.seekSample gr n).work = s.work := by
  obtain ⟨_, _, e⟩ := s.seekSample_goto gr n
  rw [e]; rfl

/-! ### Allocation and SCFSI -/

/-- Settles O19. -/
theorem l1AllocWritesTheCode : Obligations.L1AllocWritesTheCode := by
  intro a s c hc hfsm hk hp hn hfit
  have heffect : unitEffect (.l1Alloc a) s = ((s.advance 4).storeAlloc c a).seekAlloc (c.index + 1) := by
    rw [unitEffect, State.consume_atAlloc hfit hp]
  exact ⟨_, exec_of_bodySelected hc hfsm (by simp only [State.bodySelected, hk, hp, Instr.shape]) heffect,
    (BodyStep.l1Alloc (s := s.advance _) a c hk hp).elementRead, s.storeAlloc_seekAlloc c a 4 _ hn rfl⟩

/-- Settles O25. -/
theorem l2AllocWritesTheCode : Obligations.L2AllocWritesTheCode := by
  intro a s c hc hfsm hk hp hn w hfit
  have heffect : unitEffect (.l2Alloc w a) s = ((s.advance w).storeAlloc c a).seekAlloc (c.index + 1) := by
    rw [unitEffect, State.consume_atAlloc hfit hp]
  exact ⟨_, exec_of_bodySelected hc hfsm (by simp only [State.bodySelected, hk, hp, Instr.shape, w]) heffect,
    (BodyStep.l2Alloc (s := s.advance _) a c hk hp).elementRead, s.storeAlloc_seekAlloc c a w _ hn rfl⟩

/-- Settles O26. -/
theorem l2ScfsiWritesTheCode : Obligations.L2ScfsiWritesTheCode := by
  intro x s c hc hfsm hk hp hfit
  have heffect : unitEffect (.l2Scfsi x) s = ((s.advance 2).withWork (s.work.setScfsi c.ch c.sb x)).seekScfsi (c.index + 1) := by
    rw [unitEffect, State.consume_atScfsi hfit hp, State.advance_work]
  refine ⟨_, exec_of_bodySelected hc hfsm (by simp only [State.bodySelected, hk, hp, Instr.shape]) heffect,
    (BodyStep.l2Scfsi (s := s.advance _) x c hk hp).elementRead, ?_, ?_⟩
  · rw [State.seekScfsi_work]
    exact ⟨rfl, rfl, rfl, rfl, rfl, rfl⟩
  · intro ch sb
    rw [State.seekScfsi_work, State.withWork_work, WorkRegs.scfsiAt_setScfsi]
    exact ⟨fun h => if_pos h, fun h => if_neg h⟩

/-! ### The subband-channels of an allocation part (43_layer1.md R151) -/

theorem State.hasAlloc_channel_zero (hk : s.hdr.kind = .l1) (sb : Fin 32) : s.hasAlloc ⟨sb, 0⟩ = true := by
  have hmem := s.zero_mem_channels
  simp [State.hasAlloc, State.inBody, State.hasOwnElement, State.subbandLimit, hk, hmem]

theorem State.hasAlloc_channel_one (hk : s.hdr.kind = .l1) (sb : Fin 32) :
    s.hasAlloc ⟨sb, 1⟩ = decide (s.latch.nch = 2 ∧ sb.val < s.hdr.bound) := by
  have hjoint : s.joint sb = !decide (sb.val < s.hdr.bound) := by simp only [State.joint, ← decide_not, not_lt]
  obtain ⟨hn, hch⟩ | ⟨hn, hch⟩ := s.channels_cases <;>
    simp [State.hasAlloc, State.inBody, State.hasOwnElement, State.subbandLimit, hjoint, hk, hn, hch]

theorem SubCh.ofIndex_two_mul {n : Nat} (h : n < 32) : SubCh.ofIndex (2 * n) = ⟨⟨n, h⟩, 0⟩ := SubCh.ofIndex_index ⟨⟨n, h⟩, 0⟩

theorem SubCh.ofIndex_two_mul_succ {n : Nat} (h : n < 32) : SubCh.ofIndex (2 * n + 1) = ⟨⟨n, h⟩, 1⟩ :=
  SubCh.ofIndex_index ⟨⟨n, h⟩, 1⟩

/-- The first `n` subbands have an element for each channel below the bound, one from the bound on. -/
theorem State.countP_hasAlloc (hk : s.hdr.kind = .l1) (hn : IsChannelCount s.latch.nch) (n : Nat) (h : n ≤ 32) :
    (List.range (2 * n)).countP (fun i => s.hasAlloc (SubCh.ofIndex i)) =
      s.latch.nch * min s.hdr.bound n + (n - min s.hdr.bound n) := by
  induction n with
  | zero => simp
  | succ n ih =>
    have hlt : n < 32 := h
    rw [Nat.mul_succ, List.range_succ, List.range_succ, List.countP_append, List.countP_append, ih hlt.le, List.countP_singleton,
      List.countP_singleton, SubCh.ofIndex_two_mul hlt, SubCh.ofIndex_two_mul_succ hlt, State.hasAlloc_channel_zero hk,
      State.hasAlloc_channel_one hk]
    obtain hn | hn := hn <;> by_cases hb : n < s.hdr.bound <;> simp [hn, hb] <;> omega

/-- Settles O23: the first 32 subbands. -/
theorem layer1AllocationPartLength : Obligations.Layer1AllocationPartLength := by
  intro s hk hn
  rw [SubCh.order, ← List.countP_eq_length_filter, List.countP_map]
  exact State.countP_hasAlloc hk hn 32 le_rfl

/-! ### Scale factors -/

/-- Settles O20. -/
theorem l1ScfWritesTheIndexOrFaults : Obligations.L1ScfWritesTheIndexOrFaults := by
  intro x s c got hc hfsm hk hp hfit
  have hsel : s.bodySelected = some .l1Scf := by simp only [State.bodySelected, hk, hp]
  have heffect : unitEffect (.l1Scf x) s =
      if x = 63#6 then (s.advance 6).raise .invalidField
      else ((s.advance 6).withWork (s.work.setScfIdx c.ch c.sb 0 x)).seekScf (c.index + 1) := by
    rw [unitEffect, State.consume_atScf hfit hp, State.advance_work]
  refine ⟨fun hx => ?_, fun hx => ?_⟩
  · refine ⟨_, exec_of_bodySelected (i := .l1Scf x) hc hfsm hsel (heffect.trans (if_neg hx)),
      (BodyStep.l1Scf (s := s.advance _) x c got hk hp hx).elementRead, ?_, ?_⟩
    · rw [State.seekScf_work]
      exact ⟨rfl, rfl, rfl, rfl, rfl, rfl⟩
    · intro ch sb p
      rw [State.seekScf_work, State.withWork_work, WorkRegs.scfIdxAt_setScfIdx]
      exact ⟨fun h => if_pos h, fun h => if_neg h⟩
  · exact exec_of_bodySelected (i := .l1Scf x) hc hfsm hsel (heffect.trans (if_pos hx))

theorem State.storeScfIdx_scfIdxAt (s : State) (c : SubCh) (p : BitVec 6 × BitVec 6 × BitVec 6) :
    ((s.storeScfIdx c p).work.scfIdxAt c.ch c.sb 0, (s.storeScfIdx c p).work.scfIdxAt c.ch c.sb 1,
      (s.storeScfIdx c p).work.scfIdxAt c.ch c.sb 2) = p := by
  simp [State.storeScfIdx, WorkRegs.scfIdxAt_setScfIdx]

theorem State.storeScfIdx_scfIdxAt_of_ne (s : State) (p : BitVec 6 × BitVec 6 × BitVec 6) {ch : Fin 2} {sb : Fin 32}
    (h : ¬ (ch = c.ch ∧ sb = c.sb)) (k : Fin 3) : (s.storeScfIdx c p).work.scfIdxAt ch sb k = s.work.scfIdxAt ch sb k := by
  simp only [State.storeScfIdx, State.withWork_work, WorkRegs.scfIdxAt_setScfIdx, ← and_assoc, h, false_and, if_false]

/-- Settles O28: the three cases are the three branches of the unit's meaning. -/
theorem l2ScfWritesThePatternOrFaults : Obligations.L2ScfWritesThePatternOrFaults := by
  intro x s c got hc hfsm hk hp hfit code all
  have hsel : s.bodySelected = some .l2Scf := by simp only [State.bodySelected, hk, hp]
  have heffect : unitEffect (.l2Scf x) s =
      if all.length < scfsiCount code then (s.advance 6).goto .layerDecode (.scf c all)
      else if all.contains 63#6 then (s.advance 6).raise .invalidField
      else ((s.advance 6).storeScfIdx c (scfsiPattern code all)).seekScf (c.index + 1) := by
    rw [unitEffect, State.consume_atScf hfit hp]
    rfl
  refine ⟨fun hmore => ?_, fun hlast hbad => ?_, fun hlast hgood => ?_⟩
  · refine exec_of_bodySelected (i := .l2Scf x) hc hfsm hsel ((heffect.trans (if_pos hmore)).trans ?_)
    rw [State.goto, ← hfsm]
    rfl
  · exact exec_of_bodySelected (i := .l2Scf x) hc hfsm hsel
      ((heffect.trans (if_neg (not_lt.mpr hlast))).trans (if_pos (List.contains_iff_mem.mpr hbad)))
  · have hgood' : ¬ all.contains 63#6 = true := fun h => hgood (List.contains_iff_mem.mp h)
    refine ⟨_, exec_of_bodySelected (i := .l2Scf x) hc hfsm hsel
      ((heffect.trans (if_neg (not_lt.mpr hlast))).trans (if_neg hgood')),
      (BodyStep.l2ScfLast (s := s.advance _) x c got hk hp hlast hgood).elementRead, ?_, ?_, ?_⟩
    · rw [State.seekScf_work]
      exact ⟨rfl, rfl, rfl, rfl, rfl, rfl⟩
    · rw [State.seekScf_work, State.storeScfIdx_scfIdxAt]
    · intro ch sb p hne
      rw [State.seekScf_work, State.storeScfIdx_scfIdxAt_of_ne _ _ hne, State.advance_work]

/-! ### Samples -/

section Store

variable {t t' : Fin 36} {p : Fin 3} {f : NumVal} {ch : Fin 2} {sb : Fin 32}

theorem State.storeSample_written (hn : IsChannelCount s.latch.nch) (hw : s.Writes c ch) :
    (s.storeSample c t p f).work.sampleAt ch c.sb t = s.cfg.num.mul f (scf s.cfg.num (s.work.scfIdxAt ch c.sb p)) := by
  rw [State.storeSample_sampleAt, if_pos ⟨rfl, (s.mem_targets c ch hn).mpr hw, rfl⟩]

theorem State.storeSample_unwritten (hn : IsChannelCount s.latch.nch) (h : ¬ (sb = c.sb ∧ s.Writes c ch ∧ t' = t)) :
    (s.storeSample c t p f).work.sampleAt ch sb t' = s.work.sampleAt ch sb t' := by
  rw [State.storeSample_sampleAt, if_neg (by rwa [s.mem_targets c ch hn])]

theorem State.storeSample_scfIdxAt : (s.storeSample c t p f).work.scfIdxAt = s.work.scfIdxAt := by
  obtain ⟨_, _, hscfIdx, _⟩ := s.storeSample_other c t p f
  funext
  simp only [WorkRegs.scfIdxAt, hscfIdx]

theorem SameButSample.trans {u v w : WorkRegs} (huv : SameButSample u v) (hvw : SameButSample v w) : SameButSample u w := by
  obtain ⟨ha, hb, hc, hd, he, hf⟩ := huv
  obtain ⟨ha', hb', hc', hd', he', hf'⟩ := hvw
  exact ⟨ha'.trans ha, hb'.trans hb, hc'.trans hc, hd'.trans hd, he'.trans he, hf'.trans hf⟩

theorem scaleSlot_of_val {p : Fin 3} (h : p.val = gr.val / 4) : scaleSlot gr = p := Fin.ext h.symm

theorem groupSlot_of_val {j : Fin 36} {e : Fin 3} (h : j.val = 3 * gr.val + e.val) : groupSlot gr e = j := Fin.ext h.symm

end Store

/-- Settles O21: the entries of the scale-factor table are `NumFormat.scaleFactor_spec`, those of the default format computed. -/
theorem l1SampleWritesTheScaledFraction : Obligations.L1SampleWritesTheScaledFraction := by
  refine ⟨?unit, fun f i hf _ => NumFormat.scaleFactor_spec hf i.toNat, by decide +kernel⟩
  case unit =>
    intro v s t c k hc hfsm hk hp hn n hfit
    have heffect : unitEffect (.l1Sample (n + 1) v) s =
        ((s.advance (n + 1)).storeSample c (t.castLE (by decide)) 0 (deq1 s.cfg.num v.toNat n)).seekSample t (c.index + 1) := by
      rw [unitEffect, State.consume_atSample hfit hp]
      rfl
    refine ⟨_, exec_of_bodySelected hc hfsm (by simp only [State.bodySelected, hk, hp, Instr.shape, n]) heffect,
      (BodyStep.l1Sample (s := s.advance _) v t c k hk hp).elementRead, ?_, fun ch sb j => ⟨?_, fun hne => ?_⟩⟩
    · rw [State.seekSample_work]
      exact State.storeSample_other ..
    · rintro ⟨rfl, hw, hj⟩
      obtain rfl : j = t.castLE (by decide) := Fin.ext hj
      rw [State.seekSample_work]
      exact State.storeSample_written (s := s.advance (n + 1)) hn hw
    · rw [State.seekSample_work]
      exact State.storeSample_unwritten (s := s.advance (n + 1)) hn
        fun ⟨hsb, hw, hj⟩ => hne ⟨hsb, hw, congrArg Fin.val hj⟩

/-- Settles O29: the element before the last of its triple stays at its subband-channel, the last one searches the next. -/
theorem l2SampleWritesTheScaledFraction : Obligations.L2SampleWritesTheScaledFraction := by
  intro v s gr c k hc hfsm hk hp hn q hg hfit
  have hsel : s.bodySelected = some (.l2Sample q.bits) := by
    simp only [State.bodySelected, hk, hp, State.classOf]
    exact if_neg (by simp [q, hg])
  let stored := (s.advance q.bits).storeSample c (groupSlot gr k) (scaleSlot gr) (deq2 s.cfg.num v.toNat q)
  have heffect : unitEffect (.l2Sample q.bits v) s =
      if h : k.val + 1 < 3 then stored.goto .layerDecode (.sample gr c ⟨k.val + 1, h⟩) else stored.seekSample gr (c.index + 1) := by
    rw [unitEffect, State.consume_atSample hfit hp]
    rfl
  obtain ⟨t, ht, hbody, hwork, hmore⟩ : ∃ t, unitEffect (.l2Sample q.bits v) s = t ∧
      BodyStep (s.advance q.bits) (.l2Sample q.bits v) t ∧ t.work = stored.work ∧
      (k.val < 2 → t.fsm = .layerDecode ∧ t.pos = .sample gr c (k + 1)) := by
    by_cases hmore : k.val + 1 < 3
    · refine ⟨_, heffect.trans (dif_pos hmore), .l2SampleMore v gr c k hmore hk hp hg, rfl,
        fun _ => ⟨rfl, congrArg (Pos.sample gr c) (Fin.ext ?_)⟩⟩
      rw [Fin.val_add]
      exact (Nat.mod_eq_of_lt hmore).symm
    · exact ⟨_, heffect.trans (dif_neg hmore), .l2SampleLast v gr c k hk hp hmore hg, State.seekSample_work ..,
        fun hlt => absurd hlt (by omega)⟩
  refine ⟨t, exec_of_bodySelected (i := .l2Sample q.bits v) hc hfsm hsel ht, hbody.elementRead, ?_, hmore,
    fun ch sb j p hscale => ⟨?_, fun hne => ?_⟩⟩ <;> rw [hwork]
  · exact State.storeSample_other ..
  · rintro ⟨rfl, hw, hj⟩
    rw [← groupSlot_of_val hj, ← scaleSlot_of_val hscale]
    exact State.storeSample_written (s := s.advance q.bits) hn hw
  · exact State.storeSample_unwritten (s := s.advance q.bits) hn fun ⟨hsb, hw, hj⟩ => hne ⟨hsb, hw, congrArg Fin.val hj⟩

/-! ### Grouped samples (44_layer2.md R180) -/

/-- The three codes of a group written to its three time slots. -/
def State.storeTriple (s : State) (c : SubCh) (gr : Fin 12) (p : Fin 3) (f : Fin 3 → NumVal) : State :=
  ((s.storeSample c (groupSlot gr 0) p (f 0)).storeSample c (groupSlot gr 1) p (f 1)).storeSample c (groupSlot gr 2) p (f 2)

section Triple

variable {p : Fin 3} {f : Fin 3 → NumVal} {ch : Fin 2} {sb : Fin 32} {j : Fin 36}

theorem State.storeTriple_other : SameButSample s.work (s.storeTriple c gr p f).work :=
  (SameButSample.trans (State.storeSample_other ..) (State.storeSample_other ..)).trans (State.storeSample_other ..)

theorem groupSlot_ne {e e' : Fin 3} (h : e ≠ e') : groupSlot gr e ≠ groupSlot gr e' := by
  simp only [groupSlot, ne_eq, Fin.mk.injEq]
  omega

theorem State.storeTriple_written (hn : IsChannelCount s.latch.nch) (hw : s.Writes c ch) (e : Fin 3) :
    (s.storeTriple c gr p f).work.sampleAt ch c.sb (groupSlot gr e) =
      s.cfg.num.mul (f e) (scf s.cfg.num (s.work.scfIdxAt ch c.sb p)) := by
  let s1 := s.storeSample c (groupSlot gr 0) p (f 0)
  let s2 := s1.storeSample c (groupSlot gr 1) p (f 1)
  have other {u : State} {i e : Fin 3} (hu : IsChannelCount u.latch.nch) (h : e ≠ i) :
      (u.storeSample c (groupSlot gr i) p (f i)).work.sampleAt ch c.sb (groupSlot gr e) = u.work.sampleAt ch c.sb (groupSlot gr e) :=
    State.storeSample_unwritten hu fun ⟨_, _, hj⟩ => groupSlot_ne h hj
  match e with
  | 0 =>
    calc _ = s2.work.sampleAt ch c.sb (groupSlot gr 0) := other (u := s2) hn (by decide)
      _ = s1.work.sampleAt ch c.sb (groupSlot gr 0) := other (u := s1) hn (by decide)
      _ = _ := State.storeSample_written hn hw
  | 1 =>
    calc _ = s2.work.sampleAt ch c.sb (groupSlot gr 1) := other (u := s2) hn (by decide)
      _ = _ := State.storeSample_written (s := s1) hn hw
      _ = _ := by rw [State.storeSample_scfIdxAt]; rfl
  | 2 =>
    calc _ = _ := State.storeSample_written (s := s2) hn hw
      _ = _ := by rw [State.storeSample_scfIdxAt, State.storeSample_scfIdxAt]; rfl

theorem State.storeTriple_unwritten (hn : IsChannelCount s.latch.nch) (h : ¬ (sb = c.sb ∧ s.Writes c ch ∧ j.val / 3 = gr.val)) :
    (s.storeTriple c gr p f).work.sampleAt ch sb j = s.work.sampleAt ch sb j := by
  have outside (e : Fin 3) : ¬ (sb = c.sb ∧ s.Writes c ch ∧ j = groupSlot gr e) := by
    rintro ⟨hsb, hw, rfl⟩
    exact h ⟨hsb, hw, by simp only [groupSlot]; omega⟩
  let s1 := s.storeSample c (groupSlot gr 0) p (f 0)
  let s2 := s1.storeSample c (groupSlot gr 1) p (f 1)
  calc _ = s2.work.sampleAt ch sb j := State.storeSample_unwritten (s := s2) hn (outside 2)
    _ = s1.work.sampleAt ch sb j := State.storeSample_unwritten (s := s1) hn (outside 1)
    _ = _ := State.storeSample_unwritten hn (outside 0)

theorem demux_eq (levels x : Nat) :
    demux levels x = (x / levels ^ 0 % levels, x / levels ^ 1 % levels, x / levels ^ 2 % levels) := by
  simp only [demux, pow_zero, Nat.div_one, pow_one, pow_two, Nat.div_div_eq_div_mul]

end Triple

theorem deq2_fraction {f : NumFormat} {q : QuantClass} {j v : Nat} (hT : q.T = 2 ^ j) (h : f.HasFractions j) (hv : v < 2 * q.T) :
    let x := f.ofRatio ((v : Int) - q.T) q.T
    deq2 f v q = f.mul (f.add x (q.D.toNum f)) (q.C.toNum f) ∧ f.isNumber x = true ∧
      x.units * q.T = ((v : Int) - q.T) * 2 ^ f.scale := by
  have hcast : (q.T : Int) = 2 ^ j := by rw [hT]; push_cast; rfl
  have hz : ((v : Int) - q.T).natAbs ≤ 2 ^ j := by omega
  have hx : f.ofRatio ((v : Int) - q.T) q.T = f.fraction j ((v : Int) - q.T) :=
    h.ofRatio hz (by rw [hT]; positivity) (by rw [hcast])
  rw [hx]
  exact ⟨deq2_of_power hT h hv, h.isNumber hz, by rw [← h.units, hcast]⟩

/-- Settles O30: the unit writes a triple; the default tables are seventeen rows of numbers, computed. -/
theorem l2GroupWritesThreeScaledFractions : Obligations.L2GroupWritesThreeScaledFractions := by
  refine ⟨?unit, fun f q j v hT hp hs hl hv => deq2_fraction hT ⟨hp, hs, hl⟩ hv, by decide +kernel⟩
  case unit =>
    intro x s gr c k hc hfsm hk hp hn q hg hfit
    have hsel : s.bodySelected = some (.l2Group q.bits) := by
      simp only [State.bodySelected, hk, hp, State.classOf]
      exact if_pos hg
    let codes := fun e : Fin 3 => deq2 s.cfg.num (x.toNat / q.levels ^ e.val % q.levels) q
    have heffect : unitEffect (.l2Group q.bits x) s =
        ((s.advance q.bits).storeTriple c gr (scaleSlot gr) codes).seekSample gr (c.index + 1) := by
      simp only [unitEffect, State.consume_atSample hfit hp, demux_eq]
      rfl
    have hbody := BodyStep.l2Group (s := s.advance q.bits) x gr c k hk hp hg
    rw [demux_eq] at hbody
    refine ⟨_, exec_of_bodySelected (i := .l2Group q.bits x) hc hfsm hsel heffect, hbody.elementRead, ?_,
      fun ch sb j p hscale => ⟨fun e he => ?_, fun hne => ?_⟩⟩
    · rw [State.seekSample_work]
      exact State.storeTriple_other (s := s.advance q.bits)
    · rintro ⟨rfl, hw, hj⟩
      rw [State.seekSample_work, ← groupSlot_of_val (e := ⟨e, he⟩) hj, ← scaleSlot_of_val hscale]
      exact State.storeTriple_written (s := s.advance q.bits) (f := codes) hn hw ⟨e, he⟩
    · rw [State.seekSample_work]
      exact State.storeTriple_unwritten (s := s.advance q.bits) hn hne

end Sys2Proof.Machine
end

section
/-! Consistency (00_scope.md section 5, 10_state.md): what every state of a run satisfies is a part about the registers that outlive a
frame and a part about the stage; each kind of step keeps both. -/

namespace Sys2Proof.Machine

/-- The part of `Consistent` about the registers that outlive a frame, by those registers: an update of any other leaves it. -/
structure RunOk (cfg : Config) (input : Memory) (bp : Nat) (latch : StreamLatch) (frames nsamp : Nat) (synth : Bank SynthChannel 2)
    (out : Memory) : Prop where
  configWf : cfg.wf = true
  inputWf : input.wf = true
  outWf : out.wf = true
  cursorInside : bp ≤ 8 * input.size
  voffMultiple : ∀ ch, (synth.get ch).voff.toNat % 64 = 0
  outLength : out.size = 2 * latch.nch * nsamp
  latchedValues : latch.latched = true → IsSamplingFrequency latch.fs ∧ IsChannelCount latch.nch
  unlatched : latch.latched = false → nsamp = 0 ∧ frames = 0
  framesCounted : 384 * frames ≤ nsamp

abbrev State.RunOk (s : State) : Prop := Machine.RunOk s.cfg s.input s.bp s.latch s.frames s.nsamp s.synth s.out

/-- The part of `Consistent` about the stage the block is in. -/
def State.StageOk (s : State) : Prop :=
  match s.fsm with
  | .seekSync => s.errCode = .none ∧ s.bp % 8 = 0 ∧ (s.ahead = true → s.byteIndex < s.input.size)
  | .header => s.errCode = .none ∧ s.ahead = false ∧ s.bp % 8 = 0 ∧ s.hdr.Resolved
  | .layerDecode => s.errCode = .none ∧ s.ahead = false ∧ s.InFrame ∧ s.PositionInBody
  | .synth => s.errCode = .none ∧ s.ahead = false ∧ s.InFrame ∧
      ∃ t : Fin 36, s.pos = .slot t ∧ t.val < s.slotCount ∧ 384 * s.frames + 32 * t.val ≤ s.nsamp
  | .align => s.errCode = .none ∧ s.ahead = false ∧ s.InFrame ∧ 384 * (s.frames + 1) ≤ s.nsamp
  | .done => s.errCode = .none ∧ s.ahead = false
  | .error => s.errCode ≠ .none ∧ s.ahead = false

theorem consistent_iff {s : State} : Consistent s ↔ s.RunOk ∧ s.StageOk := by
  constructor
  · rintro ⟨hcfg, hin, hout, hbp, haligned, hahead, hvoff, hlen, hlatched, hunlatched, herr, hheader, hbody, hsynth, halign, hframes⟩
    refine ⟨⟨hcfg, hin, hout, hbp, hvoff, hlen, hlatched, hunlatched, hframes⟩, ?_⟩
    cases hf : s.fsm <;> simp_all [State.StageOk]
  · rintro ⟨⟨hcfg, hin, hout, hbp, hvoff, hlen, hlatched, hunlatched, hframes⟩, hstage⟩
    unfold State.StageOk at hstage
    refine ⟨hcfg, hin, hout, hbp, ?_, ?_, hvoff, hlen, hlatched, hunlatched, ?_, ?_, ?_, ?_, ?_, hframes⟩ <;>
      cases hf : s.fsm <;> simp_all

variable {s t u : State}

theorem Consistent.runOk (h : Consistent s) : s.RunOk := (consistent_iff.mp h).1

theorem Consistent.stage (h : Consistent s) {f : Fsm} (hf : s.fsm = f) : { s with fsm := f }.StageOk := by
  subst hf
  exact (consistent_iff.mp h).2

theorem Consistent.ahead_eq_false (h : Consistent s) (hf : s.fsm ≠ .seekSync) : s.ahead = false := by
  by_contra hne
  exact hf (h.aheadInScan (by simpa using hne)).1

/-- Outside `ERROR` no exception has been raised. -/
theorem Consistent.errCode_eq_none (h : Consistent s) (hf : s.fsm ≠ .error) : s.errCode = .none := h.errCodeIff.mpr hf

/-! ### The start of a run -/

theorem consistent_startWith {c : Config} (hc : c.wf = true) {input : Memory} (hin : input.wf = true) :
    Consistent { State.reset with cfg := c, input := input } := by
  refine consistent_iff.mpr ⟨⟨hc, hin, Memory.empty_wf, Nat.zero_le _, fun ch => ?_, rfl, nofun, fun _ => ⟨rfl, rfl⟩, le_rfl⟩,
    rfl, rfl, nofun⟩
  simp only [State.reset, Bank.get_fill]
  rfl

/-- Settles O46: every start is the reset state with well-formed parameters and a canonical input. -/
theorem everyRunStartsConsistent : Obligations.EveryRunStartsConsistent := by
  have hdefault : Config.default.wf = true := by decide +kernel
  have hofBytes (bytes : List Byte) := Memory.ofBytes_wf bytes
  exact ⟨consistent_startWith hdefault Memory.empty_wf, fun input => consistent_startWith hdefault (hofBytes input),
    fun c input hc => consistent_startWith hc (hofBytes input),
    fun s input hc => ⟨consistent_startWith hc Memory.empty_wf, consistent_startWith hc (hofBytes input)⟩⟩

/-- Settles O45. -/
theorem resetValuesAreTheSpecs : Obligations.ResetValuesAreTheSpecs := by
  refine ⟨fun s => ⟨rfl, by simp [State.pulled, State.applyReset, State.reset], rfl, rfl, rfl, rfl, rfl, rfl, fun ch => ?_, rfl,
    fun s' hcfg => ?_, fun _ => rfl⟩, rfl, rfl⟩
  · simp only [State.applyReset, State.reset, Bank.get_fill, SynthChannel.reset, implies_true, and_self]
  · rw [State.applyReset, hcfg]
    rfl

/-! ### Exceptions and the header stage -/

/-- An exception leaves a consistent state wherever it is raised, the scan not being a byte ahead. -/
theorem State.RunOk.raise (h : u.RunOk) (hahead : u.ahead = false) {e : ErrCode} (he : e ≠ .none) : Consistent (u.raise e) :=
  consistent_iff.mpr ⟨h, he, hahead⟩

theorem State.RunOk.advance (h : s.RunOk) {n : Nat} (hfit : s.bp + n ≤ s.endBit) : (s.advance n).RunOk :=
  { h with cursorInside := hfit }

theorem State.hasAlloc_first (hk : s.hdr.kind ≠ .l3) (hlimit : s.hdr.kind = .l2 → 0 < s.work.sbLimit) : s.hasAlloc ⟨0, 0⟩ = true := by
  have hmem := s.zero_mem_channels
  have hpos : 0 < s.subbandLimit := by
    unfold State.subbandLimit
    cases hkind : s.hdr.kind with
    | l1 => exact Nat.succ_pos _
    | l2 => exact hlimit hkind
    | l3 => exact absurd hkind hk
  simp [State.hasAlloc, State.inBody, State.hasOwnElement, hpos, hmem]

theorem l2SbLimit_pos (set : BitVec 2) : 0 < l2SbLimit set := by
  revert set
  decide

/-- At the start of a Layer II body the subband limit is that of the table set. -/
theorem State.bodyWork_sbLimit (hk : s.hdr.kind = .l2) : s.bodyWork.sbLimit = l2SbLimit s.bodyWork.l2Set := by
  simp only [State.bodyWork, hk, if_true]
  rfl

/-- The stream is latched before a body starts. -/
theorem State.latchStream_latched (hk : u.hdr.kind ≠ .l3) : u.latchStream.latch.latched = true := by
  rw [u.latchStream_latch hk]
  split
  · assumption
  · rfl

theorem State.RunOk.latchStream (h : u.RunOk) (hres : u.hdr.Resolved) (hk : u.hdr.kind ≠ .l3) : u.latchStream.RunOk := by
  by_cases hl : u.latch.latched = true
  · rwa [show u.latchStream = u by simp [State.latchStream, hl]]
  · obtain ⟨hnsamp, _⟩ := h.unlatched (by simpa using hl)
    have hlatch := u.latchStream_latch hk
    rw [if_neg hl] at hlatch
    obtain ⟨hfs, hnch, _⟩ := hres
    simp only [State.RunOk, State.latchStream_cfg, State.latchStream_input, State.latchStream_bp, State.latchStream_frames,
      State.latchStream_nsamp, State.latchStream_synth, State.latchStream_out, hlatch]
    exact { h with
      outLength := by rw [h.outLength, hnsamp, Nat.mul_zero, Nat.mul_zero]
      latchedValues := fun _ => ⟨hfs, hnch⟩
      unlatched := nofun }

/-- The end of the header stage: the stub seeks sync again, a supported layer is at the first element of its body. -/
theorem consistent_finishHeader (h : u.RunOk) (herr : u.errCode = .none) (hahead : u.ahead = false) (hbp : u.bp % 8 = 0)
    (hres : u.hdr.Resolved) : Consistent u.finishHeader := by
  obtain ⟨_, e⟩ | ⟨hk, e⟩ := u.finishHeader_cases <;> rw [e]
  · exact consistent_iff.mpr ⟨h, herr, hbp, fun ha => by simp [hahead] at ha⟩
  · have hlimit : u.latchStream.hdr.kind = .l2 → u.latchStream.bodyWork.sbLimit = l2SbLimit u.latchStream.bodyWork.l2Set :=
      State.bodyWork_sbLimit
    refine consistent_iff.mpr ⟨h.latchStream hres hk, ?_, ?_, ⟨State.latchStream_latched hk, ?_, ?_, hlimit⟩, ?_⟩
    · exact (u.latchStream_errCode).trans herr
    · exact (u.latchStream_ahead).trans hahead
    · exact fun h3 => hk (u.latchStream_hdr ▸ h3)
    · obtain ⟨_, _, hbound⟩ := hres
      rwa [State.goto_hdr, State.withWork_hdr, State.latchStream_hdr]
    · refine State.hasAlloc_first (fun h3 => hk (u.latchStream_hdr ▸ h3)) fun h2 => ?_
      rw [State.goto_work, State.withWork_work, hlimit h2]
      exact l2SbLimit_pos _

theorem State.resolveHeader_resolved {layer : BitVec 2} {h : HdrFields} {kind : LayerKind} (hc : u.cfg.wf = true) (hfs : h.fs ≠ 3#2) :
    ((u.loadHeader layer h).resolveHeader kind).hdr.Resolved :=
  ⟨fsTable_isSamplingFrequency h.fs hfs, channelCount_isChannelCount u.cfg h.mode, jointBound_isBound hc h.mode h.ext⟩

theorem consistent_headerStage {layer : BitVec 2} {h : HdrFields} (hrun : u.RunOk) (hfsm : u.fsm = .header) (herr : u.errCode = .none)
    (hahead : u.ahead = false) (hbp : u.bp % 8 = 0) : Consistent (u.headerStage layer h) := by
  obtain ⟨e, _⟩ | ⟨kind, _, _, hfs, ⟨_, e⟩ | ⟨_, e⟩⟩ := u.headerStage_cases layer h <;> rw [e]
  · exact State.RunOk.raise (u := u.loadHeader layer h) hrun hahead nofun
  · refine consistent_iff.mpr ⟨hrun, ?_⟩
    simp only [State.StageOk, State.resolveHeader_fsm, State.loadHeader_fsm, hfsm]
    exact ⟨herr, hahead, hbp, State.resolveHeader_resolved hrun.configWf hfs⟩
  · exact consistent_finishHeader hrun herr hahead hbp (State.resolveHeader_resolved hrun.configWf hfs)

/-! ### Every step keeps consistency -/

theorem Consistent.endRun (h : Consistent s) (hf : s.fsm = .seekSync) : Consistent s.endRun :=
  consistent_iff.mpr ⟨{ h.runOk with cursorInside := le_rfl }, (h.stage hf).1, rfl⟩

theorem State.lt_of_testsSuccessor (h : s.testsSuccessor = true) : s.byteIndex + 1 < s.input.size := by
  simp only [State.testsSuccessor, Bool.and_eq_true, decide_eq_true_eq] at h
  exact h.2

theorem Consistent.skipByte (h : Consistent s) (hf : s.fsm = .seekSync) (hlt : s.byteIndex < s.input.size) : Consistent s.skipByte := by
  refine consistent_iff.mpr ⟨{ h.runOk with cursorInside := ?_ }, ?_⟩
  · rw [State.skipByte_bp, State.skipByte_input]
    omega
  · obtain ⟨herr, _, _⟩ := h.stage hf
    simp only [State.StageOk, State.skipByte_fsm, hf]
    refine ⟨herr, by rw [State.skipByte_bp]; omega, fun ha => ?_⟩
    have := State.lt_of_testsSuccessor ha
    simp only [State.byteIndex, State.skipByte_bp, State.skipByte_input] at *
    omega

theorem Consistent.frame (h : Consistent s) (hf : s.fsm = .seekSync) (hlt : s.byteIndex + 1 < s.input.size) (layer : BitVec 2)
    (hd : HdrFields) : Consistent (s.frame layer hd) := by
  have haccept : s.acceptCandidate.RunOk := { h.runOk with
    cursorInside := by rw [State.acceptCandidate_bp, State.acceptCandidate_input]; omega }
  obtain ⟨_, e⟩ | ⟨hfit, e⟩ := s.frame_cases layer hd <;> rw [e]
  · exact haccept.raise rfl nofun
  · refine consistent_headerStage (haccept.advance ?_) rfl (h.stage hf).1 rfl ?_
    · rw [State.acceptCandidate_bp, State.acceptCandidate_endBit]; omega
    · rw [State.advance_bp, State.acceptCandidate_bp]; omega

theorem Consistent.crc16 (h : Consistent s) (hf : s.fsm = .header) : Consistent (s.consume 16 State.finishHeader) := by
  obtain ⟨herr, hahead, _, hres⟩ := h.stage hf
  have hbp := h.aligned (.inr hf)
  obtain ⟨_, e⟩ | ⟨hfit, e⟩ := s.consume_cases 16 State.finishHeader <;> rw [e]
  · exact h.runOk.raise hahead nofun
  · exact consistent_finishHeader (h.runOk.advance hfit) herr hahead (by rw [State.advance_bp]; omega) hres

/-- What an element of a body leaves alone leaves the frame what it is. -/
theorem State.InFrame.congr (h : s.InFrame) (hlatch : u.latch = s.latch) (hhdr : u.hdr = s.hdr) (hset : u.work.l2Set = s.work.l2Set)
    (hlimit : u.work.sbLimit = s.work.sbLimit) : u.InFrame := by
  simpa only [State.InFrame, hlatch, hhdr, hset, hlimit] using h

theorem Consistent.body (h : Consistent s) (hf : s.fsm = .layerDecode) {i : Instr} {n : Nat} (hfit : s.bp + n ≤ s.endBit)
    (hb : BodyStep (s.advance n) i t) : Consistent t := by
  obtain ⟨herr, hahead, hframe, hpos⟩ := h.stage hf
  obtain ⟨hinput, hbp, hhdr, hlatch, hframes, hnsamp, herrCode, hsynth, hout⟩ := hb.same
  obtain ⟨hset, hlimit⟩ := hb.tableSet
  have hrun : t.RunOk := by
    rw [State.RunOk, hb.cfg, hinput, hbp, hlatch, hframes, hnsamp, hsynth, hout]
    exact h.runOk.advance hfit
  have herr' : t.errCode = .none := herrCode.trans herr
  have hahead' : t.ahead = false := hb.ahead.trans hahead
  have hframe' : t.InFrame := State.InFrame.congr (s := s) hframe hlatch hhdr hset hlimit
  refine consistent_iff.mpr ⟨hrun, ?_⟩
  obtain ⟨hfsm, hpos⟩ | ⟨hfsm, hpos⟩ := hb.position hpos
  · simpa only [State.StageOk, hfsm] using ⟨herr', hahead', hframe', hpos⟩
  · simp only [State.StageOk, hfsm]
    refine ⟨herr', hahead', hframe', 0, hpos, ?_, ?_⟩
    · rw [State.slotCount]
      split <;> decide
    · rw [hframes, hnsamp]
      exact h.framesCounted

theorem SynthChannel.push_voff_multiple {c : SynthChannel} (h : c.voff.toNat % 64 = 0) (f : NumFormat) (x : Nat → NumVal) :
    (c.push f x).voff.toNat % 64 = 0 := by
  rw [SynthChannel.push_voff, SynthChannel.cursorStep_voff]
  omega

theorem State.RunOk.synthSlot (h : s.RunOk) (hlatched : s.latch.latched = true) (win : Nat → NumVal) (k : Fin 36) :
    (s.synthSlot win k).RunOk := by
  obtain ⟨hinput, hbp, _, _, _, hlatch, hframes, _, hnsamp, _, hsynth, _, bytes, hbytes, hout⟩ := s.synthSlot_same win k
  obtain ⟨_, hnch⟩ := h.latchedValues hlatched
  rw [State.RunOk, State.synthSlot_cfg, hinput, hbp, hlatch, hframes, hnsamp, hsynth, hout]
  exact { h with
    outWf := Memory.appendAll_wf h.outWf bytes
    voffMultiple := fun ch => by
      rw [(s.synthChannels_get win k ch).1]
      split
      · exact SynthChannel.push_voff_multiple (h.voffMultiple ch) _ _
      · exact h.voffMultiple ch
    outLength := by
      rw [Memory.size_appendAll, hbytes, State.channels_length hnch, h.outLength]
      ring
    unlatched := fun hn => by simp [hlatched] at hn
    framesCounted := h.framesCounted.trans (Nat.le_add_right _ _) }

theorem Consistent.slot (h : Consistent s) (hf : s.fsm = .synth) {k : Fin 36} (hp : s.pos = .slot k) (win : Nat → NumVal) :
    Consistent ((s.synthSlot win k).nextSlot k) := by
  obtain ⟨herr, hahead, hframe, k', hp', hk, hcount⟩ := h.stage hf
  obtain rfl : k' = k := by simpa [hp] using hp'.symm
  obtain ⟨_, _, _, _, hhdr, hlatch, hframes, herrCode, hnsamp, hwork, _⟩ := s.synthSlot_same win k'
  have hrun := h.runOk.synthSlot hframe.1 win k'
  have herr' : (s.synthSlot win k').errCode = .none := herrCode.trans herr
  have hahead' : (s.synthSlot win k').ahead = false := (State.synthSlot_ahead ..).trans hahead
  have hframe' : (s.synthSlot win k').InFrame :=
    State.InFrame.congr (s := s) hframe hlatch hhdr (by rw [hwork]) (by rw [hwork])
  have hslots : s.slotCount = 36 ∨ s.slotCount = 12 := by
    rw [State.slotCount]
    split
    · exact .inl rfl
    · exact .inr rfl
  have hk : k'.val < s.slotCount := hk
  have hcount : 384 * s.frames + 32 * k'.val ≤ s.nsamp := hcount
  obtain ⟨_, hmore, e⟩ | ⟨hlast, e⟩ := (s.synthSlot win k').nextSlot_cases k' <;> rw [e] <;>
    refine consistent_iff.mpr ⟨hrun, herr', hahead', hframe', ?_⟩
  · refine ⟨_, rfl, hmore, ?_⟩
    rw [State.goto_frames, State.goto_nsamp, hframes, hnsamp]
    dsimp only
    omega
  · rw [State.goto_frames, State.goto_nsamp, hframes, hnsamp]
    rw [State.synthSlot_slotCount] at hlast
    omega

theorem Consistent.align (h : Consistent s) (hf : s.fsm = .align) : Consistent (s.consume s.padWidth State.completeFrame) := by
  obtain ⟨herr, hahead, hframe, hcount⟩ := h.stage hf
  have hfit := State.padWidth_fits h.cursorInside
  rw [State.consume_of_le _ hfit]
  refine consistent_iff.mpr ⟨{ h.runOk.advance hfit with
    unlatched := fun hn => absurd (hframe.1.symm.trans hn) nofun
    framesCounted := hcount }, herr, s.padWidth_aligns, fun ha => ?_⟩
  exact absurd (hahead.symm.trans ha) nofun

theorem StepTo.consistent (h : StepTo s t) (hs : Consistent s) : Consistent t := by
  cases h with
  | endRun hf hle => exact hs.endRun hf
  | skip hf hlt hsel => exact hs.skipByte hf hlt
  | frame layer hd hf hlt hsel => exact hs.frame hf hlt layer hd
  | crc16 hf => exact hs.crc16 hf
  | bodyEof n hf hl => exact hs.runOk.raise (hs.ahead_eq_false (by simp [hf])) nofun
  | bodyInvalid hf hfit => exact (hs.runOk.advance hfit).raise (hs.ahead_eq_false (by simp [hf])) nofun
  | body i t hf hsel hwf hfit hb => exact hs.body hf hfit hb
  | slot k hf hp => exact hs.slot hf hp _
  | align hf => exact hs.align hf
  | terminal hf => exact hs

/-- Settles O47: each kind of step keeps the registers and the stage consistent. -/
theorem everyStepKeepsConsistency : Obligations.EveryStepKeepsConsistency :=
  fun _ _ h => ⟨step_cfg h, (step_cases h).consistent⟩

end Sys2Proof.Machine
end

section
/-! What one step does to a run (10_state.md, 47_orchestrator.md): it always goes on, it moves the control state as the table says, it
moves the cursor forward, it writes latch, output, history, counters and exception code where the rules say, and it brings the end
nearer. -/

namespace Sys2Proof.Machine

variable {s t u : State}

/-! ### A step always goes on -/

/-- A supported layer has a unit at every position of its body, of a width the unit table allows. -/
theorem State.bodySelected_of_position (hc : s.cfg.wf = true) (hf : s.fsm = .layerDecode) (hk : s.hdr.kind ≠ .l3)
    (hp : s.PositionInBody) : ∃ sh, s.selected = some sh ∧ sh.widthOk = true := by
  have hbody : ∃ sh, s.bodySelected = some sh := by
    unfold State.PositionInBody at hp
    unfold State.bodySelected
    cases hkind : s.hdr.kind with
    | l3 => exact absurd hkind hk
    | l1 => cases hpos : s.pos <;> simp_all
    | l2 => cases hpos : s.pos <;> simp_all; split <;> exact ⟨_, rfl⟩
  obtain ⟨sh, hsh⟩ := hbody
  have hsel := (State.selected_of_layerDecode hf).trans hsh
  refine ⟨sh, hsel, ?_⟩
  obtain hw | ⟨_, _, gr, c, k, hpos, rfl⟩ := State.selected_width hc hsel
  · exact hw
  · unfold State.PositionInBody at hp
    rw [hpos] at hp
    obtain ⟨hsample, _⟩ := hp
    simp only [State.hasSample, State.coded, Bool.and_eq_true, decide_eq_true_eq] at hsample
    obtain ⟨⟨_, hcoded⟩, _⟩ := hsample
    exact UnitShape.widthOk_l1Sample _ hcoded

theorem step_goes_on {sh : UnitShape} (hc : s.cfg.wf = true) (hsel : s.selected = some sh) (hw : sh.widthOk = true) :
    ∃ t, step s = .next t := by
  obtain ⟨_, _, _, hstep⟩ := step_of_selected hc hsel hw
  exact ⟨_, hstep⟩

/-- Settles O48: one case for each value of `FSM`. -/
theorem consistentStepAlwaysGoesOn : Obligations.ConsistentStepAlwaysGoesOn := by
  intro s h
  have hc := h.configWf
  cases hf : s.fsm with
  | seekSync =>
    by_cases hend : s.input.size ≤ s.byteIndex
    · exact ⟨_, (endOfInputWhileSeekingEndsCleanly s hf hend).1⟩
    · obtain ⟨b, hb⟩ := Option.isSome_iff_exists.mp ((s.input.read_isSome_iff s.byteIndex).mpr (not_le.mp hend))
      have hsel : s.selected = some (seekShape b (s.input.read (s.byteIndex + 1))) := by
        simp only [State.selected, hf, State.seekSelected, hb]
      have hw := State.selected_width hc hsel
      simp only [hf, reduceCtorEq, false_and, or_false] at hw
      exact step_goes_on hc hsel hw
  | header => exact step_goes_on hc (State.selected_of_header hf) rfl
  | layerDecode =>
    obtain ⟨⟨_, hk, _⟩, hpos⟩ := h.inBody hf
    obtain ⟨_, hsel, hw⟩ := State.bodySelected_of_position hc hf hk hpos
    exact step_goes_on hc hsel hw
  | synth =>
    obtain ⟨_, _, hpos, _⟩ := h.inSynth hf
    exact ⟨_, step_of_slot hf hpos⟩
  | align => exact step_goes_on hc (State.selected_of_align hf) (UnitShape.widthOk_padBits s)
  | done => exact ⟨_, step_of_terminal (.inl hf)⟩
  | error => exact ⟨_, step_of_terminal (.inr hf)⟩

/-! ### Where the control state goes -/

theorem State.finishHeader_fsm (u : State) : u.finishHeader.fsm = .seekSync ∨ u.finishHeader.fsm = .layerDecode := by
  obtain ⟨_, e⟩ | ⟨_, e⟩ := u.finishHeader_cases <;> rw [e]
  · exact .inl rfl
  · exact .inr rfl

theorem State.headerStage_fsm (layer : BitVec 2) (h : HdrFields) :
    (u.headerStage layer h).fsm = .error ∨ (u.headerStage layer h).fsm = u.fsm ∨
      (u.headerStage layer h).fsm = .seekSync ∨ (u.headerStage layer h).fsm = .layerDecode := by
  obtain ⟨e, _⟩ | ⟨_, _, _, _, ⟨_, e⟩ | ⟨_, e⟩⟩ := u.headerStage_cases layer h <;> rw [e]
  · exact .inl rfl
  · exact .inr (.inl rfl)
  · exact .inr (.inr (State.finishHeader_fsm _))

theorem State.frame_fsm (s : State) (layer : BitVec 2) (h : HdrFields) :
    (s.frame layer h).fsm = .error ∨ (s.frame layer h).fsm = .header ∨
      (s.frame layer h).fsm = .seekSync ∨ (s.frame layer h).fsm = .layerDecode := by
  obtain ⟨_, e⟩ | ⟨_, e⟩ := s.frame_cases layer h <;> rw [e]
  · exact .inl rfl
  · exact State.headerStage_fsm layer h

/-- Settles O51: the transition of each kind of step is in the table. -/
theorem fsmMovesOnlyAsTheTableSays : Obligations.FsmMovesOnlyAsTheTableSays := by
  intro s t hs h
  cases step_cases h with
  | endRun hf => rw [hf]; rfl
  | skip hf => rw [State.skipByte_fsm, hf]; rfl
  | frame layer hd hf =>
    obtain e | e | e | e := s.frame_fsm layer hd <;> rw [hf, e] <;> rfl
  | crc16 hf =>
    obtain ⟨_, e⟩ | ⟨_, e⟩ := s.consume_cases 16 State.finishHeader <;> rw [e, hf]
    · rfl
    · obtain e | e := (s.advance 16).finishHeader_fsm <;> rw [e] <;> rfl
  | bodyEof n hf => rw [hf]; rfl
  | bodyInvalid hf => rw [hf]; rfl
  | body i t hf hsel hwf hfit hb => obtain e | e := hb.fsm <;> rw [hf, e] <;> rfl
  | slot k hf =>
    obtain ⟨_, _, e⟩ | ⟨_, e⟩ := (s.synthSlot (window s.cfg.num) k).nextSlot_cases k <;> rw [e, hf] <;> rfl
  | align hf => rw [State.consume_of_le _ (State.padWidth_fits hs.cursorInside), hf]; rfl
  | terminal hf => obtain hf | hf := hf <;> rw [hf] <;> rfl

/-! ### The measure -/

/-- What every stage but a terminal one does to the measure: bits are consumed, or the stage moves down. -/
def State.Nearer (s t : State) : Prop := s.bp < t.bp ∨ s.bp ≤ t.bp ∧ t.stageRank < s.stageRank

theorem State.Nearer.bp_le (h : s.Nearer t) : s.bp ≤ t.bp := by
  obtain h | ⟨h, _⟩ := h
  · exact h.le
  · exact h

/-- A consumed bit outweighs every rank. -/
theorem State.Nearer.remaining_lt (h : s.Nearer t) (hend : t.endBit = s.endBit) (hinside : t.bp ≤ t.endBit) :
    t.remaining < s.remaining := by
  have hrank := t.stageRank_le
  simp only [State.remaining]
  obtain h | ⟨h, hlt⟩ := h <;> omega

theorem State.le_frame_bp (s : State) (layer : BitVec 2) (h : HdrFields) : 8 * s.byteIndex + 12 ≤ (s.frame layer h).bp := by
  obtain ⟨_, e⟩ | ⟨_, e⟩ := s.frame_cases layer h <;> rw [e]
  · rw [State.raise_bp, State.acceptCandidate_bp]
    omega
  · rw [(State.headerStage_same _ _ _).1, State.advance_bp, State.acceptCandidate_bp]
    omega

/-- Every element of a frame body has bits. -/
theorem State.bodySelected_width_pos {sh : UnitShape} (hsel : s.bodySelected = some sh) (hw : sh.widthOk = true) : 0 < sh.width := by
  have hcases := State.bodySelected_cases hsel
  cases sh with
  | padBits w => simp at hcases
  | _ => simp [UnitShape.widthOk, UnitShape.width] at * <;> omega

theorem StepTo.nearer (h : StepTo s t) (hs : Consistent s) (hlive : ¬ s.Terminal) : s.Nearer t := by
  have hinside := hs.cursorInside
  cases h with
  | endRun hf =>
    refine .inr ⟨hinside, ?_⟩
    simp only [State.stageRank, State.endRun_fsm, hf, Nat.zero_lt_one]
  | skip hf hlt =>
    have := hs.aligned (.inl hf)
    refine .inl ?_
    simp only [State.skipByte_bp, State.byteIndex]
    omega
  | frame layer hd hf hlt =>
    have := s.le_frame_bp layer hd
    have := hs.aligned (.inl hf)
    simp only [State.byteIndex] at *
    exact .inl (by omega)
  | crc16 hf =>
    obtain ⟨_, e⟩ | ⟨_, e⟩ := s.consume_cases 16 State.finishHeader <;> rw [e]
    · refine .inr ⟨le_rfl, ?_⟩
      simp only [State.stageRank, State.raise_fsm, hf, Nat.zero_lt_succ]
    · refine .inl ?_
      rw [(s.advance 16).finishHeader_same.1, State.advance_bp]
      omega
  | bodyEof n hf =>
    refine .inr ⟨le_rfl, ?_⟩
    simp only [State.stageRank, State.raise_fsm, hf, Nat.zero_lt_succ]
  | bodyInvalid hf => exact .inl (by simp only [State.raise_bp, State.advance_bp]; omega)
  | body i t hf hsel hwf hfit hb =>
    have hw : i.shape.widthOk = true := by
      simp only [Instr.wf, Bool.and_eq_true] at hwf
      exact hwf.1
    have := State.bodySelected_width_pos hsel hw
    obtain ⟨_, hbp, _⟩ := hb.same
    refine .inl ?_
    rw [hbp, State.advance_bp]
    omega
  | slot k hf hp =>
    obtain ⟨_, k', hp', hk, _⟩ := hs.inSynth hf
    obtain rfl : k' = k := by simpa [hp] using hp'.symm
    have hbp : (s.synthSlot (window s.cfg.num) k').bp = s.bp := (s.synthSlot_same _ _).2.1
    have hrank : s.stageRank = 3 + (s.slotCount - k'.val) := by simp only [State.stageRank, hf, hp]
    have hslots := State.synthSlot_slotCount (s := s) (t := k') (window s.cfg.num)
    obtain ⟨_, hmore, e⟩ | ⟨_, e⟩ := (s.synthSlot (window s.cfg.num) k').nextSlot_cases k' <;> rw [e] <;>
      refine .inr ⟨hbp.ge, ?_⟩ <;> rw [hrank]
    · change 3 + ((s.synthSlot (window s.cfg.num) k').slotCount - (k'.val + 1)) < _
      rw [hslots]
      omega
    · change 2 < _
      omega
  | align hf =>
    rw [State.consume_of_le _ (State.padWidth_fits hinside)]
    refine .inr ⟨Nat.le_add_right _ _, ?_⟩
    simp only [State.stageRank, State.completeFrame_fsm, hf, Nat.one_lt_two]
  | terminal hf => exact absurd hf hlive

/-- Settles O49. -/
theorem everyStepBringsTheEndNearer : Obligations.EveryStepBringsTheEndNearer := by
  intro s t hs hlive h
  refine ((step_cases h).nearer hs hlive).remaining_lt ?_ ((step_cases h).consistent hs).cursorInside
  rw [State.endBit, State.endBit, step_input h]

/-- A consistent state reaches an end in no more steps than its measure. -/
theorem exists_run_terminal (m : Nat) (hs : Consistent s) (hm : s.remaining ≤ m) :
    ∃ k t, k ≤ m ∧ Sys2Proof.core.run k s = .next t ∧ t.Terminal := by
  induction m generalizing s with
  | zero =>
    refine ⟨0, s, le_rfl, rfl, ?_⟩
    by_contra hlive
    obtain ⟨t, h⟩ := consistentStepAlwaysGoesOn s hs
    have := everyStepBringsTheEndNearer s t hs hlive h
    omega
  | succ m ih =>
    by_cases hend : s.Terminal
    · exact ⟨0, s, Nat.zero_le _, rfl, hend⟩
    · obtain ⟨t, h⟩ := consistentStepAlwaysGoesOn s hs
      have hlt := everyStepBringsTheEndNearer s t hs hend h
      obtain ⟨k, u, hk, hrun, hu⟩ := ih ((step_cases h).consistent hs) (by omega)
      exact ⟨k + 1, u, Nat.succ_le_succ hk, (run_succ k h).trans hrun, hu⟩

/-- Settles O50: the measure of a start is 384 for each input byte and one for the stage. -/
theorem everyRunEnds : Obligations.EveryRunEnds := by
  intro c input hc
  refine exists_run_terminal _ (consistent_startWith hc (Memory.ofBytes_wf input)) ?_
  change 48 * (8 * (Memory.ofBytes input).size - 0) + 1 ≤ _
  rw [Memory.size_ofBytes]
  omega

/-! ### The cursor -/

theorem Consistent.pulled_le (h : Consistent s) : s.pulled ≤ s.input.size := by
  have hinside : s.bp ≤ 8 * s.input.size := h.cursorInside
  rw [State.pulled]
  cases ha : s.ahead with
  | false => simp; omega
  | true =>
    obtain ⟨hf, hlt⟩ := h.aheadInScan ha
    have := h.aligned (.inl hf)
    simp only [State.byteIndex, Bool.toNat_true] at *
    omega

/-- While the scan is a byte ahead, the next step passes that byte. -/
theorem StepTo.passes_ahead (h : StepTo s t) (hs : Consistent s) (ha : s.ahead = true) : 8 * (s.byteIndex + 1) ≤ t.bp := by
  obtain ⟨hf, hlt⟩ := hs.aheadInScan ha
  cases h with
  | endRun _ hle => omega
  | skip => rfl
  | frame layer hd => exact Nat.le_trans (by omega) (s.le_frame_bp layer hd)
  | _ => simp_all

theorem StepTo.bp_le (h : StepTo s t) (hs : Consistent s) : s.bp ≤ t.bp := by
  by_cases hend : s.Terminal
  · cases h with
    | terminal => exact le_rfl
    | _ => simp_all [State.Terminal]
  · exact (h.nearer hs hend).bp_le

theorem StepTo.pulled_le (h : StepTo s t) (hs : Consistent s) : s.pulled ≤ t.pulled := by
  have hle := h.bp_le hs
  simp only [State.pulled]
  cases ha : s.ahead with
  | false => simp; omega
  | true =>
    have hpass := h.passes_ahead hs ha
    have := hs.aligned (.inl (hs.aheadInScan ha).1)
    simp only [State.byteIndex, Bool.toNat_true] at *
    omega

/-- After a step the scan is a byte ahead exactly behind the `SKIP` of a marker byte with a successor. -/
theorem step_ahead_iff (hs : Consistent s) (h : step s = .next t) :
    t.ahead = true ↔ s.fsm = .seekSync ∧ s.input.read s.byteIndex = some 0xFF#8 ∧ s.byteIndex + 1 < s.input.size ∧
      t.bp = 8 * (s.byteIndex + 1) := by
  rw [step_ahead h]
  by_cases hf : s.fsm = .seekSync
  · rw [if_pos hf]
    cases step_cases h with
    | endRun _ hle => simp [State.testsSuccessor]; omega
    | skip _ _ hsel => simp [State.testsSuccessor, hf, hsel]
    | frame layer hd _ _ hsel =>
      have := s.le_frame_bp layer hd
      simp [hsel]
      omega
    | _ => simp_all
  · simp [hf, hs.ahead_eq_false hf]

/-- Settles O52. -/
theorem cursorNeverGoesBack : Obligations.CursorNeverGoesBack := by
  intro s t hs h
  have ht := (step_cases h).consistent hs
  refine ⟨(step_cases h).bp_le hs, ht.cursorInside, step_input h, (step_cases h).pulled_le hs, ht.pulled_le, ?_⟩
  rw [State.pulled]
  congr 1
  by_cases ha : t.ahead = true
  · rw [if_pos ((step_ahead_iff hs h).mp ha), ha]
    rfl
  · rw [if_neg fun hc => ha ((step_ahead_iff hs h).mpr hc), Bool.eq_false_iff.mpr ha]
    rfl

/-! ### The stream latch -/

/-- The latch is kept, or it was free and the header of the body that starts is taken. -/
def State.LatchedFrom (s t : State) : Prop :=
  t.latch = s.latch ∨ s.latch.latched = false ∧ t.fsm = .layerDecode ∧ t.latch = ⟨true, t.hdr.fs, t.hdr.nch⟩

theorem State.finishHeader_latchedFrom (u : State) : u.LatchedFrom u.finishHeader := by
  obtain ⟨_, e⟩ | ⟨hk, e⟩ := u.finishHeader_cases <;> rw [e]
  · exact .inl rfl
  · have hlatch := u.latchStream_latch hk
    cases hl : u.latch.latched with
    | true => exact .inl (by simpa [hl] using hlatch)
    | false =>
      refine .inr ⟨hl, rfl, ?_⟩
      simpa [hl] using hlatch

theorem State.headerStage_latchedFrom (u : State) (layer : BitVec 2) (h : HdrFields) : u.LatchedFrom (u.headerStage layer h) := by
  obtain ⟨e, _⟩ | ⟨kind, _, _, _, ⟨_, e⟩ | ⟨_, e⟩⟩ := u.headerStage_cases layer h <;> rw [e]
  · exact .inl rfl
  · exact .inl rfl
  · exact ((u.loadHeader layer h).resolveHeader kind).finishHeader_latchedFrom

theorem StepTo.latchedFrom (h : StepTo s t) : s.LatchedFrom t ∧ (t.latch ≠ s.latch → s.fsm = .seekSync ∨ s.fsm = .header) := by
  cases h with
  | frame layer hd hf =>
    refine ⟨?_, fun _ => .inl hf⟩
    obtain ⟨_, e⟩ | ⟨_, e⟩ := s.frame_cases layer hd <;> rw [e]
    · exact .inl rfl
    · exact (s.acceptCandidate.advance 20).headerStage_latchedFrom layer hd
  | crc16 hf =>
    refine ⟨?_, fun _ => .inr hf⟩
    obtain ⟨_, e⟩ | ⟨_, e⟩ := s.consume_cases 16 State.finishHeader <;> rw [e]
    · exact .inl rfl
    · exact (s.advance 16).finishHeader_latchedFrom
  | body i t hf hsel hwf hfit hb =>
    obtain ⟨_, _, _, hlatch, _⟩ := hb.same
    exact ⟨.inl hlatch, fun hne => absurd hlatch hne⟩
  | slot k hf =>
    obtain ⟨_, _, _, _, _, hlatch, _⟩ := s.synthSlot_same (window s.cfg.num) k
    obtain ⟨_, _, e⟩ := (s.synthSlot (window s.cfg.num) k).nextSlot_eq_goto k
    rw [e]
    exact ⟨.inl hlatch, fun hne => absurd hlatch hne⟩
  | align hf =>
    obtain ⟨_, e⟩ | ⟨_, e⟩ := s.consume_cases s.padWidth State.completeFrame <;> rw [e] <;>
      exact ⟨.inl rfl, fun hne => absurd rfl hne⟩
  | endRun | skip | bodyEof | bodyInvalid | terminal => exact ⟨.inl rfl, fun hne => absurd rfl hne⟩

/-- Settles O53. -/
theorem latchIsWrittenOnce : Obligations.LatchIsWrittenOnce := by
  intro s t h
  obtain ⟨hlatch, hstage⟩ := (step_cases h).latchedFrom
  refine ⟨fun hl => ?_, fun hne => ?_⟩
  · obtain e | ⟨hfree, _⟩ := hlatch
    · exact e
    · simp [hl] at hfree
  · obtain e | ⟨_, hf, e⟩ := hlatch
    · exact absurd e hne
    · exact ⟨hstage hne, hf, e⟩

/-! ### Output, histories and counters -/

/-- Only a step of `SYNTH` changes what a run has produced and carries between frames. -/
theorem StepTo.same_results (h : StepTo s t) (hf : s.fsm ≠ .synth) : t.out = s.out ∧ t.nsamp = s.nsamp ∧ t.synth = s.synth := by
  cases h with
  | frame layer hd =>
    obtain ⟨_, e⟩ | ⟨_, e⟩ := s.frame_cases layer hd <;> rw [e]
    · exact ⟨rfl, rfl, rfl⟩
    · obtain ⟨_, _, _, hnsamp, hout, hsynth⟩ := (s.acceptCandidate.advance 20).headerStage_same layer hd
      exact ⟨hout, hnsamp, hsynth⟩
  | crc16 =>
    obtain ⟨_, e⟩ | ⟨_, e⟩ := s.consume_cases 16 State.finishHeader <;> rw [e]
    · exact ⟨rfl, rfl, rfl⟩
    · obtain ⟨_, _, _, hnsamp, hout, hsynth, _⟩ := (s.advance 16).finishHeader_same
      exact ⟨hout, hnsamp, hsynth⟩
  | body i t _ hsel hwf hfit hb =>
    obtain ⟨_, _, _, _, _, hnsamp, _, hsynth, hout⟩ := hb.same
    exact ⟨hout, hnsamp, hsynth⟩
  | slot k hsynth => exact absurd hsynth hf
  | align => obtain ⟨_, e⟩ | ⟨_, e⟩ := s.consume_cases s.padWidth State.completeFrame <;> rw [e] <;> exact ⟨rfl, rfl, rfl⟩
  | endRun | skip | bodyEof | bodyInvalid | terminal => exact ⟨rfl, rfl, rfl⟩

/-- A step of `SYNTH` is a time slot, and what follows it changes `FSM` and the position alone. -/
theorem StepTo.of_synth (h : StepTo s t) (hf : s.fsm = .synth) :
    ∃ (k : Fin 36) (f : Fsm) (p : Pos), t = (s.synthSlot (window s.cfg.num) k).goto f p := by
  cases h with
  | slot k =>
    obtain ⟨f, p, e⟩ := (s.synthSlot (window s.cfg.num) k).nextSlot_eq_goto k
    exact ⟨k, f, p, e⟩
  | _ => simp_all

/-- Settles O54: outside `SYNTH` the output is left, and a time slot appends to it. -/
theorem outputOnlyGrows : Obligations.OutputOnlyGrows := by
  intro s t hwf h
  by_cases hf : s.fsm = .synth
  · obtain ⟨k, f, p, rfl⟩ := (step_cases h).of_synth hf
    obtain ⟨_, _, _, _, _, _, _, _, _, _, _, _, bytes, _, hout⟩ := s.synthSlot_same (window s.cfg.num) k
    rw [State.goto_out, hout, Memory.size_appendAll]
    refine ⟨fun a ha => ?_, Nat.le_add_right _ _, fun hne => absurd hf hne⟩
    rw [Memory.read_appendAll hwf, if_pos ha]
  · obtain ⟨hout, hnsamp, _⟩ := (step_cases h).same_results hf
    rw [hout]
    exact ⟨fun _ _ => rfl, le_rfl, fun _ => ⟨rfl, hnsamp⟩⟩

/-- Settles O55: a time slot leaves the channels the stream does not have. -/
theorem historyChangesOnlyInSynthesis : Obligations.HistoryChangesOnlyInSynthesis := by
  intro s t h
  by_cases hf : s.fsm = .synth
  · refine ⟨fun hne => absurd hf hne, fun hn => ?_⟩
    obtain ⟨k, f, p, rfl⟩ := (step_cases h).of_synth hf
    obtain ⟨_, _, _, _, _, _, _, _, _, _, hsynth, _⟩ := s.synthSlot_same (window s.cfg.num) k
    have hch : s.channels = [0] := if_neg hn
    rw [State.goto_synth, hsynth, (s.synthChannels_get _ k 1).1, hch, if_neg (by decide)]
  · obtain ⟨_, _, hsynth⟩ := (step_cases h).same_results hf
    rw [hsynth]
    exact ⟨fun _ => rfl, fun _ => rfl⟩

/-- Settles O56. -/
theorem framesCountsCompletedFrames : Obligations.FramesCountsCompletedFrames := by
  intro s t h
  have outside (hf : s.fsm ≠ .align) (hframes : t.frames = s.frames) :
      t.frames = if s.fsm = .align ∧ t.fsm = .seekSync then s.frames + 1 else s.frames := by
    rw [if_neg fun hc => hf hc.1, hframes]
  cases step_cases h with
  | endRun hf | skip hf | bodyEof _ hf | bodyInvalid hf => exact outside (by simp [hf]) rfl
  | frame layer hd hf =>
    refine outside (by simp [hf]) ?_
    obtain ⟨_, e⟩ | ⟨_, e⟩ := s.frame_cases layer hd <;> rw [e]
    · rfl
    · obtain ⟨_, _, hframes, _⟩ := (s.acceptCandidate.advance 20).headerStage_same layer hd
      exact hframes
  | crc16 hf =>
    refine outside (by simp [hf]) ?_
    obtain ⟨_, e⟩ | ⟨_, e⟩ := s.consume_cases 16 State.finishHeader <;> rw [e]
    · rfl
    · obtain ⟨_, _, hframes, _⟩ := (s.advance 16).finishHeader_same
      exact hframes
  | body i t hf hsel hwf hfit hb =>
    obtain ⟨_, _, _, _, hframes, _⟩ := hb.same
    exact outside (by simp [hf]) hframes
  | slot k hf =>
    obtain ⟨_, _, _, _, _, _, hframes, _⟩ := s.synthSlot_same (window s.cfg.num) k
    obtain ⟨_, _, e⟩ := (s.synthSlot (window s.cfg.num) k).nextSlot_eq_goto k
    exact outside (by simp [hf]) (by rw [e]; exact hframes)
  | align hf =>
    obtain ⟨_, e⟩ | ⟨_, e⟩ := s.consume_cases s.padWidth State.completeFrame <;> rw [e]
    · simp
    · exact (if_pos ⟨hf, rfl⟩).symm
  | terminal hf => obtain hf | hf := hf <;> exact outside (by simp [hf]) rfl

/-! ### The exception code and the result record -/

/-- Settles O57: the code is `E_NONE` exactly outside `ERROR`, before and after the step. -/
theorem errorCodeIsWrittenOnce : Obligations.ErrorCodeIsWrittenOnce := by
  intro s t hs h
  have hkept : s.fsm = .error → t.errCode = s.errCode := fun hf => by
    rw [step_of_terminal (.inr hf)] at h
    cases h
    rfl
  refine ⟨fun hne => ?_, hkept⟩
  have hlive : s.fsm ≠ .error := fun hf => hne (hkept hf)
  have hnone := hs.errCode_eq_none hlive
  refine ⟨hnone, hlive, ?_⟩
  by_contra hf
  exact hne (((step_cases h).consistent hs).errCode_eq_none hf |>.trans hnone.symm)

theorem State.result_of_error (h : s.fsm = .error) : s.result = .error s.errCode.code := by
  simp [State.result, State.flagError, State.statusErrCode, h]

theorem State.result_of_done (h : s.fsm = .done) :
    s.result = if s.frames = 0 then .absent else .present ⟨s.out, s.latch.fs, decide (s.latch.nch = 2), s.nsamp⟩ := by
  simp [State.result, State.flagError, State.flagDone, h]

theorem State.result_of_live (h : ¬ s.Terminal) : s.result = .busy := by
  simp only [State.Terminal, not_or] at h
  simp [State.result, State.flagError, State.flagDone, h]

/-- A frame has been completed only in a latched stream, whose values are of their sets. -/
theorem Consistent.latch_of_frames (h : Consistent s) (hframes : s.frames ≠ 0) :
    IsSamplingFrequency s.latch.fs ∧ IsChannelCount s.latch.nch := by
  refine h.latchedValues ?_
  by_contra hl
  exact hframes (h.unlatched (by simpa using hl)).2

/-- Settles O58: the record by the control state and, in `DONE`, by the frames counted. -/
theorem resultRecordIsConsistent : Obligations.ResultRecordIsConsistent := by
  intro s h
  by_cases hlive : s.Terminal
  · obtain hf | hf := hlive
    · rw [State.result_of_done hf]
      by_cases hframes : s.frames = 0
      · simp [hframes, hf, State.Terminal]
      · obtain ⟨hfs, hnch⟩ := h.latch_of_frames hframes
        simp only [hframes, if_false]
        refine ⟨by simp [hf, State.Terminal], by simp, by simp [hf], ?_⟩
        rintro r ⟨rfl⟩
        have hcount := h.framesCounted
        refine ⟨?_, by dsimp only; omega, hfs, rfl, rfl, rfl, decide_eq_true_iff⟩
        obtain hn | hn := hnch <;> simp [h.outLength, hn]
    · rw [State.result_of_error hf]
      refine ⟨by simp [hf, State.Terminal], by simp [hf], fun c => ?_, nofun⟩
      rw [RunOutcome.error.injEq]
      exact ⟨fun hc => ⟨hf, hc.symm⟩, fun ⟨_, hc⟩ => hc.symm⟩
  · rw [State.result_of_live hlive]
    simp only [State.Terminal, not_or] at hlive
    simp [hlive, State.Terminal]

end Sys2Proof.Machine
end

section
/-! The order of a frame body (30_encoding.md R84, R85): every element leads to the next one of the format. -/

namespace Sys2Proof.Machine

variable {s t u : State} {q : Pos}

/-- `t` is at the first element of its body after `q`, or at the end of the body with no element after `q`. -/
def State.InOrderAfter (q : Pos) (t : State) : Prop :=
  (t.fsm = .layerDecode ∧ q.Before t.pos ∧ ∀ p, q.Before p → p.Before t.pos → ¬ t.HasElementAt p) ∨
    (t.fsm = .synth ∧ t.pos = .slot 0 ∧ ∀ p, q.Before p → ¬ t.HasElementAt p)

/-- The elements of a body do not depend on where the block is in it. -/
theorem State.hasElementAt_goto (u : State) (f : Fsm) (r p : Pos) : (u.goto f r).HasElementAt p ↔ u.HasElementAt p := by
  cases p <;> rfl

/-- A search behind the place of `q` finds the next element when `q` is the last of its subband-channel. -/
theorem State.Scan.inOrderAfter {r : State} (h : u.Scan q.part (q.place + 1) r) (hr : ∃ f p, r = u.goto f p)
    (hlast : ∀ p, p.part = q.part → p.place = q.place → q.element < p.element → ¬ u.HasElementAt p) : r.InOrderAfter q := by
  obtain ⟨f, p, rfl⟩ := hr
  have split {p : Pos} (hp : q.Before p) (hfrom : Pos.From q.part (q.place + 1) p → ¬ u.HasElementAt p) : ¬ u.HasElementAt p := by
    obtain hp | ⟨hpart, hplace, helement⟩ := hp.from_or_same
    · exact hfrom hp
    · exact hlast p hpart hplace helement
  obtain ⟨hfsm, hfrom, hnone⟩ | ⟨hfsm, hpos, hnone⟩ := h
  · refine .inl ⟨hfsm, ?_, fun p hp hb => ?_⟩
    · unfold Pos.From at hfrom
      unfold Pos.Before
      omega
    · rw [State.hasElementAt_goto]
      exact split hp fun hf => hnone p hf hb
  · refine .inr ⟨hfsm, hpos, fun p hp => ?_⟩
    rw [State.hasElementAt_goto]
    exact split hp (hnone p)

/-- The next element of the same subband-channel: nothing is between. -/
theorem State.inOrderAfter_next_element {r : Pos} (hpart : r.part = q.part) (hplace : r.place = q.place)
    (helement : r.element = q.element + 1) : (u.goto .layerDecode r).InOrderAfter q := by
  refine .inl ⟨rfl, ?_, fun p hp hb => ?_⟩
  · rw [State.goto_pos]
    unfold Pos.Before
    omega
  · rw [State.goto_pos] at hb
    unfold Pos.Before at hp hb
    omega

/-! ### The last element of a subband-channel -/

section Last

variable {c : SubCh} {p : Pos}

theorem Pos.eq_alloc (h : p.part = 0) : ∃ d, p = .alloc d := by
  cases p with
  | alloc d => exact ⟨d, rfl⟩
  | _ => simp [Pos.part] at h

theorem Pos.eq_scfsi (h : p.part = 1) : ∃ d, p = .scfsi d := by
  cases p with
  | scfsi d => exact ⟨d, rfl⟩
  | _ => simp [Pos.part] at h <;> omega

theorem Pos.eq_scf (h : p.part = 2) : ∃ d got, p = .scf d got := by
  cases p with
  | scf d got => exact ⟨d, got, rfl⟩
  | _ => simp [Pos.part] at h <;> omega

/-- A sample part has no second element in a grouped class or in Layer I. -/
theorem State.not_hasElementAt_sample {gr : Fin 12} {k : Fin 3} (h : u.hdr.kind = .l2 → (u.classOf c).grouped = true)
    (hpart : p.part = (Pos.sample gr c k).part) (hplace : p.place = (Pos.sample gr c k).place)
    (helement : (Pos.sample gr c k).element < p.element) : ¬ u.HasElementAt p := by
  intro hp
  obtain ⟨gr', d, k', rfl, _⟩ := hp.sample (by rw [hpart]; exact Nat.le_add_right _ _)
  obtain rfl : d = c := SubCh.ext_index hplace
  obtain ⟨_, ⟨hk, hg⟩ | rfl⟩ : u.hasSample d = true ∧ (u.hdr.kind = .l2 ∧ (u.classOf d).grouped = false ∨ k' = 0) := hp
  · exact absurd ((h hk).symm.trans hg) nofun
  · exact Nat.not_lt_zero _ helement

end Last

theorem State.storeSample_classOf (s : State) (c : SubCh) (t : Fin 36) (p : Fin 3) (f : NumVal) :
    (s.storeSample c t p f).classOf = s.classOf := by
  obtain ⟨halloc, _, _, hset, _⟩ := s.storeSample_other c t p f
  exact State.classOf_congr rfl halloc hset

/-- An element of a body leads to the next one in the order of the format. -/
theorem BodyStep.inOrderAfter {i : Instr} (h : BodyStep s i t) : t.InOrderAfter s.pos := by
  cases h with
  | l1Alloc a c hk hp | l2Alloc a c hk hp =>
    rw [hp]
    refine (State.seekAlloc_scan (s.storeAlloc c a) (c.index + 1)).inOrderAfter (State.seekAlloc_goto _ _) fun p hpart _ hlt => ?_
    obtain ⟨d, rfl⟩ := Pos.eq_alloc hpart
    exact absurd hlt (Nat.lt_irrefl 0)
  | l2Scfsi x c hk hp =>
    rw [hp]
    refine (State.seekScfsi_scan _ (c.index + 1)).inOrderAfter (State.seekScfsi_goto _ _) fun p hpart _ hlt => ?_
    obtain ⟨d, rfl⟩ := Pos.eq_scfsi hpart
    exact absurd hlt (Nat.lt_irrefl 0)
  | l1Scf x c got hk hp hx =>
    rw [hp]
    refine (State.seekScf_scan _ (c.index + 1)).inOrderAfter (State.seekScf_goto _ _) fun p hpart _ hlt hp' => ?_
    obtain ⟨d, got', rfl⟩ := Pos.eq_scf hpart
    obtain ⟨_, hgot⟩ := hp'
    have hgot : if s.hdr.kind = .l2 then _ else got' = [] := hgot
    rw [if_neg (by simp [hk])] at hgot
    subst hgot
    exact Nat.not_lt_zero _ hlt
  | l2ScfMore x c got hk hp hmore =>
    rw [hp]
    exact State.inOrderAfter_next_element rfl rfl (by simp only [Pos.element, List.length_append, List.length_singleton])
  | l2ScfLast x c got hk hp hlast hgood =>
    rw [hp]
    refine (State.seekScf_scan _ (c.index + 1)).inOrderAfter (State.seekScf_goto _ _) fun p hpart hplace hlt hp' => ?_
    obtain ⟨d, got', rfl⟩ := Pos.eq_scf hpart
    obtain rfl : d = c := SubCh.ext_index hplace
    obtain ⟨_, hgot⟩ := hp'
    have hgot : if s.hdr.kind = .l2 then got'.length < scfsiCount (s.work.scfsiAt d.ch d.sb) else _ := hgot
    rw [if_pos hk] at hgot
    rw [List.length_append, List.length_singleton] at hlast
    have hlt : got.length < got'.length := hlt
    omega
  | l1Sample v gr c k hk hp =>
    rw [hp]
    refine (State.seekSample_scan _ gr (c.index + 1)).inOrderAfter (State.seekSample_goto _ _ _) fun p hpart hplace hlt => ?_
    exact State.not_hasElementAt_sample (fun h2 => absurd (hk.symm.trans h2) nofun) hpart hplace hlt
  | l2SampleMore v gr c k h hk hp hg =>
    rw [hp]
    exact State.inOrderAfter_next_element rfl rfl rfl
  | l2SampleLast v gr c k hk hp h hg =>
    rw [hp]
    refine (State.seekSample_scan _ gr (c.index + 1)).inOrderAfter (State.seekSample_goto _ _ _) fun p hpart _ hlt hp' => ?_
    obtain ⟨gr', d, k', rfl, _⟩ := hp'.sample (by rw [hpart]; exact Nat.le_add_right _ _)
    have hlt : k.val < k'.val := hlt
    omega
  | l2Group x gr c k hk hp hg =>
    rw [hp]
    refine (State.seekSample_scan _ gr (c.index + 1)).inOrderAfter (State.seekSample_goto _ _ _) fun p hpart hplace hlt => ?_
    refine State.not_hasElementAt_sample (fun _ => ?_) hpart hplace hlt
    rw [State.storeSample_classOf, State.storeSample_classOf, State.storeSample_classOf]
    exact hg

/-- Settles O22: a step of the body that does not raise reads an element. -/
theorem elementsAreReadInTheOrderOfTheFormat : Obligations.ElementsAreReadInTheOrderOfTheFormat := by
  intro s t hs hf h hlive
  obtain ⟨_, hpos⟩ := hs.inBody hf
  cases step_cases h with
  | body i t _ hsel hwf hfit hb =>
    have hnext : t.InOrderAfter s.pos := hb.inOrderAfter
    have hposition := hb.position hpos
    obtain ⟨hfsm, hbefore, hnone⟩ | ⟨hfsm, hslot, hnone⟩ := hnext
    · refine ⟨fun _ => ⟨hbefore, ?_, hnone⟩, fun hne => absurd hfsm hne⟩
      obtain ⟨_, hat⟩ | ⟨hsynth, _⟩ := hposition
      · exact hat
      · exact absurd (hfsm.symm.trans hsynth) nofun
    · exact ⟨fun hd => absurd (hfsm.symm.trans hd) nofun, fun _ => ⟨hfsm, hslot, hnone⟩⟩
  | bodyEof | bodyInvalid => exact absurd rfl hlive
  | _ => simp_all

end Sys2Proof.Machine
end

section
/-! Bytes in front of the input (41_frame_sync.md R123, 70_reset_and_hazards.md R291): the machine reads the input at its cursor alone, so
that a run on a stream is the run on the stream with more bytes in front, once the cursor is behind them. -/

namespace Sys2Proof.Machine

variable {g : Nat} {m : Memory} {a : Bool} {s s' t : State}

/-- `m'` is `m` with `g` more bytes in front. -/
def Memory.Behind (g : Nat) (m m' : Memory) : Prop := m'.size = g + m.size ∧ ∀ p, m'.read (g + p) = m.read p

/-- The state `s` on an input with `g` more bytes in front. -/
abbrev State.behind (g : Nat) (m : Memory) (a : Bool) (s : State) : State := s.relocate m (8 * g + s.bp) a

theorem shiftedBy_iff : ShiftedBy g s s' ↔ s.input.Behind g s'.input ∧ s' = s.behind g s'.input s'.ahead := by
  constructor
  · rintro ⟨hsize, hread, hbp, hrest⟩
    refine ⟨⟨hsize, hread⟩, ?_⟩
    calc s' = { s' with input := s.input, bp := s.bp, ahead := s.ahead }.relocate s'.input (8 * g + s.bp) s'.ahead := by rw [← hbp]
      _ = s.behind g s'.input s'.ahead := by rw [hrest]
  · rintro ⟨⟨hsize, hread⟩, e⟩
    rw [e]
    exact ⟨hsize, hread, rfl, rfl⟩

theorem shiftedBy_behind (h : s.input.Behind g m) : ShiftedBy g s (s.behind g m a) := shiftedBy_iff.mpr ⟨h, rfl⟩

/-! ### The same unit is selected and read -/

theorem Memory.Behind.bits (h : Memory.Behind g s.input m) (b n : Nat) : m.bits (8 * g + b) n = s.input.bits b n := by
  simp only [Memory.bits, Memory.bit]
  refine List.map_congr_left fun i _ => ?_
  rw [show (8 * g + b + i) / 8 = g + (b + i) / 8 by omega, show (8 * g + b + i) % 8 = (b + i) % 8 by omega, h.2]

theorem State.behind_byteIndex : (s.behind g m a).byteIndex = g + s.byteIndex := by
  simp only [State.byteIndex]
  omega

theorem State.behind_selected (h : s.input.Behind g m) : (s.behind g m a).selected = s.selected := by
  have hseek : (s.behind g m a).seekSelected = s.seekSelected := by
    simp only [State.seekSelected, State.behind_byteIndex, Nat.add_assoc, h.2]
  have hpad : (s.behind g m a).padWidth = s.padWidth := by
    simp only [State.padWidth]
    omega
  have hbody : (s.behind g m a).bodySelected = s.bodySelected := rfl
  simp only [State.selected, hseek, hpad, hbody]

theorem State.behind_fetchBit : (s.behind g m a).fetchBit = 8 * g + s.fetchBit := by
  simp only [State.fetchBit, State.behind_byteIndex]
  split
  · rw [Nat.mul_add]
  · rfl

theorem State.behind_fetch (h : s.input.Behind g m) : (s.behind g m a).fetch = s.fetch := by
  simp only [State.fetch, State.behind_selected h, State.behind_fetchBit, h.bits]

/-! ### A unit's effect does not look at the input or the cursor -/

/-- An operation that does not look at the input, the cursor or whether the scan is a byte ahead, and leaves them. -/
def Movable (k : State → State) : Prop := ∀ m b a u, k (State.relocate m b a u) = State.relocate m b a (k u)

theorem Movable.bp {k : State → State} (hk : Movable k) (u : State) : (k u).bp = u.bp := by
  have h : k u = (k u).relocate u.input u.bp u.ahead := hk u.input u.bp u.ahead u
  calc (k u).bp = ((k u).relocate u.input u.bp u.ahead).bp := congrArg State.bp h
    _ = u.bp := rfl

theorem Movable.consume {k : State → State} (hk : Movable k) (h : s.input.Behind g m) (n : Nat) :
    (s.behind g m a).consume n k = (s.consume n k).behind g m a :=
  State.relocate_consume g m s n k h.1 a (fun b u => hk m b a u) hk.bp

theorem movable_atAlloc {f : State → SubCh → State} (hf : ∀ c, Movable (f · c)) : Movable fun s => s.atAlloc (f s) := by
  intro m b a u
  simp only [State.atAlloc]
  split
  · exact hf _ m b a u
  · rfl

theorem movable_atScfsi {f : State → SubCh → State} (hf : ∀ c, Movable (f · c)) : Movable fun s => s.atScfsi (f s) := by
  intro m b a u
  simp only [State.atScfsi]
  split
  · exact hf _ m b a u
  · rfl

theorem movable_atScf {f : State → SubCh → List (BitVec 6) → State} (hf : ∀ c got, Movable (f · c got)) :
    Movable fun s => s.atScf (f s) := by
  intro m b a u
  simp only [State.atScf]
  split
  · exact hf _ _ m b a u
  · rfl

theorem movable_atSample {f : State → Fin 12 → SubCh → Fin 3 → State} (hf : ∀ gr c k, Movable (f · gr c k)) :
    Movable fun s => s.atSample (f s) := by
  intro m b a u
  simp only [State.atSample]
  split
  · exact hf _ _ _ m b a u
  · rfl

theorem State.behind_frame (h : s.input.Behind g m) (layer : BitVec 2) (hd : HdrFields) :
    (s.behind g m a).frame layer hd = (s.frame layer hd).behind g m false := by
  have haccept : (s.behind g m a).acceptCandidate = s.acceptCandidate.behind g m false := by
    simp only [State.acceptCandidate, State.behind_byteIndex]
    congr 1
    change _ = 8 * g + (8 * (s.byteIndex + 1) + 4)
    omega
  rw [State.frame, haccept]
  exact Movable.consume (s := s.acceptCandidate) (fun m b a u => State.relocate_header m b a u layer hd) h 20

/-- The effect of a unit is the same behind more bytes: the scan goes by the byte index, and every other unit consumes its bits and
goes on without another look at the input. -/
theorem unitEffect_behind (h : s.input.Behind g m) (i : Instr) :
    ∃ a', unitEffect i (s.behind g m a) = (unitEffect i s).behind g m a' := by
  have consumed {n : Nat} {k : State → State} (hk : Movable k) :
      ∃ a', (s.behind g m a).consume n k = (s.consume n k).behind g m a' := ⟨a, hk.consume h n⟩
  cases i with
  | skip x =>
    refine ⟨(s.behind g m a).testsSuccessor, ?_⟩
    simp only [unitEffect, State.skipByte, State.behind_byteIndex]
    congr 1
    change _ = 8 * g + 8 * (s.byteIndex + 1)
    omega
  | frameL1 hd | frameL2 hd | frameL3 hd | frameRsv hd => exact ⟨false, State.behind_frame h _ hd⟩
  | crc16 => exact consumed fun m b a u => State.relocate_finish m b a u
  | padBits => exact consumed fun m b a u => rfl
  | l1Alloc x | l2Alloc _ x =>
    simp only [unitEffect]
    exact consumed (movable_atAlloc fun c m b a u => State.relocate_seekAlloc m b a (u.storeAlloc c x) _)
  | l2Scfsi x =>
    simp only [unitEffect]
    exact consumed (movable_atScfsi fun c m b a u => State.relocate_seekScfsi m b a (u.withWork (u.work.setScfsi c.ch c.sb x)) _)
  | l1Scf x =>
    simp only [unitEffect]
    refine consumed (movable_atScf fun c got m b a u => ?_)
    dsimp only
    split
    · rfl
    · exact State.relocate_seekScf m b a (u.withWork (u.work.setScfIdx c.ch c.sb 0 x)) _
  | l2Scf x =>
    simp only [unitEffect]
    refine consumed (movable_atScf fun c got m b a u => ?_)
    dsimp only
    split
    · rfl
    · split
      · rfl
      · exact State.relocate_seekScf m b a (u.storeScfIdx c (scfsiPattern (u.work.scfsiAt c.ch c.sb) (got ++ [x]))) _
  | l1Sample w v =>
    simp only [unitEffect]
    exact consumed (movable_atSample fun gr c k m b a u => State.relocate_seekSample m b a
      (u.storeSample c (gr.castLE (by decide)) 0 (deq1 u.cfg.num v.toNat (u.work.allocAt c.ch c.sb).toNat)) gr _)
  | l2Sample w v =>
    simp only [unitEffect]
    refine consumed (movable_atSample fun gr c k m b a u => ?_)
    dsimp only
    split
    · rfl
    · exact State.relocate_seekSample m b a
        (u.storeSample c (groupSlot gr k) (scaleSlot gr) (deq2 u.cfg.num v.toNat (u.classOf c))) gr _
  | l2Group w x =>
    simp only [unitEffect]
    exact consumed (movable_atSample fun gr c k m b a u => State.relocate_seekSample m b a (u.storeTriple c gr (scaleSlot gr)
      ![deq2 u.cfg.num (demux (u.classOf c).levels x.toNat).1 (u.classOf c),
        deq2 u.cfg.num (demux (u.classOf c).levels x.toNat).2.1 (u.classOf c),
        deq2 u.cfg.num (demux (u.classOf c).levels x.toNat).2.2 (u.classOf c)]) gr _)

/-! ### Steps -/

theorem State.behind_synthChannels (win : Nat → NumVal) (k : Fin 36) :
    (s.behind g m a).synthChannels win k = State.relocate m (8 * g + s.bp) a (s.synthChannels win k) := by
  have hch : (s.behind g m a).channels = s.channels := rfl
  unfold State.synthChannels
  rw [hch]
  obtain ⟨_, e⟩ | ⟨_, e⟩ := s.channels_cases <;> rw [e] <;> rfl

theorem State.relocate_nextSlot (m : Memory) (b : Nat) (a : Bool) (u : State) (k : Fin 36) :
    (u.relocate m b a).nextSlot k = (u.nextSlot k).relocate m b a := by
  have hslots : (u.relocate m b a).slotCount = u.slotCount := rfl
  simp only [State.nextSlot, hslots]
  split
  · split <;> rfl
  · rfl

/-- Settles O59: the end of the input is as far behind, a time slot reads no input, and a unit is fetched from the same bits. -/
theorem stepDoesNotSeeThePrefix : Obligations.StepDoesNotSeeThePrefix := by
  intro g s s' t hshift h
  obtain ⟨hbehind, e⟩ := shiftedBy_iff.mp hshift
  have hinput := step_input h
  rw [e]
  generalize s'.input = m, s'.ahead = a at *
  have goes_behind {a' : Bool} (hstep : step (s.behind g m a) = .next (t.behind g m a')) :
      ∃ t', step (s.behind g m a) = .next t' ∧ ShiftedBy g t t' := ⟨_, hstep, shiftedBy_behind (hinput ▸ hbehind)⟩
  obtain ⟨hf, hend, rfl⟩ | ⟨k, hf, hp, rfl⟩ | ⟨hf, rfl⟩ | ⟨_, i, hfetch, hsel, rfl⟩ := step_eq_next h
  · refine goes_behind (a' := false) ?_
    rw [(endOfInputWhileSeekingEndsCleanly (s.behind g m a) hf (by rw [State.behind_byteIndex, hbehind.1]; omega)).1]
    simp only [State.endRun, State.endBit, hbehind.1, Nat.mul_add]
  · refine goes_behind (a' := a) ?_
    have hslot : (s.behind g m a).synthSlot (window s.cfg.num) k =
        State.relocate m (8 * g + s.bp) a (s.synthSlot (window s.cfg.num) k) := by
      rw [State.synthSlot, State.behind_synthChannels]
      rfl
    obtain ⟨f, p, egoto⟩ := (s.synthSlot (window s.cfg.num) k).nextSlot_eq_goto k
    have hbp : (s.synthSlot (window s.cfg.num) k).bp = s.bp := (s.synthSlot_same _ _).2.1
    rw [step_of_slot (s := s.behind g m a) hf hp, hslot, State.relocate_nextSlot, egoto]
    simp only [State.behind, State.goto_bp, hbp]
  · exact goes_behind (step_of_terminal hf)
  · obtain ⟨a', heffect⟩ := unitEffect_behind (a := a) hbehind i
    have hsel' := (State.behind_selected (a := a) hbehind).trans hsel
    have hstage := State.stage_eq_none hsel
    have hread : readWidth i.shape ≤ s.cfg.readMax := by
      rw [step_of_fetch hstage hfetch] at h
      obtain ⟨_, hread, _⟩ := exec_eq_next.mp h
      exact hread
    refine goes_behind (a' := a') ?_
    rw [step_of_fetch (State.stage_eq_none hsel') ((State.behind_fetch hbehind).trans hfetch), exec_of_readWidth hsel' hread, heffect]

/-! ### Runs -/

theorem run_succ_eq_next {n : Nat} :
    Sys2Proof.core.run (n + 1) s = .next t ↔ ∃ u, step s = .next u ∧ Sys2Proof.core.run n u = .next t := by
  refine ⟨fun h => ?_, fun ⟨u, hstep, hrun⟩ => (run_succ n hstep).trans hrun⟩
  have hrun := (core_run_succ Sys2Proof.core n s).symm.trans h
  split at hrun
  · next u hstep => exact ⟨u, hstep, hrun⟩
  · cases hrun
  · cases hrun

theorem run_shiftedBy (n : Nat) (hshift : ShiftedBy g s s') (h : Sys2Proof.core.run n s = .next t) :
    ∃ t', Sys2Proof.core.run n s' = .next t' ∧ ShiftedBy g t t' := by
  induction n generalizing s s' with
  | zero => exact ⟨s', rfl, by cases h; exact hshift⟩
  | succ n ih =>
    obtain ⟨u, hstep, hrun⟩ := run_succ_eq_next.mp h
    obtain ⟨u', hstep', hshift'⟩ := stepDoesNotSeeThePrefix g s s' u hshift hstep
    obtain ⟨t', hrun', ht⟩ := ih hshift' hrun
    exact ⟨t', run_succ_eq_next.mpr ⟨u', hstep', hrun'⟩, ht⟩

/-- Bytes at which no candidate begins are skipped, a step for each. -/
theorem run_skips {bytes : List Byte} {k : Nat} (hk : k ≤ bytes.length) (hf : s.fsm = .seekSync) (hbp : s.bp = 0)
    (hinput : s.input = Memory.ofBytes bytes)
    (hnone : ∀ p b0 b1, p < k → bytes[p]? = some b0 → bytes[p + 1]? = some b1 → isCandidate b0 b1 = false) :
    ∃ a, Sys2Proof.core.run k s = .next { s with bp := 8 * k, ahead := a } := by
  induction k with
  | zero =>
    have hstart : { s with bp := 8 * 0, ahead := s.ahead } = s := by rw [Nat.mul_zero, ← hbp]
    exact ⟨s.ahead, by rw [hstart]; rfl⟩
  | succ k ih =>
    obtain ⟨a, hrun⟩ := ih (by omega) fun p b0 b1 hp => hnone p b0 b1 (by omega)
    have hindex : ({ s with bp := 8 * k, ahead := a } : State).byteIndex = k := Nat.mul_div_cancel_left k (by decide)
    have hread (p : Nat) : s.input.read p = bytes[p]? := by rw [hinput, Memory.read_ofBytes]
    have hb : bytes[k]? = some bytes[k] := List.getElem?_eq_getElem hk
    have hskip := (skipMovesTheCursorAlone { s with bp := 8 * k, ahead := a } bytes[k] hf (by rw [hindex, hread, hb]) fun b1 h1 hc => ?_).2.1
    · rw [hindex] at hskip
      exact ⟨_, (run_add k 1 hrun).trans (run_succ_eq_next.mpr ⟨_, hskip, rfl⟩)⟩
    · rw [hindex, hread] at h1
      have := hnone k _ b1 (by omega) hb h1
      simp [isCandidate, hc] at this

theorem ShiftedBy.result (h : ShiftedBy g s s') : s'.result = s.result := by
  rw [(shiftedBy_iff.mp h).2]
  rfl

/-- Settles O60: the garbage is skipped, and behind it the run goes as the run without it. -/
theorem garbagePrefixDoesNotChangeTheDecoding : Obligations.GarbagePrefixDoesNotChangeTheDecoding := by
  intro c g stream n t hnone h
  obtain ⟨a, hskipped⟩ := run_skips (s := State.startWith c (g ++ stream)) (k := g.length) (by simp) rfl rfl rfl hnone
  have hshift : ShiftedBy g.length (State.startWith c stream)
      { State.startWith c (g ++ stream) with bp := 8 * g.length, ahead := a } := by
    refine ⟨?_, fun p => ?_, rfl, rfl⟩
    · simp [State.startWith]
    · simp only [State.startWith, Memory.read_ofBytes, List.getElem?_append_right (Nat.le_add_right _ _), Nat.add_sub_cancel_left]
  obtain ⟨t', hrun, ht⟩ := run_shiftedBy n hshift h
  exact ⟨t', (run_add g.length n hskipped).trans hrun, ht, ht.result⟩

end Sys2Proof.Machine
end
